-- ==== Sys2Proof/Word.lean ====
section
/-! DEFINITION. The word types of the unit: bytes, 32-bit registers, the 16-byte blocks and the 32-byte key register. -/

namespace Sys2Proof

/-- An 8-bit unsigned value (R7). -/
abbrev Byte := BitVec 8

/-- The value of a 32-bit register of the window (R22). -/
abbrev Word := BitVec 32

/-- A counter or keystream block: 16 bytes, byte 0 first (R26, R29). -/
abbrev Block := Vector Byte 16

/-- The KEY register: 32 bytes, the loaded key left-aligned (R28). -/
abbrev KeyBytes := Vector Byte 32

end Sys2Proof
end

