-- ==== Sys2Proof/Config.lean ====
section
/-! DEFINITION. What an implementation fixes (R6): the plain parameters, the cipher port's two functions, which stay
open, and the free values. -/

namespace Sys2Proof

/-- `len` bytes from `base`; exact numbers, nothing wraps (R10). -/
structure Span where
  base : Nat
  len : Nat
  deriving DecidableEq, Repr

/-- A key length an implementation may accept (R6, KEY_SIZES). -/
inductive KeySize where
  | k16
  | k24
  | k32
  deriving DecidableEq, Repr

/-- The plain parameters of R6. They stand in State as the field `cfg`, which no step changes, so that a statement about
every state is one about every choice of them (log 3). -/
structure Params where
  /-- AW, the address width of the memory port; at most 32, since ERRADDR holds an address zero-extended to 32 bits (R40). -/
  aw : Fin 33
  /-- KEY_SIZES, a subset of 16, 24, 32. -/
  keySizes : List KeySize
  /-- ALLOW_EMPTY. -/
  allowEmpty : Bool
  /-- MemAdmit as plain data: the spans of addresses the memory port refuses (R52); it admits every other one. -/
  refused : List Span
  /-- Regions with read side effects or volatile contents, which no footprint may meet (R59). -/
  devices : List Span
  deriving DecidableEq, Repr

/-- The spec's defaults (R6) for AW, KEY_SIZES and ALLOW_EMPTY; DESIGN CHOICE for the rest (log 3, 10): every address
admitted, no device region. -/
def Config.params : Params where
  aw := 32
  keySizes := [.k32]
  allowEmpty := false
  refused := []
  devices := []

/-- A cipher error, whose contents the source leaves to the implementation (R39, I1): one of countably many codes. -/
structure CipherErr where
  code : Nat
  deriving DecidableEq, Repr, Inhabited

/-- The response of the cipher port (R24). -/
inductive CipherResult where
  | ok (c : Block)
  | err (e : CipherErr)
  deriving DecidableEq, Repr, Inhabited

/-- The two functions behind the cipher port (R6): BlockEncrypt and CERR_ENC. -/
structure CipherPort where
  /-- BlockEncrypt: key bytes and a block to a response; it depends on its arguments alone (R24). -/
  encrypt : List Byte → Block → CipherResult
  /-- CERR_ENC: the 32-bit CERR value of a cipher error (R39). -/
  encode : CipherErr → Word

/-- BlockEncrypt, OPEN (R6, D29): nothing is known of it but its type (log 4). -/
opaque Config.blockEncrypt : List Byte → Block → CipherResult

/-- CERR_ENC, OPEN (R6, D29) (log 4). -/
opaque Config.cerrEnc : CipherErr → Word

/-- The cipher port the machine is wired to. -/
def Config.cipherPort : CipherPort where
  encrypt := Config.blockEncrypt
  encode := Config.cerrEnc

/-- UNIT_BASE, OPEN (R6, R60): the base of the register window on the host bus (log 11). -/
opaque Config.unitBase : Nat

/-- The n-th free byte: a racing byte of memory (R63) (log 8). -/
opaque Config.freeByte : Nat → Byte

/-- The n-th free word: a result register read while BUSY (R43), SEQ's command word while IDLE (R23) (log 2, 7). -/
opaque Config.freeWord : Nat → Word

/-- The n-th free number: SEQ's indices while IDLE (R23), the prefix of writes a reset keeps (R181) (log 2, 9). -/
opaque Config.freeNat : Nat → Nat

end Sys2Proof
end

