-- ==== Sys2Proof/Machine/Bytes.lean ====
section
/-! DEFINITION. The byte-sequence functions the commands share: big-endian value, increment, padding, block count (R8,
R100 to R102, R121, R122). -/

namespace Sys2Proof.Machine

/-- R8: the big-endian value of a byte sequence, byte 0 the most significant. -/
def valBe : List Byte → Nat
  | [] => 0
  | b :: bs => b.toNat * 256 ^ bs.length + valBe bs

/-- R8: the n-byte sequence whose big-endian value is v, for v below 256^n. -/
def beBytes : Nat → Nat → List Byte
  | 0, _ => []
  | n + 1, v => BitVec.ofNat 8 (v / 256 ^ n) :: beBytes n v

/-- The increment loop seen from the least significant byte: add one, stop at the first byte that does not wrap (R101). -/
def incFromLow : List Byte → List Byte
  | [] => []
  | b :: bs => if b + 1 = 0 then 0 :: incFromLow bs else (b + 1) :: bs

/-- IncBytes (R101): the loop runs from the last byte, which is the least significant, to lower indices. -/
def incBytes (bs : List Byte) : List Byte := (incFromLow bs.reverse).reverse

/-- The first n bytes of a sequence, filled with zeros on the right up to n: `N ++ 0^(n - len N)`. -/
def padTo (n : Nat) (bs : List Byte) : Vector Byte n :=
  ⟨((bs ++ List.replicate n 0).take n).toArray, by simp⟩

/-- `0^16`. -/
def zeroBlock : Block := padTo 16 []

/-- InitCounter (R102): the nonce left-aligned, the rest zero. -/
def initCounter (nonce : List Byte) : Block := padTo 16 nonce

/-- Inc128 (R100): the increment loop on the 16 bytes of a counter block. -/
def inc128 (c : Block) : Block := padTo 16 (incBytes c.toList)

/-- blockCount (R121): `ceil(m / 16)`. -/
def blockCount (m : Nat) : Nat := (m + 15) / 16

/-- q_j (R122): how many message bytes block j covers. -/
def blockBytes (m j : Nat) : Nat := min 16 (m - 16 * j)

/-- The byte-wise XOR of a message block with the keystream block's first bytes (R128). -/
def xorBytes (msg : List Byte) (ks : List Byte) : List Byte := List.zipWith (· ^^^ ·) msg ks

/-- CTRk (R27): bytes 4k to 4k+3 of the counter packed big-endian. -/
def counterWord (c : Block) (k : Nat) : Word := BitVec.ofNat 32 (valBe ((c.toList.drop (4 * k)).take 4))

end Sys2Proof.Machine
end

