-- ==== Sys2Proof/Machine/Memory.lean ====
section
/-! DEFINITION. The data address space (R51) as a list of cells in one canonical form: addresses strictly rising, no cell
equal to what an unlisted address reads as. -/

namespace Sys2Proof.Machine

/-- Data memory: the bytes that differ from `Memory.unlisted`, by rising address. -/
abbrev Memory := List Host.Cell

/-- What a byte that nothing has written reads as. DESIGN CHOICE, unsafe (log 1): the spec gives the data memory no
initial contents. -/
def Memory.unlisted : Byte := 0

/-- The byte at an address (R51). -/
def Memory.byteAt : Memory → Nat → Byte
  | [], _ => Memory.unlisted
  | (k, v) :: rest, a => if a = k then v else Memory.byteAt rest a

/-- Sets the byte at an address (R51) and keeps the canonical form. -/
def Memory.setByte : Memory → Nat → Byte → Memory
  | [], a, v => if v = Memory.unlisted then [] else [(a, v)]
  | (k, w) :: rest, a, v =>
    if a < k then if v = Memory.unlisted then (k, w) :: rest else (a, v) :: (k, w) :: rest
    else if a = k then if v = Memory.unlisted then rest else (a, v) :: rest
    else (k, w) :: Memory.setByte rest a v

/-- The canonical form above a lower bound: every address at least `lo`, rising, no unlisted value. -/
def Memory.wfFrom : Nat → Memory → Bool
  | _, [] => true
  | lo, (k, v) :: rest => decide (lo ≤ k) && v != Memory.unlisted && Memory.wfFrom (k + 1) rest

/-- The canonical form. -/
def Memory.wf (m : Memory) : Bool := Memory.wfFrom 0 m

/-- Every listed address is below `top`: no cell outside the address space (R51). -/
def Memory.below (top : Nat) (m : Memory) : Bool := m.all fun c => decide (c.1 < top)

/-- The bytes at `a`, `a+1`, ..., `n` of them (R53: byte i at base address + i). -/
def Memory.bytes (m : Memory) (a : Nat) : Nat → List Byte
  | 0 => []
  | n + 1 => Memory.byteAt m a :: Memory.bytes m (a + 1) n

/-- Sets the bytes at `a`, `a+1`, ... in that order. -/
def Memory.setBytes (m : Memory) (a : Nat) : List Byte → Memory
  | [] => m
  | b :: bs => Memory.setBytes (Memory.setByte m a b) (a + 1) bs

end Sys2Proof.Machine
end

