-- ==== Sys2Proof/Machine/State.lean ====
section
/-! DEFINITION. The machine's state: everything 10_state.md gives the unit, the data memory, the platform's parameters, and
the model's own fields for the host's pending accesses and for what the ports have carried. -/

namespace Sys2Proof.Machine

/-- The sequencer's phase (R23); STATUS.BUSY mirrors it (R33). -/
inductive Phase where
  | idle
  | busy
  deriving DecidableEq, Repr

/-- STATUS.ERR, the completion codes 0 to 4 (R150). The reserved codes 5 to 15 have no constructor: they are never written. -/
inductive ErrCode where
  | none
  | invalidArgument
  | cipherError
  | busError
  | illegalCommand
  deriving DecidableEq, Repr

/-- STATUS.SUB, the sub-causes 0 to 8 (R151). -/
inductive SubCause where
  | none
  | emptyMessage
  | badNonceLen
  | badKeyLen
  | range
  | noKey
  | noCounter
  | noKeystream
  | badXorLen
  deriving DecidableEq, Repr

/-- How a command ends when it does not complete without error (R9, R150): `raise E`. -/
inductive CmdError where
  /-- InvalidArgument with its sub-cause (R151). -/
  | invalid (sub : SubCause)
  /-- CipherError, with CERR_ENC of the cipher's error (R153). -/
  | cipher (cerr : Word)
  /-- BusError at an address (R152). -/
  | bus (addr : Nat)
  /-- IllegalCommand (R154). -/
  | illegal
  deriving DecidableEq, Repr

/-- The seven operand registers (R30); also the snapshot of them (R44). -/
structure Operands where
  src : Word
  dst : Word
  len : Word
  naddr : Word
  nlen : Word
  kaddr : Word
  klen : Word
  deriving DecidableEq, Repr

/-- SEQ, the loop-control state of a command in progress (R23, R31); each index is one of that command alone. -/
structure Seq where
  /-- The accepted command word. -/
  word : Word
  /-- XFORM's block index j. -/
  blk : Nat
  /-- XFORM's block count nblk. -/
  nblk : Nat
  /-- INCBUF's byte index i. -/
  idx : Nat
  deriving DecidableEq, Repr

/-- One pending move of the outside world, or of the unit (R20). HostWrite and HostRead are R9's primitives. -/
inductive Input where
  /-- A 32-bit host write of the register window at a byte offset. -/
  | hostWrite (off : Nat) (v : Word)
  /-- A 32-bit host read of the register window at a byte offset. -/
  | hostRead (off : Nat)
  /-- A host access of the register window of another width, in bits (R54). -/
  | hostOther (off bits : Nat)
  /-- A host write of one byte of data memory. -/
  | memWrite (addr : Nat) (v : Byte)
  /-- A host read of one byte of data memory. -/
  | memRead (addr : Nat)
  /-- The unit's turn, every request of it answered: a BUSY command runs to its completion (R193). -/
  | unitTurn
  /-- The unit's turn, where its port never answers the command's request number k, counted from 0 over the accesses and
  cipher calls in their order: the command runs up to it and waits, BUSY (R193, U7). -/
  | unitStall (k : Nat)
  /-- The reset input (R180, R181). -/
  | reset
  deriving DecidableEq, Repr

/-- What the unit's ports carry (R55): one event per admitted MemRead or MemWrite, and the cipher calls between them. -/
inductive Event where
  | read (addr : Nat) (v : Byte)
  | write (addr : Nat) (v : Byte)
  | cipher (key : List Byte) (block : Block)
  deriving DecidableEq, Repr

/-- Why the machine stops. No command stops it: a command's errors are completion records (R155). -/
inductive Fault where
  /-- A host access to a data address outside the 2^AW bytes of R51, which does not exist. Raised by the host's memory
  accesses. Safe: nothing is claimed of it (log 15). -/
  | noSuchAddress (addr : Nat)
  deriving DecidableEq, Repr

/-- What the model gives no meaning to. -/
inductive Refusal where
  /-- An instruction without a meaning yet; raised by exec's arms alone. Safe. -/
  | notModelled (mnemonic : String)
  /-- A host access of the register window that is not an aligned 32-bit word inside it (R54, U5). Raised by hostWrite,
  hostRead and hostOther. Safe: R54 refuses it. -/
  | registerAccess (off : Nat)
  /-- A command whose footprint meets a device region (R59, U6). Raised at the CMD write. Safe: R59 refuses the launch. -/
  | deviceFootprint (word : Word)
  /-- A move that leaves request number k unanswered where no command in progress makes that request: no such thing can
  happen (R193). Raised by unitStall. Safe: the list of moves contradicts itself (log 9). -/
  | noSuchRequest (k : Nat)
  deriving DecidableEq, Repr

/-- The machine's state. -/
structure State where
  /-- CMD: the last accepted command word (R37). -/
  cmd : Word
  /-- The operand registers (R30). -/
  ops : Operands
  /-- BLKCNT (R38). -/
  blkcnt : Word
  /-- CERR (R39). -/
  cerr : Word
  /-- ERRADDR (R40). -/
  erraddr : Word
  /-- STATUS.DONE (R33). -/
  done : Bool
  /-- STATUS.OVERRUN (R34). -/
  overrun : Bool
  /-- STATUS.ERR (R35). -/
  err : ErrCode
  /-- STATUS.SUB (R35). -/
  sub : SubCause
  /-- KEY (R28). -/
  key : KeyBytes
  /-- KEY_LEN (R28): 0, 16, 24 or 32; STATUS.KEY_VALID is that it is not 0 (R36). -/
  keyLen : Nat
  /-- CTR (R26). -/
  ctr : Block
  /-- STATUS.CTR_VALID (R36). -/
  ctrValid : Bool
  /-- KS (R29). -/
  ks : Block
  /-- STATUS.KS_VALID (R36). -/
  ksValid : Bool
  /-- PHASE (R23). -/
  phase : Phase
  /-- SEQ (R31). -/
  seq : Seq
  /-- The model's own: the running command has sent a request that is never answered, so BUSY stays 1 (R193, U7). -/
  waiting : Bool
  /-- The model's own, none but within a unitStall's turn: how long the trace is when a request stays unanswered (R193). -/
  silentAt : Option Nat
  /-- The operand snapshot taken at acceptance (R44). -/
  snap : Operands
  /-- The data address space (R51). -/
  mem : Memory
  /-- The platform's parameters (R6), which no step changes. -/
  cfg : Params
  /-- The model's own: the moves still to come, next one first. -/
  inputs : List Input
  /-- The model's own: what the commands of the open window read (R58, R62). -/
  fpReads : List Span
  /-- The model's own: what the commands of the open window write (R58, R62). -/
  fpWrites : List Span
  /-- The model's own: footprint bytes of the open window that the host wrote, or read although a command writes them
  (R63). -/
  touched : List Nat
  /-- The model's own: the value the host's last read returned. -/
  hostData : Word
  /-- The model's own: the port events so far, oldest first. -/
  trace : List Event
  /-- The model's own: how many free values have been drawn. -/
  draws : Nat
  deriving DecidableEq, Repr

/-- Every operand register 0 (R22). -/
def Operands.zero : Operands := ⟨0, 0, 0, 0, 0, 0, 0⟩

/-- The machine right after reset (R180, R22, R23, R32), with no memory byte written, the default parameters and no pending
move. SEQ and the snapshot are DESIGN CHOICE zero (log 2, 16); the model's own fields are empty (log 12). -/
def State.reset : State where
  cmd := 0
  ops := Operands.zero
  blkcnt := 0
  cerr := 0
  erraddr := 0
  done := false
  overrun := false
  err := .none
  sub := .none
  key := padTo 32 []
  keyLen := 0
  ctr := zeroBlock
  ctrValid := false
  ks := zeroBlock
  ksValid := false
  phase := .idle
  seq := ⟨0, 0, 0, 0⟩
  waiting := false
  silentAt := none
  snap := Operands.zero
  mem := []
  cfg := Config.params
  inputs := []
  fpReads := []
  fpWrites := []
  touched := []
  hostData := 0
  trace := []
  draws := 0

end Sys2Proof.Machine
end

