-- ==== Sys2Proof/Machine/Flags.lean ====
section
/-! DEFINITION. STATUS (R32): its fields' codes, the word a host reads, and what a host write of it does. The unit has no
arithmetic flags (R45). -/

namespace Sys2Proof.Machine

/-- The ERR codes (R150). -/
def errCode : ErrCode → Nat
  | .none => 0
  | .invalidArgument => 1
  | .cipherError => 2
  | .busError => 3
  | .illegalCommand => 4

/-- The SUB codes (R151). -/
def subCode : SubCause → Nat
  | .none => 0
  | .emptyMessage => 1
  | .badNonceLen => 2
  | .badKeyLen => 3
  | .range => 4
  | .noKey => 5
  | .noCounter => 6
  | .noKeystream => 7
  | .badXorLen => 8

/-- STATUS.BUSY (R33). -/
def isBusy (s : State) : Bool := s.phase == .busy

/-- STATUS.KEY_VALID (R36). -/
def keyValid (s : State) : Bool := s.keyLen != 0

/-- A one-bit field in its place. -/
def bitAt (b : Bool) (pos : Nat) : Word := if b then BitVec.ofNat 32 (2 ^ pos) else 0

/-- STATUS bits [3:0]: BUSY, DONE, OVERRUN and a reserved 0 (R32). -/
def statusLow (s : State) : Word := bitAt (isBusy s) 0 ||| bitAt s.done 1 ||| bitAt s.overrun 2

/-- STATUS bits [18:4]: ERR, SUB and the VALID bits (R32). -/
def statusResult (s : State) : Word :=
  BitVec.ofNat 32 (errCode s.err * 2 ^ 4) ||| BitVec.ofNat 32 (subCode s.sub * 2 ^ 8)
    ||| bitAt (keyValid s) 16 ||| bitAt s.ctrValid 17 ||| bitAt s.ksValid 18

/-- STATUS as the fields give it (R32). -/
def statusWord (s : State) : Word := statusLow s ||| statusResult s

/-- STATUS as read while BUSY: bits [18:4] are unspecified, the rest exact (R43). -/
def statusWhileBusy (s : State) (drawn : Word) : Word := statusLow s ||| (drawn &&& 0x7FFF0)

/-- A host write of STATUS: bit 2 written as 1 clears OVERRUN, nothing else changes (R32, R34). -/
def writeStatus (v : Word) (s : State) : State := if v.getLsbD 2 then { s with overrun := false } else s

end Sys2Proof.Machine
end

