-- ==== Sys2Proof/Syntax.lean ====
section
/-! DEFINITION. The commands of the unit, one constructor per row of the opcode table (R71). -/

namespace Sys2Proof

/-- A command. None carries an operand: operands come from the snapshot taken at acceptance (R74). -/
inductive Instr where
  /-- 0x00000001: load the key (R124). -/
  | ldkey
  /-- 0x00000002: load the counter from a nonce (R103). -/
  | ldnonce
  /-- 0x00000003: increment the counter register (R106). -/
  | incctr
  /-- 0x00000004: make one keystream block (R126). -/
  | genks
  /-- 0x00000005: combine up to 16 message bytes with the keystream block (R127). -/
  | xorks
  /-- 0x00000006: the whole Transform (R131). -/
  | xform
  /-- 0x00000007: increment a memory buffer in place (R109). -/
  | incbuf
  deriving DecidableEq, Repr

end Sys2Proof
end

