-- ==== Sys2Proof/WellFormed.lean ====
section
/-! DEFINITION. When a command word of the one format CMD is well formed (R70, R73). -/

namespace Sys2Proof

/-- The fields of a 32-bit command word, format CMD (R70). -/
structure CmdWord where
  /-- bits [31:8], reserved. -/
  rsv : BitVec 24
  /-- bits [7:0], the operation code. -/
  op : Byte
  deriving DecidableEq, Repr

/-- RSV must be zero (R70). -/
def CmdWord.rsvZero (c : CmdWord) : Bool := c.rsv == 0

/-- OP must be one of 0x01 to 0x07 (R71, R73). -/
def CmdWord.opMapped (c : CmdWord) : Bool := decide (1 ≤ c.op.toNat) && decide (c.op.toNat ≤ 7)

/-- A legal command word: both checks hold. Every other word is an illegal encoding (R73). -/
def CmdWord.wf (c : CmdWord) : Bool := c.rsvZero && c.opMapped

/-- The operation code of each command (R71). -/
def Instr.opcode : Instr → Byte
  | .ldkey => 0x01
  | .ldnonce => 0x02
  | .incctr => 0x03
  | .genks => 0x04
  | .xorks => 0x05
  | .xform => 0x06
  | .incbuf => 0x07

/-- An instruction is well formed when its word is; no command has a field that could be out of range. -/
def Instr.wf (i : Instr) : Bool := CmdWord.wf ⟨0, i.opcode⟩

end Sys2Proof
end

