-- ==== Sys2Proof/Decode.lean ====
section
/-! DEFINITION. Decoding a command word, total on every 32-bit word and rejecting by name (R72), and the encoder. -/

namespace Sys2Proof

/-- Why a word is no command (R73). Both reasons make the command complete with IllegalCommand (R154). -/
inductive DecodeError where
  /-- RSV, bits [31:8], is not zero. -/
  | reservedBits (rsv : BitVec 24)
  /-- OP is 0x00 or 0x08 to 0xFF. -/
  | unmappedOp (op : Byte)
  deriving DecidableEq, Repr

/-- The fields of a word (R70). -/
def fieldsOf (w : Word) : CmdWord := ⟨w.extractLsb' 8 24, w.extractLsb' 0 8⟩

/-- The opcode map (R71). -/
def instrOfOp (op : Byte) : Option Instr :=
  match op.toNat with
  | 0x01 => some .ldkey
  | 0x02 => some .ldnonce
  | 0x03 => some .incctr
  | 0x04 => some .genks
  | 0x05 => some .xorks
  | 0x06 => some .xform
  | 0x07 => some .incbuf
  | _ => none

/-- R72: the reserved bits are looked at first, then OP. -/
def decode (w : Word) : Except DecodeError Instr :=
  let c := fieldsOf w
  if c.rsv ≠ 0 then .error (.reservedBits c.rsv)
  else
    match instrOfOp c.op with
    | some i => .ok i
    | none => .error (.unmappedOp c.op)

/-- The word with these fields (R70). -/
def wordOf (c : CmdWord) : Word := c.rsv ++ c.op

/-- The command word of an instruction (R71). -/
def encode (i : Instr) : Word := wordOf ⟨0, i.opcode⟩

/-- What the decoder reads from a command word whose low `nbits` bits are those of `w` and whose higher bits are 0.
A command is one 32-bit word (R70, R75), so a longer one is none. -/
def decodeTableWord (nbits w : Nat) : Option Instr :=
  if 32 < nbits then none
  else
    match decode (BitVec.ofNat 32 (w % 2 ^ nbits)) with
    | .ok i => some i
    | .error _ => none

end Sys2Proof
end

