-- ==== Sys2Proof/Machine/Operands.lean ====
section
/-! DEFINITION. The operand forms (R74): what each command checks of its operands (R151, R157, R159) and its footprint
(R58). -/

namespace Sys2Proof.Machine

/-- Whether a span holds an address. -/
def spanHas (p : Span) (a : Nat) : Bool := decide (p.base ≤ a) && decide (a < p.base + p.len)

/-- Whether two spans share an address. -/
def spanMeets (p q : Span) : Bool :=
  decide (0 < p.len) && decide (0 < q.len) && decide (p.base < q.base + q.len) && decide (q.base < p.base + p.len)

/-- Whether some span of a list holds an address. -/
def spansHave (ps : List Span) (a : Nat) : Bool := ps.any (spanHas · a)

/-- MemAdmit (R52). -/
def admits (cfg : Params) (a : Nat) : Bool := !spansHave cfg.refused a

/-- The number of data addresses, 2^AW (R50). -/
def addrTop (cfg : Params) : Nat := 2 ^ cfg.aw.val

/-- The range check (R157), exact; a range of length 0 never fails, whatever the base (90_conflicts.md C10). -/
def rangeFails (cfg : Params) (a n : Nat) : Bool := decide (n ≠ 0) && decide (addrTop cfg < a + n)

/-- The number of bytes a key size names. -/
def keySizeBytes : KeySize → Nat
  | .k16 => 16
  | .k24 => 24
  | .k32 => 32

/-- KEY_SIZES membership (R6). -/
def keySizeOk (cfg : Params) (n : Nat) : Bool := cfg.keySizes.any fun k => keySizeBytes k == n

/-- NONCE_LENS membership (R6). -/
def nonceLenOk (n : Nat) : Bool := n == 8 || n == 12 || n == 16

/-- The first failing check of a list in order, if any. -/
def firstFailing : List (Bool × SubCause) → Option SubCause
  | [] => none
  | (fails, c) :: rest => if fails then some c else firstFailing rest

/-- LDKEY's validation (R124, R159): BAD_KEY_LEN, RANGE. -/
def ldkeyCheck (s : State) : Option SubCause :=
  firstFailing
    [(!keySizeOk s.cfg s.snap.klen.toNat, .badKeyLen),
     (rangeFails s.cfg s.snap.kaddr.toNat s.snap.klen.toNat, .range)]

/-- LDNONCE's validation (R103, R159): BAD_NONCE_LEN, RANGE. -/
def ldnonceCheck (s : State) : Option SubCause :=
  firstFailing
    [(!nonceLenOk s.snap.nlen.toNat, .badNonceLen),
     (rangeFails s.cfg s.snap.naddr.toNat s.snap.nlen.toNat, .range)]

/-- INCCTR's validation (R106, R159): NO_COUNTER. -/
def incctrCheck (s : State) : Option SubCause := firstFailing [(!s.ctrValid, .noCounter)]

/-- GENKS's validation (R126, R159): NO_COUNTER, NO_KEY. -/
def genksCheck (s : State) : Option SubCause :=
  firstFailing [(!s.ctrValid, .noCounter), (s.keyLen == 0, .noKey)]

/-- XORKS's validation (R127, R159): BAD_XOR_LEN, NO_KEYSTREAM, RANGE of the source, then of the destination. -/
def xorksCheck (s : State) : Option SubCause :=
  let q := s.snap.len.toNat
  firstFailing
    [(decide (q < 1) || decide (16 < q), .badXorLen),
     (!s.ksValid, .noKeystream),
     (rangeFails s.cfg s.snap.src.toNat q, .range),
     (rangeFails s.cfg s.snap.dst.toNat q, .range)]

/-- XFORM's validation (R129, R131, R159): EMPTY_MESSAGE, BAD_NONCE_LEN, BAD_KEY_LEN, RANGE. -/
def xformCheck (s : State) : Option SubCause :=
  let m := s.snap.len.toNat
  firstFailing
    [(m == 0 && !s.cfg.allowEmpty, .emptyMessage),
     (!nonceLenOk s.snap.nlen.toNat, .badNonceLen),
     (!keySizeOk s.cfg s.snap.klen.toNat, .badKeyLen),
     (rangeFails s.cfg s.snap.src.toNat m, .range),
     (rangeFails s.cfg s.snap.dst.toNat m, .range),
     (rangeFails s.cfg s.snap.naddr.toNat s.snap.nlen.toNat, .range),
     (rangeFails s.cfg s.snap.kaddr.toNat s.snap.klen.toNat, .range)]

/-- INCBUF's validation (R109, R159): RANGE. -/
def incbufCheck (s : State) : Option SubCause :=
  firstFailing [(rangeFails s.cfg s.snap.naddr.toNat s.snap.nlen.toNat, .range)]

/-- The first validation check of a command that fails, if any (R159). -/
def commandCheck : Instr → State → Option SubCause
  | .ldkey, s => ldkeyCheck s
  | .ldnonce, s => ldnonceCheck s
  | .incctr, s => incctrCheck s
  | .genks, s => genksCheck s
  | .xorks, s => xorksCheck s
  | .xform, s => xformCheck s
  | .incbuf, s => incbufCheck s

/-- What the unit is doing when a move to come is made. -/
inductive Ahead where
  | idle
  | busy
  /-- BUSY for good: its request is never answered (R193). -/
  | stuck
  deriving DecidableEq, Repr

/-- What the unit is doing now. -/
def aheadNow (s : State) : Ahead :=
  match s.phase with
  | .idle => .idle
  | .busy => if s.waiting then .stuck else .busy

/-- What the unit does once the command whose turn it is has had it: IDLE, or stuck where a request stays unanswered. -/
def aheadAfterTurn (s : State) : Ahead := if s.silentAt.isSome then .stuck else .idle

/-- The bytes the moves to come touch before the window closes: up to the STATUS read that shows BUSY = 0 (R62), or, the
model's choice (log 23), a reset. A host read counts where the byte is in `writes`, what the commands write (R63). -/
def upcomingTouches (writes : List Span) : Ahead → List Input → List Nat
  | _, [] => []
  | _, .reset :: _ => []
  | u, .hostRead off :: rest => if off = 0x04 ∧ u = .idle then [] else upcomingTouches writes u rest
  | u, .hostWrite off _ :: rest => upcomingTouches writes (if off = 0x00 ∧ u = .idle then .busy else u) rest
  | u, .unitTurn :: rest => upcomingTouches writes (if u = .busy then .idle else u) rest
  | u, .unitStall _ :: rest => upcomingTouches writes (if u = .busy then .stuck else u) rest
  | u, .memWrite a _ :: rest => a :: upcomingTouches writes u rest
  | u, .memRead a :: rest =>
    if spansHave writes a then a :: upcomingTouches writes u rest else upcomingTouches writes u rest
  | u, .hostOther _ _ :: rest => upcomingTouches writes u rest

/-- How many bytes from the end of an n-byte buffer at `a` an increment may access, where the bytes that `free` holds of read
as any value: it goes on past a byte that is, or may read as, 0xFF (R109, R110), and not past one that the port refuses, where
INCBUF stops (R109). R58 says `a suffix` only; that it ends above a refused byte is the model's reading (log 25). -/
def carryReach (cfg : Params) (m : Memory) (free : Nat → Bool) (a : Nat) : Nat → Nat
  | 0 => 0
  | n + 1 =>
    if admits cfg (a + n) then
      if free (a + n) || Memory.byteAt m (a + n) == 0xff then carryReach cfg m free a n + 1 else 1
    else 0

/-- The suffix of its buffer that an INCBUF reads and writes (R58), where the bytes that `free` holds of read as any
value (R63). -/
def incbufSuffix (free : Nat → Bool) (s : State) : Span :=
  let a := s.snap.naddr.toNat
  let n := s.snap.nlen.toNat
  let r := carryReach s.cfg s.mem free a n
  ⟨a + (n - r), r⟩

/-- Whether an INCBUF accepted now reads a byte of its buffer as any value: raced earlier in the open window, or to be raced
before it closes (R63). An INCBUF writes every byte it reads, so a host read races too. -/
def incbufRaced (s : State) (a : Nat) : Bool :=
  s.touched.contains a ||
    (upcomingTouches [⟨s.snap.naddr.toNat, s.snap.nlen.toNat⟩] .busy s.inputs).contains a

/-- The spans a command reads (R58), for one that passes its validation; `free` is what INCBUF reads as any value. -/
def nominalReads (free : Nat → Bool) (i : Instr) (s : State) : List Span :=
  let o := s.snap
  match i with
  | .ldkey => [⟨o.kaddr.toNat, o.klen.toNat⟩]
  | .ldnonce => [⟨o.naddr.toNat, o.nlen.toNat⟩]
  | .incctr => []
  | .genks => []
  | .xorks => [⟨o.src.toNat, o.len.toNat⟩]
  | .xform => [⟨o.kaddr.toNat, o.klen.toNat⟩, ⟨o.naddr.toNat, o.nlen.toNat⟩, ⟨o.src.toNat, o.len.toNat⟩]
  | .incbuf => [incbufSuffix free s]

/-- The spans a command writes (R58), for one that passes its validation; `free` is what INCBUF reads as any value. -/
def nominalWrites (free : Nat → Bool) (i : Instr) (s : State) : List Span :=
  let o := s.snap
  match i with
  | .ldkey => []
  | .ldnonce => []
  | .incctr => []
  | .genks => []
  | .xorks => [⟨o.dst.toNat, o.len.toNat⟩]
  | .xform => [⟨o.dst.toNat, o.len.toNat⟩]
  | .incbuf => [incbufSuffix free s]

/-- The command a word in SEQ stands for, if it is one that passes its validation; any other performs no memory event
(R58, R156). -/
def runningCommand (w : Word) (s : State) : Option Instr :=
  match decode w with
  | .error _ => none
  | .ok i => if commandCheck i s = none then some i else none

/-- What a command in `w` accepted now reads (R58). -/
def footprintReads (w : Word) (s : State) : List Span :=
  match runningCommand w s with
  | some i => nominalReads (incbufRaced s) i s
  | none => []

/-- What a command in `w` accepted now writes (R58). -/
def footprintWrites (w : Word) (s : State) : List Span :=
  match runningCommand w s with
  | some i => nominalWrites (incbufRaced s) i s
  | none => []

/-- Whether the footprint of the command in `w` meets a device region (R59). -/
def meetsDevice (w : Word) (s : State) : Bool :=
  s.cfg.devices.any fun d => (footprintReads w s ++ footprintWrites w s).any (spanMeets d)

end Sys2Proof.Machine
end

