-- ==== Sys2Proof/Machine/Ops.lean ====
section
/-! DEFINITION. The shared operations of the commands: the run of a command that may end in an error, the memory and cipher
ports with their events, acceptance (R44), the completion record (R155), which is the unit's exception entry, and reset
(R180). -/

namespace Sys2Proof.Machine

/-- A command part-way: it goes on with a value, it has raised an error (R9), or it waits for an answer that never comes
(R193); in each case, the state it has reached. -/
inductive Run (α : Type) where
  | ok (a : α) (s : State)
  | raise (e : CmdError) (s : State)
  | wait (s : State)

/-- What follows runs only if no error was raised (R9: no later statement of the command runs) and the unit does not wait. -/
def Run.bind {α β : Type} (r : Run α) (f : α → State → Run β) : Run β :=
  match r with
  | .ok a s => f a s
  | .raise e s => .raise e s
  | .wait s => .wait s

/-- The state a run has reached. -/
def Run.state {α : Type} (r : Run α) : State :=
  match r with
  | .ok _ s => s
  | .raise _ s => s
  | .wait s => s

/-- Runs `body` if the validation found nothing wrong, else raises InvalidArgument with the sub-cause (R151, R156). -/
def validated (check : Option SubCause) (body : State → Run Unit) (s : State) : Run Unit :=
  match check with
  | some c => .raise (.invalid c) s
  | none => body s

/-- Whether the open window holds a race on a byte, the host's moves up to its end counted; `u` is what the unit is doing at
this point (R62, R63). -/
def racedFrom (u : Ahead) (s : State) (a : Nat) : Bool :=
  s.touched.contains a || (upcomingTouches s.fpWrites u s.inputs).contains a

/-- Whether the host races on a byte with the command whose turn it is (R63). -/
def raced (s : State) (a : Nat) : Bool := racedFrom (aheadAfterTurn s) s a

/-- Whether the next request is answered (R193). -/
def answersNext (s : State) : Bool :=
  match s.silentAt with
  | none => true
  | some l => decide (s.trace.length < l)

/-- `MemRead(a, 1)` (R9, R52): never answered (R193), refused with BusError, or the byte at `a`; a racing byte reads as any
value (R63). -/
def unitRead (a : Nat) (s : State) : Run Byte :=
  if answersNext s then
    if admits s.cfg a then
      if raced s a then
        let v := Config.freeByte s.draws
        .ok v { s with trace := s.trace ++ [.read a v], draws := s.draws + 1 }
      else
        let v := s.mem.byteAt a
        .ok v { s with trace := s.trace ++ [.read a v] }
    else .raise (.bus a) s
  else .wait s

/-- `MemWrite(a, 1, v)` (R9, R52): never answered (R193), refused with BusError, or the byte at `a` becomes `v`; a racing byte
becomes any value (R63). That a write never answered leaves its byte as it was is the model's choice (log 26). -/
def unitWrite (a : Nat) (v : Byte) (s : State) : Run Unit :=
  if answersNext s then
    if admits s.cfg a then
      if raced s a then
        let f := Config.freeByte s.draws
        .ok () { s with mem := s.mem.setByte a f, trace := s.trace ++ [.write a f], draws := s.draws + 1 }
      else .ok () { s with mem := s.mem.setByte a v, trace := s.trace ++ [.write a v] }
    else .raise (.bus a) s
  else .wait s

/-- Reads n bytes at a, a+1, ... in increasing address order (R103, R124, R127). -/
def readBytes (a : Nat) : Nat → State → Run (List Byte)
  | 0, s => .ok [] s
  | n + 1, s =>
    (unitRead a s).bind fun b s => (readBytes (a + 1) n s).bind fun bs s => .ok (b :: bs) s

/-- Writes bytes at a, a+1, ... in increasing address order (R127). -/
def writeBytes (a : Nat) : List Byte → State → Run Unit
  | [], s => .ok () s
  | b :: bs, s => (unitWrite a b s).bind fun _ s => writeBytes (a + 1) bs s

/-- The key the cipher receives: KEY[0..KEY_LEN-1] (R28). -/
def loadedKey (s : State) : List Byte := s.key.toList.take s.keyLen

/-- SEQ with nothing specified about it (R23): free values (log 2). -/
def seqUnspecified (n : Nat) : Seq :=
  ⟨Config.freeWord n, Config.freeNat n, Config.freeNat (n + 1), Config.freeNat (n + 2)⟩

/-- The end of a command: PHASE <- IDLE, BUSY <- 0, DONE <- 1 (R155); SEQ is unspecified from here on (R23). -/
def State.ended (s : State) : State :=
  { s with phase := .idle, done := true, seq := seqUnspecified s.draws, waiting := false, draws := s.draws + 3 }

/-- `complete`: the completion record with code NONE (R155). -/
def State.completed (s : State) : State := { s.ended with err := .none, sub := .none }

/-- `raise E`: the completion record of an error (R155), the one way a command's exception is taken. -/
def State.raised (s : State) : CmdError → State
  | .invalid c => { s.ended with err := .invalidArgument, sub := c }
  | .cipher w => { s.ended with err := .cipherError, sub := .none, cerr := w }
  | .bus a => { s.ended with err := .busError, sub := .none, erraddr := BitVec.ofNat 32 a }
  | .illegal => { s.ended with err := .illegalCommand, sub := .none }

/-- A command whose request is never answered: BUSY stays 1, and what it has done so far stays done (R193, U7). -/
def State.stalled (s : State) : State := { s with waiting := true }

/-- Every accepted command ends in exactly one completion (R155), unless a port never answers (R193). -/
def finish (r : Run Unit) : State :=
  match r with
  | .ok _ s => s.completed
  | .raise e s => s.raised e
  | .wait s => s.stalled

/-- A command word that decodes to nothing (R73, R154). -/
def illegalCommand (s : State) : State := finish (.raise .illegal s)

/-- SEQ at acceptance (R31): nblk, fixed from LEN (R132), and block 0 for XFORM, the last byte's index for INCBUF. That an index
is 0 where there is none, with no block, no byte or another command, is the model's choice (log 2). -/
def startSeq (w : Word) (o : Operands) : Seq :=
  { word := w
    blk := 0
    nblk := if w = encode .xform then blockCount o.len.toNat else 0
    idx := if w = encode .incbuf then o.nlen.toNat - 1 else 0 }

/-- Command acceptance (R44), with the command's footprint added to the open window (R62). -/
def accept (w : Word) (s : State) : State :=
  let t :=
    { s with
      cmd := w
      phase := .busy
      done := false
      err := .none
      sub := .none
      cerr := 0
      erraddr := 0
      snap := s.ops
      seq := startSeq w s.ops
      waiting := false }
  { t with
    fpReads := t.fpReads ++ footprintReads w t
    fpWrites := t.fpWrites ++ footprintWrites w t }

/-- The window closes: the host has seen the completion (R62). -/
def State.synced (s : State) : State := { s with fpReads := [], fpWrites := [], touched := [] }

/-- Reset (R180): every register at its reset value, SEQ unspecified; no byte of memory changes. That the window of R62 and
R63 ends with it is the model's choice (log 23). -/
def resetRegisters (s : State) : State :=
  { s with
    cmd := 0
    ops := Operands.zero
    blkcnt := 0
    cerr := 0
    erraddr := 0
    done := false
    overrun := false
    err := .none
    sub := .none
    key := padTo 32 []
    keyLen := 0
    ctr := zeroBlock
    ctrValid := false
    ks := zeroBlock
    ksValid := false
    phase := .idle
    seq := seqUnspecified s.draws
    waiting := false
    snap := Operands.zero
    fpReads := []
    fpWrites := []
    touched := []
    draws := s.draws + 3 }

end Sys2Proof.Machine
end

