-- ==== Sys2Proof/Machine/Counter.lean ====
section
/-! DEFINITION. The counter manager's commands: LDNONCE, INCCTR, INCBUF (40_counter.md). -/

namespace Sys2Proof.Machine

/-- The nonce load, shared by LDNONCE and XFORM (R103, R131): all bytes are read before any register changes. -/
def loadNonce (s : State) : Run Unit :=
  (readBytes s.snap.naddr.toNat s.snap.nlen.toNat s).bind fun t s =>
    .ok () { s with ctr := initCounter t, ctrValid := true, ks := zeroBlock, ksValid := false }

/-- LDNONCE up to its completion (R103). -/
def runLdnonce (s : State) : Run Unit := validated (ldnonceCheck s) loadNonce s

/-- LDNONCE: load the counter from a nonce (R103). -/
def execLdnonce (s : State) : Host.Outcome State Fault Refusal := .next (finish (runLdnonce s))

/-- INCCTR up to its completion (R106). -/
def runIncctr (s : State) : Run Unit := validated (incctrCheck s) (fun s => .ok () { s with ctr := inc128 s.ctr }) s

/-- INCCTR: increment the counter register (R106). -/
def execIncctr (s : State) : Host.Outcome State Fault Refusal := .next (finish (runIncctr s))

/-- SEQ's byte index (R31). -/
def State.atByte (s : State) (i : Nat) : State := { s with seq := { s.seq with idx := i } }

/-- INCBUF's loop over i = n-1 downto 0 (R109): read, add one, write, stop at the first byte that does not wrap. -/
def incbufLoop (a : Nat) : Nat → State → Run Unit
  | 0, s => .ok () s
  | i + 1, s =>
    (unitRead (a + i) (s.atByte i)).bind fun b s =>
      (unitWrite (a + i) (b + 1) s).bind fun _ s => if b + 1 = 0 then incbufLoop a i s else .ok () s

/-- INCBUF up to its completion (R109). -/
def runIncbuf (s : State) : Run Unit :=
  validated (incbufCheck s) (incbufLoop s.snap.naddr.toNat s.snap.nlen.toNat) s

/-- INCBUF: increment a memory buffer in place (R109). -/
def execIncbuf (s : State) : Host.Outcome State Fault Refusal := .next (finish (runIncbuf s))

end Sys2Proof.Machine
end

