-- ==== Sys2Proof/Machine/Keystream.lean ====
section
/-! DEFINITION. The keystream engine's commands: LDKEY, GENKS, XORKS, XFORM (41_keystream.md). What calls the cipher takes
the cipher port as an argument; the machine's commands pass Config.cipherPort. -/

namespace Sys2Proof.Machine

/-- The key load, shared by LDKEY and XFORM (R124, R131): all bytes are read before any register changes. -/
def loadKey (s : State) : Run Unit :=
  (readBytes s.snap.kaddr.toNat s.snap.klen.toNat s).bind fun k s' =>
    .ok () { s' with key := padTo 32 k, keyLen := s.snap.klen.toNat, ks := zeroBlock, ksValid := false }

/-- LDKEY up to its completion (R124). -/
def runLdkey (s : State) : Run Unit := validated (ldkeyCheck s) loadKey s

/-- LDKEY: load the key (R124). -/
def execLdkey (s : State) : Host.Outcome State Fault Refusal := .next (finish (runLdkey s))

/-- One keystream block (R120, R126): encrypt CTR under the key into KS, then increment CTR; an error of the cipher leaves
both, and so does a request the cipher never answers (R193). KS_VALID is the caller's. -/
def genBlock (C : CipherPort) (s : State) : Run Unit :=
  if answersNext s then
    let t := { s with trace := s.trace ++ [.cipher (loadedKey s) s.ctr] }
    match C.encrypt (loadedKey s) s.ctr with
    | .err e => .raise (.cipher (C.encode e)) t
    | .ok c => .ok () { t with ks := c, ctr := inc128 s.ctr }
  else .wait s

/-- GENKS up to its completion (R126). -/
def runGenks (C : CipherPort) (s : State) : Run Unit :=
  validated (genksCheck s) (fun s => (genBlock C s).bind fun _ s => .ok () { s with ksValid := true }) s

/-- GENKS: make one keystream block (R126). -/
def execGenks (s : State) : Host.Outcome State Fault Refusal := .next (finish (runGenks Config.cipherPort s))

/-- XOR of q message bytes with KS (R127, R128): all reads, then all writes. -/
def xorBlock (src dst q : Nat) (s : State) : Run Unit :=
  (readBytes src q s).bind fun x s => writeBytes dst (xorBytes x s.ks.toList) s

/-- XORKS up to its completion (R127). -/
def runXorks (s : State) : Run Unit :=
  validated (xorksCheck s) (fun s => xorBlock s.snap.src.toNat s.snap.dst.toNat s.snap.len.toNat s) s

/-- XORKS: combine up to 16 message bytes with the keystream block (R127). -/
def execXorks (s : State) : Host.Outcome State Fault Refusal := .next (finish (runXorks s))

/-- SEQ's block index (R31). -/
def State.atBlock (s : State) (j : Nat) : State := { s with seq := { s.seq with blk := j } }

/-- Block j of XFORM (R131): a cipher call, the increment, then the block's reads and its writes. -/
def xformBlock (C : CipherPort) (src dst m j : Nat) (s : State) : Run Unit :=
  (genBlock C (s.atBlock j)).bind fun _ s =>
    xorBlock (src + 16 * j) (dst + 16 * j) (blockBytes m j) s

/-- `KS <- 0^16 ; KS_VALID <- 0` with BLKCNT set: the end of XFORM, and its abort (R131). -/
def State.keystreamDropped (s : State) (blocks : Nat) : State :=
  { s with blkcnt := BitVec.ofNat 32 blocks, ks := zeroBlock, ksValid := false }

/-- XFORM's loop from block j on, `left` blocks to go (R131, R132); an error at block j is abort(j, E). -/
def xformLoop (C : CipherPort) (src dst m : Nat) : Nat → Nat → State → Run Unit
  | 0, _, s => .ok () s
  | left + 1, j, s =>
    match xformBlock C src dst m j s with
    | .raise e s => .raise e (s.keystreamDropped j)
    | .wait s => .wait s
    | .ok _ s => xformLoop C src dst m left (j + 1) s

/-- What XFORM does once its validation has passed: `nblk <- ceil(m/16) ; BLKCNT <- 0` (R131). -/
def State.xformStarted (s : State) (nblk : Nat) : State := { s with blkcnt := 0, seq := { s.seq with nblk := nblk } }

/-- XFORM after its validation (R131): BLKCNT <- 0, key load, nonce load, the loop, BLKCNT <- nblk. -/
def xformBody (C : CipherPort) (s : State) : Run Unit :=
  let m := s.snap.len.toNat
  let n := blockCount m
  (loadKey (s.xformStarted n)).bind fun _ s =>
    (loadNonce s).bind fun _ s =>
      (xformLoop C s.snap.src.toNat s.snap.dst.toNat m n 0 s).bind fun _ s => .ok () (s.keystreamDropped n)

/-- XFORM up to its completion (R131). -/
def runXform (C : CipherPort) (s : State) : Run Unit := validated (xformCheck s) (xformBody C) s

/-- XFORM: the whole Transform (R131). -/
def execXform (s : State) : Host.Outcome State Fault Refusal := .next (finish (runXform Config.cipherPort s))

end Sys2Proof.Machine
end

