-- ==== Sys2Proof/Machine/Dispatch.lean ====
section
/-! DEFINITION. One arm per command: the meaning of each. -/

namespace Sys2Proof.Machine

def exec (i : Instr) (s : State) : Host.Outcome State Fault Refusal :=
  match i with
  | .ldkey => Sys2Proof.Machine.execLdkey s
  | .ldnonce => Sys2Proof.Machine.execLdnonce s
  | .incctr => Sys2Proof.Machine.execIncctr s
  | .genks => Sys2Proof.Machine.execGenks s
  | .xorks => Sys2Proof.Machine.execXorks s
  | .xform => Sys2Proof.Machine.execXform s
  | .incbuf => Sys2Proof.Machine.execIncbuf s

end Sys2Proof.Machine
end

