-- ==== Sys2Proof/Machine/HostPort.lean ====
section
/-! DEFINITION. The host's side: the register window (R21, R22, R34, R37, R41 to R43), the host's own accesses to data memory
and their races (R62, R63), and the reset input (R180, R181). -/

namespace Sys2Proof.Machine

/-- The register names (R77). -/
inductive Reg where
  | cmd
  | status
  | src
  | dst
  | len
  | naddr
  | nlen
  | kaddr
  | klen
  | blkcnt
  | cerr
  | erraddr
  | ctr0
  | ctr1
  | ctr2
  | ctr3
  deriving DecidableEq, Repr

/-- The offset of a register in the window (R22). -/
def regOffset : Reg → Nat
  | .cmd => 0x00
  | .status => 0x04
  | .src => 0x08
  | .dst => 0x0C
  | .len => 0x10
  | .naddr => 0x14
  | .nlen => 0x18
  | .kaddr => 0x1C
  | .klen => 0x20
  | .blkcnt => 0x24
  | .cerr => 0x28
  | .erraddr => 0x2C
  | .ctr0 => 0x30
  | .ctr1 => 0x34
  | .ctr2 => 0x38
  | .ctr3 => 0x3C

/-- Every register, by offset. -/
def allRegs : List Reg :=
  [.cmd, .status, .src, .dst, .len, .naddr, .nlen, .kaddr, .klen, .blkcnt, .cerr, .erraddr, .ctr0, .ctr1, .ctr2, .ctr3]

/-- The register at an offset; none where the window is unmapped (R22, R42). -/
def regAt (off : Nat) : Option Reg := allRegs.find? fun r => regOffset r == off

/-- An aligned offset inside the 0x100-byte window (R21); any other access is refused (R54). -/
def offsetOk (off : Nat) : Bool := off % 4 == 0 && decide (off < 0x100)

/-- Whether a register is an operand register (R30). -/
def isOperand : Reg → Bool
  | .src | .dst | .len | .naddr | .nlen | .kaddr | .klen => true
  | .cmd | .status | .blkcnt | .cerr | .erraddr | .ctr0 | .ctr1 | .ctr2 | .ctr3 => false

/-- Whether a register's value is unspecified while BUSY (R43). STATUS is so only in part. -/
def isResult : Reg → Bool
  | .blkcnt | .cerr | .erraddr | .ctr0 | .ctr1 | .ctr2 | .ctr3 => true
  | .cmd | .status | .src | .dst | .len | .naddr | .nlen | .kaddr | .klen => false

/-- The value of a register (R22, R27, R32). -/
def regValue (r : Reg) (s : State) : Word :=
  match r with
  | .cmd => s.cmd
  | .status => statusWord s
  | .src => s.ops.src
  | .dst => s.ops.dst
  | .len => s.ops.len
  | .naddr => s.ops.naddr
  | .nlen => s.ops.nlen
  | .kaddr => s.ops.kaddr
  | .klen => s.ops.klen
  | .blkcnt => s.blkcnt
  | .cerr => s.cerr
  | .erraddr => s.erraddr
  | .ctr0 => counterWord s.ctr 0
  | .ctr1 => counterWord s.ctr 1
  | .ctr2 => counterWord s.ctr 2
  | .ctr3 => counterWord s.ctr 3

/-- Sets one operand register (R41); any other name changes nothing. -/
def setOperand (r : Reg) (v : Word) (o : Operands) : Operands :=
  match r with
  | .src => { o with src := v }
  | .dst => { o with dst := v }
  | .len => { o with len := v }
  | .naddr => { o with naddr := v }
  | .nlen => { o with nlen := v }
  | .kaddr => { o with kaddr := v }
  | .klen => { o with klen := v }
  | .cmd | .status | .blkcnt | .cerr | .erraddr | .ctr0 | .ctr1 | .ctr2 | .ctr3 => o

/-- A CMD write while BUSY = 0 accepts the word, whatever it is (R37); a launch whose footprint meets a device region has no
meaning (R59). That R191's `refused launch` means no other launch is the model's reading (log 28). -/
def launch (w : Word) (s : State) : Host.Outcome State Fault Refusal :=
  if meetsDevice w { s with snap := s.ops } then .refused (.deviceFootprint w) else .next (accept w s)

/-- HostWrite (R9): CMD and operand writes while BUSY set OVERRUN and do nothing else (R34); STATUS takes its write-1-to-clear
bit at any time (R32); read-only and unmapped offsets ignore the write (R42). -/
def hostWrite (off : Nat) (v : Word) (s : State) : Host.Outcome State Fault Refusal :=
  if offsetOk off then
    match regAt off with
    | none => .next s
    | some .status => .next (writeStatus v s)
    | some .cmd => if isBusy s then .next { s with overrun := true } else launch v s
    | some r =>
      if isOperand r then
        if isBusy s then .next { s with overrun := true } else .next { s with ops := setOperand r v s.ops }
      else .next s
  else .refused (.registerAccess off)

/-- HostRead (R9): while BUSY the result registers read as any value and STATUS in part (R43); a STATUS read that shows
BUSY = 0 closes the window (R62); unmapped offsets read 0 (R42). That a result register reads exactly from the completion on,
before a STATUS read has shown BUSY = 0 (R43, R187), is the model's choice (log 24). -/
def hostRead (off : Nat) (s : State) : Host.Outcome State Fault Refusal :=
  if offsetOk off then
    match regAt off with
    | none => .next { s with hostData := 0 }
    | some .status =>
      if isBusy s then
        .next { s with hostData := statusWhileBusy s (Config.freeWord s.draws), draws := s.draws + 1 }
      else .next { s.synced with hostData := statusWord s }
    | some r =>
      if isBusy s && isResult r then
        .next { s with hostData := Config.freeWord s.draws, draws := s.draws + 1 }
      else .next { s with hostData := regValue r s }
  else .refused (.registerAccess off)

/-- A register access of another width (R54). -/
def hostOther (off _bits : Nat) (_s : State) : Host.Outcome State Fault Refusal := .refused (.registerAccess off)

/-- Records a footprint byte of the open window on which the host races (R63). -/
def State.touch (s : State) (a : Nat) : State := { s with touched := a :: s.touched }

/-- A host write of a data byte (R51): on the open window's footprint it is a race and the byte becomes any value (R63). That a
byte of a device region is an ordinary byte to the host is the model's choice (log 27). -/
def hostMemWrite (a : Nat) (v : Byte) (s : State) : Host.Outcome State Fault Refusal :=
  if a < addrTop s.cfg then
    if spansHave s.fpReads a || spansHave s.fpWrites a then
      .next { s.touch a with mem := s.mem.setByte a (Config.freeByte s.draws), draws := s.draws + 1 }
    else .next { s with mem := s.mem.setByte a v }
  else .fault (.noSuchAddress a)

/-- A host read of a data byte (R51): of a byte the open window's commands write it is a race, the read returns any value and
the byte becomes any value; of a byte they read and the host writes in the window, before or after, the read returns any value
(R63). That a byte of a device region is an ordinary byte to the host is the model's choice (log 27). -/
def hostMemRead (a : Nat) (s : State) : Host.Outcome State Fault Refusal :=
  if a < addrTop s.cfg then
    if spansHave s.fpWrites a then
      .next
        { s.touch a with
          hostData := (Config.freeByte s.draws).setWidth 32
          mem := s.mem.setByte a (Config.freeByte (s.draws + 1))
          draws := s.draws + 2 }
    else if spansHave s.fpReads a && racedFrom (aheadNow s) s a then
      .next { s with hostData := (Config.freeByte s.draws).setWidth 32, draws := s.draws + 1 }
    else .next { s with hostData := (s.mem.byteAt a).setWidth 32 }
  else .fault (.noSuchAddress a)

/-- The memory after some port events: the writes among them, in order (R55). -/
def replayWrites (m : Memory) : List Event → Memory
  | [] => m
  | .write a v :: es => replayWrites (m.setByte a v) es
  | .read _ _ :: es => replayWrites m es
  | .cipher _ _ :: es => replayWrites m es

/-- The reset input (R180, R181). `o` is what the command in progress would have done, with no host move after the reset: some
prefix of its events happened, the rest did not. -/
def resetNow (o : Host.Outcome State Fault Refusal) (s : State) : State :=
  match o with
  | .next t =>
    let events := t.trace.drop s.trace.length
    let kept := events.take (Config.freeNat t.draws % (events.length + 1))
    resetRegisters { s with mem := replayWrites s.mem kept, trace := s.trace ++ kept, draws := t.draws + 1 }
  | .fault _ => resetRegisters s
  | .refused _ => resetRegisters s

end Sys2Proof.Machine
end

