-- ==== Sys2Proof/Machine/Sequencer.lean ====
section
/-! DEFINITION. One move of the machine: the unit's turn, which runs the accepted command (R31, R72), and the host's moves. -/

namespace Sys2Proof.Machine

/-- What the unit does with its turn. IDLE: nothing wakes the unit but a CMD write (R168). BUSY: the accepted word is decoded
(R72) and its command runs in this one step (log 5, 22), or the word completes with IllegalCommand (R154). -/
def runAccepted (s : State) : Host.Outcome State Fault Refusal :=
  match s.phase with
  | .idle => .next s
  | .busy =>
    match decode s.seq.word with
    | .error _ => .next (illegalCommand s)
    | .ok i => exec i s

/-- The unit's turn (R20): a command waiting for an answer that never comes stays BUSY (R193, U7). -/
def unitTurn (s : State) : Host.Outcome State Fault Refusal := if s.waiting then .next s else runAccepted s

/-- The unit's turn, its request number k never answered (R193): the command runs up to it and waits. A move that names a
request the command does not make cannot happen, and is refused (log 9). -/
def unitStall (k : Nat) (s : State) : Host.Outcome State Fault Refusal :=
  match unitTurn { s with silentAt := some (s.trace.length + k) } with
  | .next t => if t.waiting then .next { t with silentAt := none } else .refused (.noSuchRequest k)
  | .fault f => .fault f
  | .refused r => .refused r

/-- One move (R20). -/
def move (x : Input) (s : State) : Host.Outcome State Fault Refusal :=
  match x with
  | .hostWrite off v => hostWrite off v s
  | .hostRead off => hostRead off s
  | .hostOther off bits => hostOther off bits s
  | .memWrite a v => hostMemWrite a v s
  | .memRead a => hostMemRead a s
  | .unitTurn => unitTurn s
  | .unitStall k => unitStall k s
  | .reset => .next (resetNow (unitTurn { s with inputs := [] }) s)

/-- The machine as it stands when the host has just written a command word: accepted (R44), no other move pending. -/
def launched (w : Word) (s : State) : State := accept w { s with inputs := [] }

end Sys2Proof.Machine
end

