-- ==== Sys2Proof/Machine/Step.lean ====
section
/-! DEFINITION. The step: the next pending move, or the unit's turn when none is pending. -/

namespace Sys2Proof.Machine

/-- One step. With no move pending a BUSY unit completes (R193) and an IDLE one waits. -/
def step (s : State) : Host.Outcome State Fault Refusal :=
  match s.inputs with
  | [] => unitTurn s
  | x :: rest => move x { s with inputs := rest }

/-- The state in which the host has just delivered the command word `w` (bits from `nbits` up are 0), so that the very next
step runs it (log 6). -/
def State.withFetchWord (s : State) (nbits w : Nat) : State := launched (BitVec.ofNat 32 (w % 2 ^ nbits)) s

end Sys2Proof.Machine
end

