-- ==== Sys2Proof/Machine/Assembler.lean ====
section
/-! DEFINITION. The host syntax and its pseudo-instructions as lists of moves (R76, R77, R78), and the register window on the
host bus (R50, R60). -/

namespace Sys2Proof.Machine

/-- The source's API names (R78). -/
inductive ApiName where
  | encrypt
  | decrypt
  | transform
  | incNonce
  | incCounter
  deriving DecidableEq, Repr

/-- The command an API name stands for (R12, R78, R108). -/
def apiCommand : ApiName → Instr
  | .encrypt => .xform
  | .decrypt => .xform
  | .transform => .xform
  | .incNonce => .incbuf
  | .incCounter => .incbuf

/-- A line of a host program (R76, R78). `polls` is how many STATUS reads of a poll still see BUSY = 1. -/
inductive Line where
  | wr (r : Reg) (v : Word)
  | rd (r : Reg)
  | cmd (i : Instr)
  | cmdApi (n : ApiName)
  | cmdw (v : Word)
  | poll (polls : Nat)
  | w1c
  | mem (a : Nat) (bs : List Byte)
  | run (i : Instr) (polls : Nat)
  | transform (o : Operands) (polls : Nat)
  deriving DecidableEq, Repr

/-- `mem a: hex`: one host memory write a byte (R76). -/
def memLines (a : Nat) : List Byte → List Input
  | [] => []
  | b :: bs => .memWrite a b :: memLines (a + 1) bs

/-- `poll` (R76): STATUS reads until one shows BUSY = 0. -/
def pollMoves (polls : Nat) : List Input :=
  List.replicate polls (.hostRead (regOffset .status)) ++ [.unitTurn, .hostRead (regOffset .status)]

/-- `cmd MNEMONIC` (R76). -/
def cmdMove (i : Instr) : Input := .hostWrite (regOffset .cmd) (encode i)

/-- The bus operations of a line (R76, R78). -/
def lineMoves : Line → List Input
  | .wr r v => [.hostWrite (regOffset r) v]
  | .rd r => [.hostRead (regOffset r)]
  | .cmd i => [cmdMove i]
  | .cmdApi n => [cmdMove (apiCommand n)]
  | .cmdw v => [.hostWrite (regOffset .cmd) v]
  | .poll polls => pollMoves polls
  | .w1c => [.hostWrite (regOffset .status) 0x4]
  | .mem a bs => memLines a bs
  | .run i polls => cmdMove i :: pollMoves polls
  | .transform o polls =>
    [.hostWrite (regOffset .src) o.src, .hostWrite (regOffset .dst) o.dst, .hostWrite (regOffset .len) o.len,
      .hostWrite (regOffset .naddr) o.naddr, .hostWrite (regOffset .nlen) o.nlen,
      .hostWrite (regOffset .kaddr) o.kaddr, .hostWrite (regOffset .klen) o.klen, cmdMove .xform]
      ++ pollMoves polls

/-- The offset of a host-bus address in the register window, 0x100 bytes at UNIT_BASE (R50, R60); none outside it. -/
def windowOffset (a : Nat) : Option Nat :=
  if Config.unitBase ≤ a ∧ a < Config.unitBase + 0x100 then some (a - Config.unitBase) else none

/-- The move of a 32-bit bus write in the window; a write elsewhere does not reach the unit (R50). -/
def busWrite (a : Nat) (v : Word) : Option Input := (windowOffset a).map (.hostWrite · v)

/-- The move of a 32-bit bus read in the window; a read elsewhere does not reach the unit (R50). -/
def busRead (a : Nat) : Option Input := (windowOffset a).map .hostRead

end Sys2Proof.Machine
end

