-- ==== Sys2Proof/Safety.lean ====
section
/-! DEFINITION. The terms claims use: the machine's invariant, when a command is free of races and of refused accesses, the
keystream of R123, and what it does to memory. -/

namespace Sys2Proof.Machine

/-- The host races on no byte of a range (R63, R188). -/
def unraced (s : State) (a n : Nat) : Prop := ∀ i < n, raced s (a + i) = false

/-- No race on the footprint of a command (R58, R63). -/
def raceFree (i : Instr) (s : State) : Prop :=
  ∀ a, spansHave (nominalReads (fun _ => false) i s ++ nominalWrites (fun _ => false) i s) a = true → raced s a = false

/-- The ports answer the next n requests, accesses and cipher calls together (R193). -/
def answered (s : State) (n : Nat) : Prop := ∀ l, s.silentAt = some l → s.trace.length + n ≤ l

/-- The memory port admits every byte of a range (R52). -/
def admitsRange (cfg : Params) (a n : Nat) : Prop := ∀ i < n, admits cfg (a + i) = true

/-- The events of n reads at rising addresses (R55). -/
def readEvents (m : Memory) (a n : Nat) : List Event :=
  (List.range n).map fun i => .read (a + i) (m.byteAt (a + i))

/-- The events of writing bytes at rising addresses (R55). -/
def writeEvents (a : Nat) (bs : List Byte) : List Event :=
  bs.zipIdx.map fun p => .write (a + p.2) p.1

/-- The number of trailing 0xFF bytes of a sequence (R110). -/
def trailingFF (bs : List Byte) : Nat := (bs.reverse.takeWhile (· == 0xff)).length

/-- `be_16(v mod 2^128)` as a counter block (R123). -/
def counterBlock (v : Nat) : Block := padTo 16 (beBytes 16 (v % 2 ^ 128))

/-- The first n keystream blocks from counter value v on (R123), up to the cipher's first error if it gives one. -/
def keystream (C : CipherPort) (k : List Byte) : Nat → Nat → List Block × Option CipherErr
  | _, 0 => ([], none)
  | v, n + 1 =>
    match C.encrypt k (counterBlock v) with
    | .err e => ([], some e)
    | .ok b =>
      let rest := keystream C k (v + 1) n
      (b :: rest.1, rest.2)

/-- The memory after the blocks from j on of an m-byte message, one keystream block each, in ascending order: per block its
source bytes are read, then its destination bytes written (R69, R131). -/
def applyBlocks (src dst m : Nat) : List Block → Nat → Memory → Memory
  | [], _, mem => mem
  | b :: bs, j, mem =>
    applyBlocks src dst m bs (j + 1)
      (mem.setBytes (dst + 16 * j) (xorBytes (mem.bytes (src + 16 * j) (blockBytes m j)) b.toList))

/-- The port events of those blocks (R55, R131): per block the cipher call on its counter value, the reads, the writes. -/
def blockEvents (k : List Byte) (src dst m : Nat) : Nat → List Block → Nat → Memory → List Event
  | _, [], _, _ => []
  | v, b :: bs, j, mem =>
    let out := xorBytes (mem.bytes (src + 16 * j) (blockBytes m j)) b.toList
    .cipher k (counterBlock v) :: readEvents mem (src + 16 * j) (blockBytes m j)
      ++ writeEvents (dst + 16 * j) out
      ++ blockEvents k src dst m (v + 1) bs (j + 1) (mem.setBytes (dst + 16 * j) out)

/-- The key bytes an LDKEY or XFORM loads (R131). -/
def keyBytes (s : State) : List Byte := s.mem.bytes s.snap.kaddr.toNat s.snap.klen.toNat

/-- The nonce bytes an LDNONCE or XFORM loads (R131). -/
def nonceBytes (s : State) : List Byte := s.mem.bytes s.snap.naddr.toNat s.snap.nlen.toNat

/-- The counter value an XFORM or LDNONCE starts from: val_be(InitCounter(nonce)) (R123). -/
def firstCounter (s : State) : Nat := valBe (initCounter (nonceBytes s)).toList

/-- The keystream blocks of the XFORM whose operands are in the snapshot (R123). -/
def xformKeystream (C : CipherPort) (s : State) : List Block × Option CipherErr :=
  keystream C (keyBytes s) (firstCounter s) (blockCount s.snap.len.toNat)

/-- The cipher call that failed, if one did, after the blocks that did not (R131). -/
def failedCall (k : List Byte) (v : Nat) (ks : List Block × Option CipherErr) : List Event :=
  match ks.2 with
  | none => []
  | some _ => [.cipher k (counterBlock (v + ks.1.length))]

/-- How XFORM's loop ends: complete, or CipherError with CERR_ENC of the cipher's error (R131, R153). -/
def State.cipherEnd (s : State) (C : CipherPort) (e : Option CipherErr) : State :=
  match e with
  | none => s.completed
  | some e => s.raised (.cipher (C.encode e))

/-- The keystream bytes of a list of blocks: their concatenation (R123). -/
def keystreamBytes (bs : List Block) : List Byte := bs.flatMap Vector.toList

/-- DST equal to SRC, or the two message ranges disjoint (R68, R133). -/
def inPlaceOrDisjoint (src dst m : Nat) : Prop := src = dst ∨ src + m ≤ dst ∨ dst + m ≤ src

/-- An instruction executed k times in a row (R107). -/
def execTimes (i : Instr) : Nat → State → Host.Outcome State Fault Refusal
  | 0, s => .next s
  | k + 1, s =>
    match exec i s with
    | .next t => execTimes i k t
    | .fault f => .fault f
    | .refused r => .refused r

/-- The snapshot with the operands of block j of an XFORM for XORKS: SRC = s+16j, DST = d+16j, LEN = q_j (R136). -/
def blockOperands (o : Operands) (j : Nat) : Operands :=
  { o with
    src := BitVec.ofNat 32 (o.src.toNat + 16 * j)
    dst := BitVec.ofNat 32 (o.dst.toNat + 16 * j)
    len := BitVec.ofNat 32 (blockBytes o.len.toNat j) }

/-- GENKS then XORKS for each block from j on (R136); `o` is XFORM's own operands. -/
def primitiveBlocks (C : CipherPort) (o : Operands) : Nat → Nat → State → Run Unit
  | 0, _, s => .ok () s
  | left + 1, j, s =>
    (runGenks C s).bind fun _ s =>
      (runXorks { s with snap := blockOperands o j }).bind fun _ s => primitiveBlocks C o left (j + 1) s

/-- The host sequence of R136: LDKEY, LDNONCE, then GENKS and XORKS for each block. -/
def primitiveSequence (C : CipherPort) (s : State) : Run Unit :=
  (runLdkey s).bind fun _ t =>
    (runLdnonce t).bind fun _ t => primitiveBlocks C s.snap (blockCount s.snap.len.toNat) 0 t

/-- What no command touches (R30, R34, R44, R161): the operand registers, the snapshot, CMD, OVERRUN, the parameters and the
host's side. -/
def sameHostSide (s t : State) : Prop :=
  t.cmd = s.cmd ∧ t.ops = s.ops ∧ t.snap = s.snap ∧ t.overrun = s.overrun ∧ t.cfg = s.cfg ∧ t.inputs = s.inputs ∧
    t.fpReads = s.fpReads ∧ t.fpWrites = s.fpWrites ∧ t.touched = s.touched ∧ t.hostData = s.hostData

/-- The registers a command may write besides STATUS's and the ports' record. -/
def sameResults (s t : State) : Prop :=
  t.key = s.key ∧ t.keyLen = s.keyLen ∧ t.ctr = s.ctr ∧ t.ctrValid = s.ctrValid ∧ t.ks = s.ks ∧ t.ksValid = s.ksValid ∧
    t.blkcnt = s.blkcnt ∧ t.mem = s.mem ∧ t.trace = s.trace

/-- Whether an address lies in what a command may store to: XORKS and XFORM [DST, DST+LEN), INCBUF the suffix of
[NADDR, NADDR+NLEN) that it can reach where raced bytes read as any value (R63), the others nothing (R58). -/
def mayStoreTo (i : Instr) (s : State) (a : Nat) : Bool :=
  match i with
  | .xorks => spanHas ⟨s.snap.dst.toNat, s.snap.len.toNat⟩ a
  | .xform => spanHas ⟨s.snap.dst.toNat, s.snap.len.toNat⟩ a
  | .incbuf => spanHas (incbufSuffix (raced s) s) a
  | .ldkey => false
  | .ldnonce => false
  | .incctr => false
  | .genks => false

/-- What holds of every state the machine reaches. -/
structure State.Inv (s : State) : Prop where
  /-- The memory is in its canonical form. -/
  memCanonical : s.mem.wf = true
  /-- No byte outside the 2^AW addresses (R10, R51). -/
  memInSpace : s.mem.below (addrTop s.cfg) = true
  /-- BUSY = 1 and DONE = 1 never occur together (R33). -/
  busyNotDone : s.phase = .busy → s.done = false
  /-- The snapshot equals the operand registers, and SEQ holds CMD's word, while BUSY (R31, R44). -/
  busySnapshot : s.phase = .busy → s.snap = s.ops ∧ s.seq.word = s.cmd
  /-- While XFORM is BUSY, SEQ holds nblk = ceil(LEN/16) and a block index below it (R31, R132). -/
  busyBlocks : s.phase = .busy → s.seq.word = encode .xform →
    s.seq.nblk = blockCount s.snap.len.toNat ∧ (0 < s.seq.nblk → s.seq.blk < s.seq.nblk)
  /-- While INCBUF is BUSY, SEQ holds the index of a byte of its buffer, if it has one (R31, R109). -/
  busyByte : s.phase = .busy → s.seq.word = encode .incbuf → 0 < s.snap.nlen.toNat → s.seq.idx < s.snap.nlen.toNat
  /-- Only a BUSY unit waits for an answer (R193). -/
  waitingBusy : s.waiting = true → s.phase = .busy
  /-- Between steps no request is about to stay unanswered: a command that met one waits already (R193). -/
  noSilence : s.silentAt = none
  /-- Before a completion, and while BUSY, the record is clear (R35, R39, R40, R44). -/
  recordClear : s.done = false → s.err = .none ∧ s.cerr = 0 ∧ s.erraddr = 0
  /-- SUB is non-zero exactly with ERR = 1 (R151). -/
  subOnlyInvalid : s.sub ≠ .none ↔ s.err = .invalidArgument
  /-- CERR is non-zero only after a CipherError (R39). -/
  cerrOnlyCipher : s.cerr ≠ 0 → s.err = .cipherError
  /-- ERRADDR is non-zero only after a BusError (R40). -/
  erraddrOnlyBus : s.erraddr ≠ 0 → s.err = .busError
  /-- KEY_LEN is 0, 16, 24 or 32 (R23). -/
  keyLenLegal : s.keyLen = 0 ∨ s.keyLen = 16 ∨ s.keyLen = 24 ∨ s.keyLen = 32
  /-- KEY is zero from byte KEY_LEN on (R124). -/
  keyPadded : s.key.toList.drop s.keyLen = List.replicate (32 - s.keyLen) 0
  /-- CTR is zero until a nonce is loaded (R36, R180). -/
  noCounterZero : s.ctrValid = false → s.ctr = zeroBlock
  /-- Whenever KS_VALID is cleared, KS is 0^16 (R36); an XFORM that waits part-way may hold a block in KS (R131). -/
  noKeystreamZero : s.waiting = false → s.ksValid = false → s.ks = zeroBlock

/-- A run whose claims are about results takes this of its completions: no error and no protocol violation (R169). -/
def State.Clean (s : State) : Prop := s.phase = .idle ∧ s.done = true ∧ s.err = .none ∧ s.overrun = false

end Sys2Proof.Machine
end

