-- ==== Sys2Proof/Certificates/Slice0/Obligations.lean ====
section
/-! DEFINITION. The statements for the provers, from the numbered rules of spec/. -/

open Sys2Proof Sys2Proof.Machine

/-! ### Encoding -/

/-- R71, R72, R73: the opcode map, word by word, and words on either side of it. -/
def Obligations.OpcodeMapWordsDecode : Prop :=
  decode 0x00000001 = .ok .ldkey ∧ decode 0x00000002 = .ok .ldnonce ∧ decode 0x00000003 = .ok .incctr ∧
    decode 0x00000004 = .ok .genks ∧ decode 0x00000005 = .ok .xorks ∧ decode 0x00000006 = .ok .xform ∧
    decode 0x00000007 = .ok .incbuf ∧ decode 0x00000000 = .error (.unmappedOp 0x00) ∧
    decode 0x00000008 = .error (.unmappedOp 0x08) ∧ decode 0x000000FF = .error (.unmappedOp 0xFF) ∧
    decode 0x00000106 = .error (.reservedBits 0x000001) ∧ decode 0x80000001 = .error (.reservedBits 0x800000)

/-- R70, R71: decoding the word of a well-formed command gives the command back. -/
def Obligations.EncodedCommandDecodesBack : Prop :=
  ∀ i : Instr, i.wf = true → decode (encode i) = .ok i ∧ fieldsOf (encode i) = ⟨0, i.opcode⟩

/-- R75: every word is exactly one command's, or is rejected; the words rejected are those of R73. -/
def Obligations.EveryWordIsOneCommandOrIllegal : Prop :=
  ∀ w : Word,
    (∀ i, decode w = .ok i ↔ w = encode i) ∧ ((∃ e, decode w = .error e) ↔ (fieldsOf w).wf = false)

/-! ### Acceptance, the step, illegal words -/

/-- R31, R72: the unit's turn runs the accepted word's command, whether no move is pending or its turn is the next move.
That the command is one step (log 5), that a BUSY unit takes its turn when no move is pending (log 6) and that the word is
decoded at that turn (log 22) are the model's choices. -/
def Obligations.StepRunsTheDecodedCommand : Prop :=
  ∀ (s : State) (i : Instr), s.phase = .busy → decode s.seq.word = .ok i → s.waiting = false →
    (s.inputs = [] → step s = exec i s) ∧
      (∀ rest, s.inputs = .unitTurn :: rest → step s = exec i { s with inputs := rest })

/-- What `withFetchWord` is for (log 6): the very next step is the command, run on the state just after its acceptance. -/
def Obligations.FetchWordRunsTheCommand : Prop :=
  ∀ (s : State) (i : Instr), step (s.withFetchWord 32 (encode i).toNat) = exec i (launched (encode i) s)

/-- R44, R31, R132, R58: a CMD write while BUSY = 0 accepts the word, whatever it is, starts SEQ, adds the command's footprint
to the open window, none for an illegal word or a failed validation, and changes nothing else; one whose footprint meets a
device region is refused (R59). The device regions are the model's list (log 10), the window stands in its own fields (log 8),
how far INCBUF's suffix reaches is its reading (log 8, 25), SEQ's index is 0 by its choice where LEN or NLEN is 0 (log 2), and
that no other launch is refused is its reading of R191 (log 28). -/
def Obligations.CmdWriteIsAccepted : Prop :=
  ∀ (s : State) (w : Word) (rest : List Input), s.phase = .idle → s.inputs = .hostWrite 0x00 w :: rest →
    let u := { s with inputs := rest, snap := s.ops }
    let o := s.ops
    let adds := fun (t : State) (reads writes : List Span) =>
      t.fpReads = s.fpReads ++ reads ∧ t.fpWrites = s.fpWrites ++ writes
    let suffix := incbufSuffix (incbufRaced u) u
    (meetsDevice w u = true → step s = .refused (.deviceFootprint w)) ∧
      (meetsDevice w u = false →
        ∃ t, step s = .next t ∧ t.cmd = w ∧ t.phase = .busy ∧ t.done = false ∧ t.err = .none ∧ t.sub = .none ∧
          t.cerr = 0 ∧ t.erraddr = 0 ∧ t.snap = s.ops ∧ t.seq.word = w ∧
          (w = encode .xform → t.seq.nblk = blockCount s.ops.len.toNat ∧ t.seq.blk = 0) ∧
          (w = encode .incbuf → t.seq.idx = s.ops.nlen.toNat - 1) ∧ t.waiting = false ∧ t.ops = s.ops ∧
          t.overrun = s.overrun ∧ t.inputs = rest ∧ t.cfg = s.cfg ∧ t.hostData = s.hostData ∧ sameResults s t ∧
          t.touched = s.touched ∧ t.draws = s.draws ∧ t.silentAt = s.silentAt ∧
          ((fieldsOf w).wf = false → adds t [] []) ∧
          (∀ i, w = encode i → commandCheck i u ≠ none → adds t [] []) ∧
          (∀ i, w = encode i → commandCheck i u = none →
            match i with
            | .ldkey => adds t [⟨o.kaddr.toNat, o.klen.toNat⟩] []
            | .ldnonce => adds t [⟨o.naddr.toNat, o.nlen.toNat⟩] []
            | .incctr => adds t [] []
            | .genks => adds t [] []
            | .xorks => adds t [⟨o.src.toNat, o.len.toNat⟩] [⟨o.dst.toNat, o.len.toNat⟩]
            | .xform =>
              adds t [⟨o.kaddr.toNat, o.klen.toNat⟩, ⟨o.naddr.toNat, o.nlen.toNat⟩, ⟨o.src.toNat, o.len.toNat⟩]
                [⟨o.dst.toNat, o.len.toNat⟩]
            | .incbuf =>
              adds t [suffix] [suffix] ∧ o.naddr.toNat ≤ suffix.base ∧
                suffix.base + suffix.len = o.naddr.toNat + o.nlen.toNat))

/-- R73, R154: an illegal word is accepted (BUSY rises), then completes with IllegalCommand (BUSY falls). That a step lies
between, the word being decoded at the second one, is the model's choice (log 22). -/
def Obligations.IllegalWordCompletesWithIllegalCommand : Prop :=
  ∀ (s : State) (w : Word), (fieldsOf w).wf = false → s.phase = .idle → s.inputs = [.hostWrite 0x00 w] →
    ∃ u t, step s = .next u ∧ u.phase = .busy ∧ step u = .next t ∧ t.phase = .idle ∧ t.done = true ∧
      t.err = .illegalCommand ∧ t.sub = .none ∧ t.cmd = w ∧ t.cerr = 0 ∧ t.erraddr = 0 ∧ t.ops = s.ops ∧
      t.overrun = s.overrun ∧ sameResults s t

/-- R193, U7: a turn whose request number k is never answered is the command up to that request, and the unit stays BUSY from
there on; what each command has done by then, and XFORM at the cipher call of block i, for any cipher port, with i and nblk in
SEQ. That the move unitStall names the request, and is refused where the command does not make it, is the model's (log 9); so
is that a write never answered leaves its byte (log 26). -/
def Obligations.UnansweredCommandStaysBusy : Prop :=
  ∀ (C : CipherPort) (s : State) (i : Nat),
    let o := s.snap
    let out := (xorBytes (s.mem.bytes o.src.toNat o.len.toNat) s.ks.toList).take i
    let silentAfter := fun n => s.silentAt = some (s.trace.length + n)
    (s.waiting = true →
      (s.inputs = [] → step s = .next s) ∧
        (∀ rest, s.inputs = .unitTurn :: rest → step s = .next { s with inputs := rest }) ∧
        ∀ k rest, s.inputs = .unitStall k :: rest → step s = .next { s with inputs := rest, silentAt := none }) ∧
      (∀ j k rest t, s.phase = .busy → s.waiting = false → decode s.seq.word = .ok j → s.inputs = .unitStall k :: rest →
        exec j { s with inputs := rest, silentAt := some (s.trace.length + k) } = .next t →
        (t.waiting = true → step s = .next { t with silentAt := none }) ∧
          (t.waiting = false → step s = .refused (.noSuchRequest k))) ∧
      (commandCheck .ldkey s = none → raceFree .ldkey s → admitsRange s.cfg o.kaddr.toNat i → i < o.klen.toNat →
        silentAfter i →
        exec .ldkey s = .next (State.stalled { s with trace := s.trace ++ readEvents s.mem o.kaddr.toNat i })) ∧
      (commandCheck .ldnonce s = none → raceFree .ldnonce s → admitsRange s.cfg o.naddr.toNat i → i < o.nlen.toNat →
        silentAfter i →
        exec .ldnonce s = .next (State.stalled { s with trace := s.trace ++ readEvents s.mem o.naddr.toNat i })) ∧
      (commandCheck .xorks s = none → raceFree .xorks s → admitsRange s.cfg o.src.toNat o.len.toNat →
        admitsRange s.cfg o.dst.toNat i → i < o.len.toNat → silentAfter (o.len.toNat + i) →
        exec .xorks s =
          .next
            (State.stalled
              { s with
                mem := s.mem.setBytes o.dst.toNat out
                trace := s.trace ++ readEvents s.mem o.src.toNat o.len.toNat ++ writeEvents o.dst.toNat out })) ∧
      (commandCheck .incbuf s = none → 1 ≤ o.nlen.toNat → silentAfter 0 →
        exec .incbuf s = .next (State.stalled (s.atByte (o.nlen.toNat - 1)))) ∧
      (commandCheck .genks s = none → silentAfter 0 →
        exec .genks s = .next s.stalled) ∧
      (commandCheck .xform s = none → raceFree .xform s → admitsRange s.cfg o.kaddr.toNat o.klen.toNat →
        admitsRange s.cfg o.naddr.toNat o.nlen.toNat → i < blockCount o.len.toNat →
        admitsRange s.cfg o.src.toNat (16 * i) → admitsRange s.cfg o.dst.toNat (16 * i) →
        (keystream C (keyBytes s) (firstCounter s) i).2 = none →
        silentAfter (o.klen.toNat + o.nlen.toNat + 33 * i) →
        ∃ t, runXform C s = .wait t ∧ t.phase = s.phase ∧ t.seq.nblk = blockCount o.len.toNat ∧ t.seq.blk = i ∧
          t.blkcnt = 0 ∧
          t.mem = applyBlocks o.src.toNat o.dst.toNat o.len.toNat (keystream C (keyBytes s) (firstCounter s) i).1 0 s.mem)

/-! ### What every command does -/

/-- R33, R155, R193: every command ends in exactly one completion, whatever the state it starts from, unless a request of it is
never answered; then the completion record is as it was. -/
def Obligations.EveryCommandCompletes : Prop :=
  ∀ (i : Instr) (s : State),
    ∃ t, exec i s = .next t ∧
      ((t.phase = .idle ∧ t.done = true ∧ t.waiting = false ∧ t.err ≠ .illegalCommand ∧
          (t.sub ≠ .none ↔ t.err = .invalidArgument) ∧ (t.err ≠ .cipherError → t.cerr = s.cerr) ∧
          (t.err ≠ .busError → t.erraddr = s.erraddr)) ∨
        (t.phase = s.phase ∧ t.done = s.done ∧ t.waiting = true ∧ t.err = s.err ∧ t.sub = s.sub ∧ t.cerr = s.cerr ∧
          t.erraddr = s.erraddr ∧
          i ≠ .incctr ∧ s.silentAt ≠ none))

/-- R30, R161: no command writes an operand register, CMD, OVERRUN, the parameters or anything of the host's side. -/
def Obligations.CommandsLeaveTheHostSide : Prop :=
  ∀ (i : Instr) (s t : State), exec i s = .next t → sameHostSide s t

/-- R26, R28, R29, R36, R38: which commands may change each internal register. -/
def Obligations.OnlyTheNamedCommandsWriteARegister : Prop :=
  ∀ (i : Instr) (s t : State), exec i s = .next t →
    (i ≠ .ldkey → i ≠ .xform → t.key = s.key ∧ t.keyLen = s.keyLen) ∧
      (i ≠ .ldnonce → i ≠ .incctr → i ≠ .genks → i ≠ .xform → t.ctr = s.ctr) ∧
      (i ≠ .ldnonce → i ≠ .xform → t.ctrValid = s.ctrValid) ∧
      (i ≠ .ldkey → i ≠ .ldnonce → i ≠ .genks → i ≠ .xform → t.ks = s.ks ∧ t.ksValid = s.ksValid) ∧
      (i ≠ .xform → t.blkcnt = s.blkcnt)

/-- R58: a command changes no byte outside what it writes, however it ends, races included. For INCBUF that is the suffix it can
reach where raced bytes read as any value (R63); that it ends above a refused byte is log 25. -/
def Obligations.CommandsStoreOnlyToTheirDestination : Prop :=
  ∀ (i : Instr) (s t : State) (a : Nat), exec i s = .next t → mayStoreTo i s a = false →
    t.mem.byteAt a = s.mem.byteAt a

/-- R156: a command whose validation fails changes the completion record and nothing else, and performs no event. -/
def Obligations.ValidationErrorsHaveNoSideEffect : Prop :=
  ∀ (i : Instr) (s : State) (c : SubCause), commandCheck i s = some c →
    ∃ t, exec i s = .next t ∧ t.phase = .idle ∧ t.done = true ∧ t.err = .invalidArgument ∧ t.sub = c ∧
      t.cerr = s.cerr ∧ t.erraddr = s.erraddr ∧ sameHostSide s t ∧ sameResults s t

/-- R151, R157, R159: what each command checks, in order; the first check that fails is the one reported. -/
def Obligations.ValidationOrder : Prop :=
  ∀ s : State,
    let bad := fun (a n : Word) => n ≠ 0 ∧ 2 ^ s.cfg.aw.val < a.toNat + n.toNat
    let o := s.snap
    let nonceOk := o.nlen = 8 ∨ o.nlen = 12 ∨ o.nlen = 16
    let keyOk := (o.klen = 16 ∧ KeySize.k16 ∈ s.cfg.keySizes) ∨ (o.klen = 24 ∧ KeySize.k24 ∈ s.cfg.keySizes) ∨
      (o.klen = 32 ∧ KeySize.k32 ∈ s.cfg.keySizes)
    (commandCheck .ldkey s = some .badKeyLen ↔ ¬keyOk) ∧
      (commandCheck .ldkey s = some .range ↔ keyOk ∧ bad o.kaddr o.klen) ∧
      (commandCheck .ldkey s = none ↔ keyOk ∧ ¬bad o.kaddr o.klen) ∧
      (commandCheck .ldnonce s = some .badNonceLen ↔ ¬nonceOk) ∧
      (commandCheck .ldnonce s = some .range ↔ nonceOk ∧ bad o.naddr o.nlen) ∧
      (commandCheck .ldnonce s = none ↔ nonceOk ∧ ¬bad o.naddr o.nlen) ∧
      (commandCheck .incctr s = some .noCounter ↔ s.ctrValid = false) ∧
      (commandCheck .incctr s = none ↔ s.ctrValid = true) ∧
      (commandCheck .genks s = some .noCounter ↔ s.ctrValid = false) ∧
      (commandCheck .genks s = some .noKey ↔ s.ctrValid = true ∧ s.keyLen = 0) ∧
      (commandCheck .genks s = none ↔ s.ctrValid = true ∧ s.keyLen ≠ 0) ∧
      (commandCheck .xorks s = some .badXorLen ↔ o.len.toNat < 1 ∨ 16 < o.len.toNat) ∧
      (commandCheck .xorks s = some .noKeystream ↔ (1 ≤ o.len.toNat ∧ o.len.toNat ≤ 16) ∧ s.ksValid = false) ∧
      (commandCheck .xorks s = some .range ↔
        (1 ≤ o.len.toNat ∧ o.len.toNat ≤ 16) ∧ s.ksValid = true ∧ (bad o.src o.len ∨ bad o.dst o.len)) ∧
      (commandCheck .xorks s = none ↔
        (1 ≤ o.len.toNat ∧ o.len.toNat ≤ 16) ∧ s.ksValid = true ∧ ¬bad o.src o.len ∧ ¬bad o.dst o.len) ∧
      (commandCheck .xform s = some .emptyMessage ↔ o.len = 0 ∧ s.cfg.allowEmpty = false) ∧
      (commandCheck .xform s = some .badNonceLen ↔ ¬(o.len = 0 ∧ s.cfg.allowEmpty = false) ∧ ¬nonceOk) ∧
      (commandCheck .xform s = some .badKeyLen ↔
        ¬(o.len = 0 ∧ s.cfg.allowEmpty = false) ∧ nonceOk ∧ ¬keyOk) ∧
      (commandCheck .xform s = some .range ↔
        ¬(o.len = 0 ∧ s.cfg.allowEmpty = false) ∧ nonceOk ∧ keyOk ∧
          (bad o.src o.len ∨ bad o.dst o.len ∨ bad o.naddr o.nlen ∨ bad o.kaddr o.klen)) ∧
      (commandCheck .xform s = none ↔
        ¬(o.len = 0 ∧ s.cfg.allowEmpty = false) ∧ nonceOk ∧ keyOk ∧ ¬bad o.src o.len ∧ ¬bad o.dst o.len ∧
          ¬bad o.naddr o.nlen ∧ ¬bad o.kaddr o.klen) ∧
      (commandCheck .incbuf s = some .range ↔ bad o.naddr o.nlen) ∧
      (commandCheck .incbuf s = none ↔ ¬bad o.naddr o.nlen)

/-! ### The counter manager -/

/-- R100, R101: the increment adds one to the big-endian value and wraps silently, on any length. -/
def Obligations.IncrementAddsOneModulo : Prop :=
  (∀ bs : List Byte, (incBytes bs).length = bs.length ∧ valBe (incBytes bs) = (valBe bs + 1) % 256 ^ bs.length) ∧
    ∀ c : Block, valBe (inc128 c).toList = (valBe c.toList + 1) % 2 ^ 128

/-- R8: be_n is the inverse of val_be. -/
def Obligations.BigEndianBytesAreTheInverse : Prop :=
  ∀ bs : List Byte, beBytes bs.length (valBe bs) = bs ∧
    ∀ n v, v < 256 ^ n → (beBytes n v).length = n ∧ valBe (beBytes n v) = v

/-- R102: the nonce takes the high-order bytes of the counter. -/
def Obligations.InitCounterIsTheNonceLeftAligned : Prop :=
  ∀ nonce : List Byte, nonce.length = 8 ∨ nonce.length = 12 ∨ nonce.length = 16 →
    (initCounter nonce).toList = nonce ++ List.replicate (16 - nonce.length) 0 ∧
      valBe (initCounter nonce).toList = valBe nonce * 256 ^ (16 - nonce.length)

/-- R103: LDNONCE, its validation passed, every byte admitted and answered, and no race, completes with CTR =
InitCounter(nonce). -/
def Obligations.LdnonceLoadsTheCounter : Prop :=
  ∀ s : State, commandCheck .ldnonce s = none → admitsRange s.cfg s.snap.naddr.toNat s.snap.nlen.toNat →
    raceFree .ldnonce s → answered s s.snap.nlen.toNat →
    exec .ldnonce s =
      .next
        (State.completed
          { s with
            ctr := initCounter (nonceBytes s)
            ctrValid := true
            ks := zeroBlock
            ksValid := false
            trace := s.trace ++ readEvents s.mem s.snap.naddr.toNat s.snap.nlen.toNat })

/-- R103, R152: LDNONCE ends with BusError at the first refused byte, after the reads before it, and changes no register. -/
def Obligations.LdnonceStopsAtARefusedByte : Prop :=
  ∀ (s : State) (i : Nat), commandCheck .ldnonce s = none → i < s.snap.nlen.toNat →
    admitsRange s.cfg s.snap.naddr.toNat i → admits s.cfg (s.snap.naddr.toNat + i) = false → raceFree .ldnonce s →
    answered s (i + 1) →
    exec .ldnonce s =
      .next
        (State.raised { s with trace := s.trace ++ readEvents s.mem s.snap.naddr.toNat i }
          (.bus (s.snap.naddr.toNat + i)))

/-- R106: INCCTR with a counter adds one to it, modulo 2^128, and changes no other register. -/
def Obligations.IncctrAddsOneToTheCounter : Prop :=
  ∀ s : State, s.ctrValid = true →
    ∃ t, exec .incctr s = .next t ∧ t = State.completed { s with ctr := t.ctr } ∧
      valBe t.ctr.toList = (valBe s.ctr.toList + 1) % 2 ^ 128

/-- R107: k INCCTR commands in a row add k. -/
def Obligations.IncctrRepeatedAddsK : Prop :=
  ∀ (k : Nat) (s : State), s.ctrValid = true →
    ∃ t, execTimes .incctr k s = .next t ∧ valBe t.ctr.toList = (valBe s.ctr.toList + k) % 2 ^ 128

/-- R104: k increments from InitCounter(N) leave the nonce bytes alone while k is below 256^(16-n). -/
def Obligations.IncrementsKeepTheNonceBytes : Prop :=
  ∀ (k : Nat) (s : State) (nonce : List Byte), nonce.length = 8 ∨ nonce.length = 12 ∨ nonce.length = 16 →
    s.ctrValid = true → s.ctr = initCounter nonce →
    ∃ t, execTimes .incctr k s = .next t ∧
      valBe t.ctr.toList = (valBe nonce * 256 ^ (16 - nonce.length) + k) % 2 ^ 128 ∧
      (k < 256 ^ (16 - nonce.length) → t.ctr.toList.take nonce.length = nonce)

/-- R109: INCBUF whose reached bytes are admitted, answered and not raced on increments the buffer in place and changes no
register. -/
def Obligations.IncbufIncrementsTheBuffer : Prop :=
  ∀ s : State,
    let a := s.snap.naddr.toNat
    let n := s.snap.nlen.toNat
    let ff := trailingFF (s.mem.bytes a n)
    commandCheck .incbuf s = none → s.mem.wf = true →
    (∀ i, n - (ff + 1) ≤ i → i < n → admits s.cfg (a + i) = true ∧ raced s (a + i) = false) →
    answered s (2 * if ff < n then ff + 1 else n) →
    ∃ t, exec .incbuf s = .next t ∧ t = State.completed { s with mem := t.mem, trace := t.trace } ∧
      t.mem.bytes a n = incBytes (s.mem.bytes a n) ∧
      (∀ b, b < a ∨ a + n ≤ b → t.mem.byteAt b = s.mem.byteAt b)

/-- R110, R109: INCBUF's events: read and write pairs at falling addresses, one pair for each byte reached; none for an empty
buffer. -/
def Obligations.IncbufEvents : Prop :=
  ∀ s : State,
    let a := s.snap.naddr.toNat
    let n := s.snap.nlen.toNat
    let ff := trailingFF (s.mem.bytes a n)
    commandCheck .incbuf s = none → s.mem.wf = true →
    (∀ i, n - (ff + 1) ≤ i → i < n → admits s.cfg (a + i) = true ∧ raced s (a + i) = false) →
    answered s (2 * if ff < n then ff + 1 else n) →
    ∃ t, exec .incbuf s = .next t ∧
      t.trace = s.trace ++ (List.range (if ff < n then ff + 1 else n)).flatMap (fun k =>
        [.read (a + (n - 1 - k)) (s.mem.byteAt (a + (n - 1 - k))),
         .write (a + (n - 1 - k)) (s.mem.byteAt (a + (n - 1 - k)) + 1)])

/-- R109, U13: INCBUF reaching a refused byte leaves a partial increment: the bytes above it wrapped, it and those below
unchanged. -/
def Obligations.IncbufStopsAtARefusedByte : Prop :=
  ∀ (s : State) (i : Nat),
    let a := s.snap.naddr.toNat
    let n := s.snap.nlen.toNat
    commandCheck .incbuf s = none → s.mem.wf = true → i < n →
    (∀ k, i < k → k < n →
      s.mem.byteAt (a + k) = 0xff ∧ admits s.cfg (a + k) = true ∧ raced s (a + k) = false) →
    admits s.cfg (a + i) = false → answered s (2 * (n - (i + 1)) + 1) →
    ∃ t, exec .incbuf s = .next t ∧ t.err = .busError ∧ t.erraddr = BitVec.ofNat 32 (a + i) ∧
      (∀ k, i < k → k < n → t.mem.byteAt (a + k) = 0) ∧
      (∀ b, b ≤ a + i ∨ a + n ≤ b → t.mem.byteAt b = s.mem.byteAt b)

/-- R111: INCBUF then LDNONCE gives the counter that LDNONCE then INCCTR gives, for a 16-byte nonce. The two pairs
make at most 48 and 16 requests. -/
def Obligations.IncbufThenLdnonceIsLdnonceThenIncctr : Prop :=
  ∀ s : State, s.snap.nlen = 16 → commandCheck .ldnonce s = none →
    admitsRange s.cfg s.snap.naddr.toNat 16 → raceFree .ldnonce s → s.mem.wf = true → answered s 48 →
    ∃ t u v w, exec .incbuf s = .next t ∧ exec .ldnonce t = .next u ∧ exec .ldnonce s = .next v ∧
      exec .incctr v = .next w ∧ u.ctr = w.ctr ∧ u.err = .none ∧ w.err = .none

/-! ### The keystream engine: the primitive commands -/

/-- R124: LDKEY, its validation passed, every byte admitted and answered, and no race, completes with the key loaded,
left-aligned. -/
def Obligations.LdkeyLoadsTheKey : Prop :=
  ∀ s : State, commandCheck .ldkey s = none → admitsRange s.cfg s.snap.kaddr.toNat s.snap.klen.toNat →
    raceFree .ldkey s → answered s s.snap.klen.toNat →
    ∃ t, exec .ldkey s = .next t ∧
      t = State.completed
        { s with
          key := t.key
          keyLen := s.snap.klen.toNat
          ks := zeroBlock
          ksValid := false
          trace := s.trace ++ readEvents s.mem s.snap.kaddr.toNat s.snap.klen.toNat } ∧
      t.key.toList = keyBytes s ++ List.replicate (32 - s.snap.klen.toNat) 0

/-- R124, R152: LDKEY ends with BusError at the first refused byte, after the reads before it, and changes no register. -/
def Obligations.LdkeyStopsAtARefusedByte : Prop :=
  ∀ (s : State) (i : Nat), commandCheck .ldkey s = none → i < s.snap.klen.toNat →
    admitsRange s.cfg s.snap.kaddr.toNat i → admits s.cfg (s.snap.kaddr.toNat + i) = false → raceFree .ldkey s →
    answered s (i + 1) →
    exec .ldkey s =
      .next
        (State.raised { s with trace := s.trace ++ readEvents s.mem s.snap.kaddr.toNat i }
          (.bus (s.snap.kaddr.toNat + i)))

/-- R126: GENKS with a counter and a key makes one cipher call; `ok c` gives KS = c and the counter one higher, `err e`
gives CipherError and leaves CTR, KS and KS_VALID. BlockEncrypt is open: this holds of either response. -/
def Obligations.GenksMakesOneBlock : Prop :=
  ∀ s : State, s.ctrValid = true → s.keyLen ≠ 0 → answered s 1 →
    ∃ t, exec .genks s = .next t ∧
      match Config.blockEncrypt (s.key.toList.take s.keyLen) s.ctr with
      | .ok c =>
        t = State.completed { s with ks := c, ksValid := true, ctr := t.ctr, trace := t.trace } ∧
          valBe t.ctr.toList = (valBe s.ctr.toList + 1) % 2 ^ 128 ∧
          t.trace = s.trace ++ [.cipher (s.key.toList.take s.keyLen) s.ctr]
      | .err e =>
        t = State.raised { s with trace := t.trace } (.cipher (Config.cerrEnc e)) ∧
          t.trace = s.trace ++ [.cipher (s.key.toList.take s.keyLen) s.ctr]

/-- R127, R128: XORKS, its validation passed, every byte admitted and answered, and no race, XORs byte by byte, whatever the
overlap of the two ranges, keeps KS, and performs all its reads before its writes. -/
def Obligations.XorksXorsTheBlock : Prop :=
  ∀ s : State,
    let q := s.snap.len.toNat
    let a := s.snap.src.toNat
    let d := s.snap.dst.toNat
    commandCheck .xorks s = none → admitsRange s.cfg a q → admitsRange s.cfg d q → raceFree .xorks s → s.mem.wf = true →
    answered s (2 * q) →
    ∃ t, exec .xorks s = .next t ∧ t = State.completed { s with mem := t.mem, trace := t.trace } ∧
      (∀ i, (h : i < 16) → i < q → t.mem.byteAt (d + i) = s.mem.byteAt (a + i) ^^^ s.ks[i]) ∧
      (∀ b, b < d ∨ d + q ≤ b → t.mem.byteAt b = s.mem.byteAt b) ∧
      t.trace = s.trace ++ readEvents s.mem a q ++ writeEvents d (t.mem.bytes d q)

/-- R127: a refused read ends XORKS with no byte written; a refused write leaves the bytes before it written. -/
def Obligations.XorksStopsAtARefusedByte : Prop :=
  ∀ (s : State) (i : Nat),
    let q := s.snap.len.toNat
    let a := s.snap.src.toNat
    let d := s.snap.dst.toNat
    commandCheck .xorks s = none → raceFree .xorks s → s.mem.wf = true → i < q →
    (admitsRange s.cfg a i → admits s.cfg (a + i) = false → answered s (i + 1) →
      ∃ t, exec .xorks s = .next t ∧ t.err = .busError ∧ t.erraddr = BitVec.ofNat 32 (a + i) ∧ t.mem = s.mem ∧
        t.ks = s.ks ∧ t.ksValid = s.ksValid) ∧
      (admitsRange s.cfg a q → admitsRange s.cfg d i → admits s.cfg (d + i) = false → answered s (q + i + 1) →
        ∃ t, exec .xorks s = .next t ∧ t.err = .busError ∧ t.erraddr = BitVec.ofNat 32 (d + i) ∧
          (∀ k, (h : k < 16) → k < i → t.mem.byteAt (d + k) = s.mem.byteAt (a + k) ^^^ s.ks[k]) ∧
          (∀ b, b < d ∨ d + i ≤ b → t.mem.byteAt b = s.mem.byteAt b) ∧
          t.ks = s.ks ∧ t.ksValid = s.ksValid)

/-- R63: where the host races with a load or an XORKS, the command still completes, and every byte the host does not race on
is exact, the padding of CTR and KEY too; only the raced bytes are free (log 8). A load drops KS, and an XORKS keeps it and
changes no byte outside its destination. -/
def Obligations.RacedBytesAloneAreFree : Prop :=
  ∀ s : State,
    (commandCheck .ldnonce s = none → admitsRange s.cfg s.snap.naddr.toNat s.snap.nlen.toNat →
      answered s s.snap.nlen.toNat →
      ∃ t, exec .ldnonce s = .next t ∧ t.err = .none ∧ t.ctrValid = true ∧ t.ks = zeroBlock ∧ t.ksValid = false ∧
        (∀ i, (h : i < 16) → i < s.snap.nlen.toNat → raced s (s.snap.naddr.toNat + i) = false →
          t.ctr[i] = s.mem.byteAt (s.snap.naddr.toNat + i)) ∧
        ∀ i, (h : i < 16) → s.snap.nlen.toNat ≤ i → t.ctr[i] = 0) ∧
      (commandCheck .ldkey s = none → admitsRange s.cfg s.snap.kaddr.toNat s.snap.klen.toNat →
        answered s s.snap.klen.toNat →
        ∃ t, exec .ldkey s = .next t ∧ t.err = .none ∧ t.keyLen = s.snap.klen.toNat ∧ t.ks = zeroBlock ∧
          t.ksValid = false ∧
          (∀ i, (h : i < 32) → i < s.snap.klen.toNat → raced s (s.snap.kaddr.toNat + i) = false →
            t.key[i] = s.mem.byteAt (s.snap.kaddr.toNat + i)) ∧
          ∀ i, (h : i < 32) → s.snap.klen.toNat ≤ i → t.key[i] = 0) ∧
      (commandCheck .xorks s = none → admitsRange s.cfg s.snap.src.toNat s.snap.len.toNat →
        admitsRange s.cfg s.snap.dst.toNat s.snap.len.toNat → s.mem.wf = true → answered s (2 * s.snap.len.toNat) →
        ∃ t, exec .xorks s = .next t ∧ t.err = .none ∧ t.ks = s.ks ∧ t.ksValid = s.ksValid ∧
          (∀ i, (h : i < 16) → i < s.snap.len.toNat → raced s (s.snap.src.toNat + i) = false →
            raced s (s.snap.dst.toNat + i) = false →
            t.mem.byteAt (s.snap.dst.toNat + i) = s.mem.byteAt (s.snap.src.toNat + i) ^^^ s.ks[i]) ∧
          ∀ b, b < s.snap.dst.toNat ∨ s.snap.dst.toNat + s.snap.len.toNat ≤ b → t.mem.byteAt b = s.mem.byteAt b)

/-! ### The keystream engine: XFORM -/

/-- R121, R122: the block count and the bytes of each block. -/
def Obligations.BlocksCoverTheMessage : Prop :=
  (blockCount 0 = 0 ∧ blockCount 1 = 1 ∧ blockCount 16 = 1 ∧ blockCount 17 = 2 ∧ blockCount (2 ^ 32 - 1) = 2 ^ 28) ∧
    ∀ m j : Nat, j < blockCount m →
      (j + 1 < blockCount m → blockBytes m j = 16) ∧
        (j + 1 = blockCount m → blockBytes m j = m - 16 * (blockCount m - 1)) ∧
        1 ≤ blockBytes m j ∧ blockBytes m j ≤ 16 ∧ 16 * j + blockBytes m j ≤ m

/-- R131: XFORM, its validation passed, every byte admitted, every request answered and no race: the key and counter loaded,
the blocks the cipher made written in order, BLKCNT how many, KS dropped, and a CipherError where the cipher gave one.
BlockEncrypt is open: this holds of whatever responses it gives. -/
def Obligations.XformTransformsTheMessage : Prop :=
  ∀ s : State,
    let o := s.snap
    let m := o.len.toNat
    let ks := xformKeystream Config.cipherPort s
    commandCheck .xform s = none → raceFree .xform s → admitsRange s.cfg o.kaddr.toNat o.klen.toNat →
    admitsRange s.cfg o.naddr.toNat o.nlen.toNat → admitsRange s.cfg o.src.toNat m →
    admitsRange s.cfg o.dst.toNat m → answered s (o.klen.toNat + o.nlen.toNat + 2 * m + blockCount m) →
    exec .xform s =
      .next
        (State.cipherEnd
          { s with
            mem := applyBlocks o.src.toNat o.dst.toNat m ks.1 0 s.mem
            key := padTo 32 (keyBytes s)
            keyLen := o.klen.toNat
            ctr := counterBlock (firstCounter s + ks.1.length)
            ctrValid := true
            ks := zeroBlock
            ksValid := false
            blkcnt := BitVec.ofNat 32 ks.1.length
            trace := s.trace ++ readEvents s.mem o.kaddr.toNat o.klen.toNat ++
              readEvents s.mem o.naddr.toNat o.nlen.toNat ++
              blockEvents (keyBytes s) o.src.toNat o.dst.toNat m (firstCounter s) ks.1 0 s.mem ++
              failedCall (keyBytes s) (firstCounter s) ks }
          Config.cipherPort ks.2)

/-- R131: a refused byte of the key load leaves KEY, KEY_LEN, KS and CTR; one of the nonce load leaves CTR, with the key
loaded. BLKCNT is 0 after either. That the refused key load leaves KS_VALID too is the model's reading of R36 beside R131
(log 21). -/
def Obligations.XformStopsAtARefusedLoad : Prop :=
  ∀ (s : State) (i : Nat),
    let o := s.snap
    commandCheck .xform s = none → raceFree .xform s →
    (i < o.klen.toNat → admitsRange s.cfg o.kaddr.toNat i → admits s.cfg (o.kaddr.toNat + i) = false →
      answered s (i + 1) →
      exec .xform s =
        .next
          (State.raised
            { s with
              blkcnt := 0
              trace := s.trace ++ readEvents s.mem o.kaddr.toNat i }
            (.bus (o.kaddr.toNat + i)))) ∧
      (admitsRange s.cfg o.kaddr.toNat o.klen.toNat → i < o.nlen.toNat → admitsRange s.cfg o.naddr.toNat i →
        admits s.cfg (o.naddr.toNat + i) = false → answered s (o.klen.toNat + i + 1) →
        exec .xform s =
          .next
            (State.raised
              { s with
                blkcnt := 0
                key := padTo 32 (keyBytes s)
                keyLen := o.klen.toNat
                ks := zeroBlock
                ksValid := false
                trace := s.trace ++ readEvents s.mem o.kaddr.toNat o.klen.toNat ++
                  readEvents s.mem o.naddr.toNat i }
              (.bus (o.naddr.toNat + i))))

/-- R131, for any cipher port (exec passes the machine's own): a refused byte of block j ends XFORM with BLKCNT = j, the key
loaded, the blocks before it written, of block j the bytes before a refused write (none for a refused read), CTR past block
j's counter, KS dropped, and the events up to there. -/
def Obligations.XformStopsAtARefusedBlockByte : Prop :=
  ∀ (C : CipherPort) (s : State) (j i : Nat),
    let o := s.snap
    let m := o.len.toNat
    let a := o.src.toNat + 16 * j
    let d := o.dst.toNat + 16 * j
    let q := blockBytes m j
    let loads := o.klen.toNat + o.nlen.toNat
    let ks := (keystream C (keyBytes s) (firstCounter s) (j + 1)).1
    let before := applyBlocks o.src.toNat o.dst.toNat m (ks.take j) 0 s.mem
    let out := (xorBytes (before.bytes a q) (ks.getD j zeroBlock).toList).take i
    let events := s.trace ++ readEvents s.mem o.kaddr.toNat o.klen.toNat ++ readEvents s.mem o.naddr.toNat o.nlen.toNat ++
      blockEvents (keyBytes s) o.src.toNat o.dst.toNat m (firstCounter s) (ks.take j) 0 s.mem ++
      [.cipher (keyBytes s) (counterBlock (firstCounter s + j))]
    let stopped := fun t : State => t.blkcnt = BitVec.ofNat 32 j ∧ t.key = padTo 32 (keyBytes s) ∧
      t.keyLen = o.klen.toNat ∧ t.ctr = counterBlock (firstCounter s + j + 1) ∧ t.ctrValid = true ∧ t.ks = zeroBlock ∧
      t.ksValid = false
    commandCheck .xform s = none → raceFree .xform s → admitsRange s.cfg o.kaddr.toNat o.klen.toNat →
    admitsRange s.cfg o.naddr.toNat o.nlen.toNat → j < blockCount m → i < q → ks.length = j + 1 →
    admitsRange s.cfg o.src.toNat (16 * j) → admitsRange s.cfg o.dst.toNat (16 * j) →
    (admitsRange s.cfg a i → admits s.cfg (a + i) = false → answered s (loads + 33 * j + 1 + i + 1) →
      ∃ t, runXform C s = .raise (.bus (a + i)) t ∧ stopped t ∧ t.mem = before ∧
        t.trace = events ++ readEvents before a i) ∧
      (admitsRange s.cfg a q → admitsRange s.cfg d i → admits s.cfg (d + i) = false →
        answered s (loads + 33 * j + 1 + q + i + 1) →
        ∃ t, runXform C s = .raise (.bus (d + i)) t ∧ stopped t ∧ t.mem = before.setBytes d out ∧
          t.trace = events ++ readEvents before a q ++ writeEvents d out)

/-- R133: an XFORM that completes without error, in place or on disjoint ranges and without a race, writes msg xor keystream
and nothing else, for any cipher port. -/
def Obligations.XformIsThePureFunction : Prop :=
  ∀ (C : CipherPort) (s t : State), raceFree .xform s → s.mem.wf = true →
    inPlaceOrDisjoint s.snap.src.toNat s.snap.dst.toNat s.snap.len.toNat → runXform C s = .ok () t →
    (xformKeystream C s).2 = none ∧
      (keystreamBytes (xformKeystream C s).1).length = 16 * blockCount s.snap.len.toNat ∧
      (∀ i < s.snap.len.toNat,
        t.mem.byteAt (s.snap.dst.toNat + i) =
          s.mem.byteAt (s.snap.src.toNat + i) ^^^ (keystreamBytes (xformKeystream C s).1).getD i 0) ∧
      (∀ b, b < s.snap.dst.toNat ∨ s.snap.dst.toNat + s.snap.len.toNat ≤ b → t.mem.byteAt b = s.mem.byteAt b)

/-- R134: an XFORM over another's output, with the same nonce and key bytes, gives the message back, for any cipher port. The
second command may stand in any state and read its inputs anywhere. -/
def Obligations.XformRoundTrip : Prop :=
  ∀ (C : CipherPort) (s1 s2 t1 t2 : State), raceFree .xform s1 → raceFree .xform s2 → s1.mem.wf = true → s2.mem.wf = true →
    inPlaceOrDisjoint s1.snap.src.toNat s1.snap.dst.toNat s1.snap.len.toNat →
    inPlaceOrDisjoint s2.snap.src.toNat s2.snap.dst.toNat s2.snap.len.toNat →
    runXform C s1 = .ok () t1 → runXform C s2 = .ok () t2 → s2.snap.len = s1.snap.len → keyBytes s2 = keyBytes s1 →
    nonceBytes s2 = nonceBytes s1 →
    s2.mem.bytes s2.snap.src.toNat s2.snap.len.toNat = t1.mem.bytes s1.snap.dst.toNat s1.snap.len.toNat →
    t2.mem.bytes s2.snap.dst.toNat s2.snap.len.toNat = s1.mem.bytes s1.snap.src.toNat s1.snap.len.toNat

/-- R135, R137: two XFORMs over the same message and key bytes and equal counter blocks write the same output, whatever else
differs between the two states, for any cipher port. -/
def Obligations.XformDependsOnItsInputsAlone : Prop :=
  ∀ (C : CipherPort) (s1 s2 t1 t2 : State), raceFree .xform s1 → raceFree .xform s2 → s1.mem.wf = true → s2.mem.wf = true →
    inPlaceOrDisjoint s1.snap.src.toNat s1.snap.dst.toNat s1.snap.len.toNat →
    inPlaceOrDisjoint s2.snap.src.toNat s2.snap.dst.toNat s2.snap.len.toNat →
    s1.snap.len = s2.snap.len → keyBytes s1 = keyBytes s2 →
    initCounter (nonceBytes s1) = initCounter (nonceBytes s2) →
    s1.mem.bytes s1.snap.src.toNat s1.snap.len.toNat = s2.mem.bytes s2.snap.src.toNat s2.snap.len.toNat →
    runXform C s1 = .ok () t1 → runXform C s2 = .ok () t2 →
    t1.mem.bytes s1.snap.dst.toNat s1.snap.len.toNat = t2.mem.bytes s2.snap.dst.toNat s2.snap.len.toNat

/-- R137: with an injective cipher, one key and one message, different counter blocks give different first output blocks. -/
def Obligations.DistinctCountersGiveDistinctFirstBlocks : Prop :=
  ∀ (C : CipherPort) (s1 s2 t1 t2 : State), raceFree .xform s1 → raceFree .xform s2 → s1.mem.wf = true → s2.mem.wf = true →
    inPlaceOrDisjoint s1.snap.src.toNat s1.snap.dst.toNat s1.snap.len.toNat →
    inPlaceOrDisjoint s2.snap.src.toNat s2.snap.dst.toNat s2.snap.len.toNat →
    (∀ b c, C.encrypt (keyBytes s1) b = C.encrypt (keyBytes s1) c → b = c) →
    16 ≤ s1.snap.len.toNat → s1.snap.len = s2.snap.len → keyBytes s1 = keyBytes s2 →
    initCounter (nonceBytes s1) ≠ initCounter (nonceBytes s2) →
    s1.mem.bytes s1.snap.src.toNat s1.snap.len.toNat = s2.mem.bytes s2.snap.src.toNat s2.snap.len.toNat →
    runXform C s1 = .ok () t1 → runXform C s2 = .ok () t2 →
    t1.mem.bytes s1.snap.dst.toNat 16 ≠ t2.mem.bytes s2.snap.dst.toNat 16

/-- R136: an XFORM that completes without error has the effect of LDKEY, LDNONCE, then GENKS and XORKS for each block, with
the same port events in the same order, for any cipher port. They differ in BLKCNT, and in KS, where the sequence keeps the
last block, the cipher's answer on the counter one below. Where the host races (R63) the two are equal only because the
model numbers its free values in the order of the requests, and the sequence here has no acceptance or completion between
its commands (log 8, 12). -/
def Obligations.XformEqualsItsPrimitives : Prop :=
  ∀ (C : CipherPort) (s t : State), runXform C s = .ok () t →
    ∃ u, primitiveSequence C s = .ok () u ∧ u.mem = t.mem ∧ u.trace = t.trace ∧ u.key = t.key ∧ u.keyLen = t.keyLen ∧
      u.ctr = t.ctr ∧ u.ctrValid = t.ctrValid ∧ t.blkcnt = BitVec.ofNat 32 (blockCount s.snap.len.toNat) ∧
      u.blkcnt = s.blkcnt ∧ t.ks = zeroBlock ∧ t.ksValid = false ∧
      (1 ≤ blockCount s.snap.len.toNat →
        u.ksValid = true ∧ ∃ c, inc128 c = u.ctr ∧ C.encrypt (u.key.toList.take u.keyLen) c = .ok u.ks)

/-! ### STATUS and the register window -/

/-- R32, R150, R151: every field of STATUS in its place, the reserved bits 0, and the codes of ERR and SUB. -/
def Obligations.StatusFieldsInPlace : Prop :=
  ∀ s : State,
    (statusWord s).getLsbD 0 = isBusy s ∧ (statusWord s).getLsbD 1 = s.done ∧ (statusWord s).getLsbD 2 = s.overrun ∧
      (statusWord s).getLsbD 3 = false ∧ ((statusWord s).extractLsb' 4 4).toNat = errCode s.err ∧
      ((statusWord s).extractLsb' 8 8).toNat = subCode s.sub ∧
      (statusWord s).getLsbD 16 = decide (s.keyLen ≠ 0) ∧ (statusWord s).getLsbD 17 = s.ctrValid ∧
      (statusWord s).getLsbD 18 = s.ksValid ∧ (statusWord s).extractLsb' 19 13 = 0 ∧
      [ErrCode.none, .invalidArgument, .cipherError, .busError, .illegalCommand].map errCode = [0, 1, 2, 3, 4] ∧
      [SubCause.none, .emptyMessage, .badNonceLen, .badKeyLen, .range, .noKey, .noCounter, .noKeystream,
        .badXorLen].map subCode = [0, 1, 2, 3, 4, 5, 6, 7, 8]

/-- R32, R34: a STATUS write clears OVERRUN where bit 2 is 1 and changes nothing else, BUSY or not. -/
def Obligations.StatusWriteClearsOverrunAlone : Prop :=
  ∀ (s : State) (v : Word),
    hostWrite 0x04 v s = .next { s with overrun := if v.getLsbD 2 then false else s.overrun }

/-- R34: while BUSY a write of CMD or an operand register sets OVERRUN and does nothing else. -/
def Obligations.BusyWritesSetOverrunAlone : Prop :=
  ∀ (s : State) (r : Reg) (v : Word), s.phase = .busy → r = .cmd ∨ isOperand r = true →
    hostWrite (regOffset r) v s = .next { s with overrun := true }

/-- R41: while BUSY = 0 a write of an operand register takes effect at once: it reads back, and no other register changes. -/
def Obligations.OperandWritesTakeEffect : Prop :=
  ∀ (s : State) (r : Reg) (v : Word), s.phase = .idle → isOperand r = true →
    ∃ t, hostWrite (regOffset r) v s = .next t ∧ regValue r t = v ∧ (∀ r', r' ≠ r → regValue r' t = regValue r' s) ∧
      t = { s with ops := t.ops }

/-- R42: writes of read-only registers and unmapped offsets are ignored and do not set OVERRUN; unmapped offsets read 0. -/
def Obligations.ReadOnlyAndUnmappedOffsets : Prop :=
  ∀ (s : State) (v : Word),
    (∀ r, r ∈ [Reg.blkcnt, Reg.cerr, Reg.erraddr, Reg.ctr0, Reg.ctr1, Reg.ctr2, Reg.ctr3] →
      hostWrite (regOffset r) v s = .next s) ∧
      (∀ off, 0x40 ≤ off → off ≤ 0xFC → off % 4 = 0 →
        hostWrite off v s = .next s ∧ hostRead off s = .next { s with hostData := 0 })

/-- R22, R43: while BUSY = 0 every register reads exactly; the read changes nothing but the host's data, and a STATUS read
closes the window (R62). The host's data and the window are the model's own (log 8, 12), and that the result registers are
exact from the completion on, before a STATUS read has shown BUSY = 0, is its choice (log 24). -/
def Obligations.IdleReadsAreExact : Prop :=
  ∀ (s : State) (r : Reg), s.phase = .idle →
    ∃ t, hostRead (regOffset r) s = .next t ∧ t.hostData = regValue r s ∧
      (r ≠ .status → t = { s with hostData := t.hostData }) ∧
      (r = .status → t = { s.synced with hostData := t.hostData })

/-- R43: while BUSY, CMD, the operand registers and STATUS bits [3:0] and [31:19] read exactly. -/
def Obligations.BusyReadsAreExactWhereStated : Prop :=
  ∀ (s : State) (r : Reg), s.phase = .busy →
    ∃ t, hostRead (regOffset r) s = .next t ∧ t = { s with hostData := t.hostData, draws := t.draws } ∧
      (r = .cmd ∨ isOperand r = true → t.hostData = regValue r s) ∧
      (r = .status → t.hostData.extractLsb' 0 4 = (statusWord s).extractLsb' 0 4 ∧ t.hostData.extractLsb' 19 13 = 0)

/-- R27: the host's view of the counter. -/
def Obligations.CounterWordsPackBigEndian : Prop :=
  ∀ s : State,
    (∀ k, (h : k < 4) →
      (counterWord s.ctr k).toNat =
        (s.ctr[4 * k]'(by omega)).toNat * 2 ^ 24 + (s.ctr[4 * k + 1]'(by omega)).toNat * 2 ^ 16 +
          (s.ctr[4 * k + 2]'(by omega)).toNat * 2 ^ 8 + (s.ctr[4 * k + 3]'(by omega)).toNat) ∧
      valBe s.ctr.toList =
        (regValue .ctr0 s).toNat * 2 ^ 96 + (regValue .ctr1 s).toNat * 2 ^ 64 + (regValue .ctr2 s).toNat * 2 ^ 32 +
          (regValue .ctr3 s).toNat

/-- R54: a register access that is not an aligned 32-bit word of the window is refused (log 17 for one past the window). -/
def Obligations.OtherRegisterAccessesAreRefused : Prop :=
  ∀ (s : State) (off bits : Nat) (v : Word),
    (off % 4 ≠ 0 ∨ 0x100 ≤ off →
      hostWrite off v s = .refused (.registerAccess off) ∧ hostRead off s = .refused (.registerAccess off)) ∧
      hostOther off bits s = .refused (.registerAccess off)

/-! ### The host's own memory accesses -/

/-- R51, R62, R63: a host access outside the open window's footprint is an ordinary memory access, and so is a read of a
byte that the window's commands only read and the host does not write. The window and the field for what the host reads are
the model's own (log 8, 12), and that a byte of a device region is such an ordinary byte is its choice (log 27). -/
def Obligations.HostMemoryAccessesOutsideTheFootprint : Prop :=
  ∀ (s : State) (a : Nat) (v : Byte), a < 2 ^ s.cfg.aw.val → s.mem.wf = true → spansHave s.fpWrites a = false →
    (spansHave s.fpReads a = false ∨ racedFrom (aheadNow s) s a = false →
      hostMemRead a s = .next { s with hostData := (s.mem.byteAt a).setWidth 32 }) ∧
      (spansHave s.fpReads a = false →
        ∃ t, hostMemWrite a v s = .next t ∧ t.mem.byteAt a = v ∧ (∀ b, b ≠ a → t.mem.byteAt b = s.mem.byteAt b) ∧
          t = { s with mem := t.mem })

/-- R63: a host write of a footprint byte in the open window, or a host read of one that the command writes, is a race: the
byte becomes a free value, the read returns another, and no other byte changes. A read of a byte that the command only reads
and the host writes in the window returns a free value too. The free values and the tracking are the model's (log 8). -/
def Obligations.RacingHostAccessesAreFree : Prop :=
  ∀ (s : State) (a : Nat) (v : Byte), a < 2 ^ s.cfg.aw.val → s.mem.wf = true →
    (spansHave s.fpReads a = true ∨ spansHave s.fpWrites a = true →
      ∃ t, hostMemWrite a v s = .next t ∧ t.mem.byteAt a = Config.freeByte s.draws ∧
        (∀ b, b ≠ a → t.mem.byteAt b = s.mem.byteAt b) ∧ raced t a = true ∧
        t = { s with mem := t.mem, touched := t.touched, draws := s.draws + 1 }) ∧
      (spansHave s.fpWrites a = true →
        ∃ t, hostMemRead a s = .next t ∧ t.hostData = (Config.freeByte s.draws).setWidth 32 ∧
          t.mem.byteAt a = Config.freeByte (s.draws + 1) ∧ (∀ b, b ≠ a → t.mem.byteAt b = s.mem.byteAt b) ∧
          raced t a = true ∧
          t = { s with mem := t.mem, hostData := t.hostData, touched := t.touched, draws := s.draws + 2 }) ∧
      (spansHave s.fpReads a = true → spansHave s.fpWrites a = false → racedFrom (aheadNow s) s a = true →
        hostMemRead a s =
          .next { s with hostData := (Config.freeByte s.draws).setWidth 32, draws := s.draws + 1 })

/-! ### Reset -/

/-- R180: what the reset input leaves, in any phase: every register at its reset value. -/
def Obligations.ResetInputValues : Prop :=
  ∀ (s : State) (rest : List Input), s.inputs = .reset :: rest →
    ∃ t, step s = .next t ∧ (∀ r : Reg, regValue r t = 0) ∧ t.key.toList = List.replicate 32 0 ∧ t.keyLen = 0 ∧
      t.ctr = zeroBlock ∧ t.ctrValid = false ∧ t.ks = zeroBlock ∧ t.ksValid = false ∧ t.phase = .idle ∧
      (s.phase = .idle → t.mem = s.mem)

/-- R181, R73: a reset while BUSY keeps the writes of some prefix of the command's events, in order, and no other; which prefix
is free (log 9). An illegal word has no event, so its reset leaves the memory. Two clauses are the model's choices, not R181's:
that no host move after the reset races with the command (log 23), and that of a command that waits for an answer a reset keeps
all it has done (log 9, unsafe). -/
def Obligations.ResetWhileBusyKeepsAPrefix : Prop :=
  ∀ (s : State) (rest : List Input), s.phase = .busy → s.inputs = .reset :: rest →
    ∃ t, step s = .next t ∧
      (∀ i u, s.waiting = false → decode s.seq.word = .ok i → exec i { s with inputs := [] } = .next u →
        ∃ k, k ≤ (u.trace.drop s.trace.length).length ∧
          t.mem = replayWrites s.mem ((u.trace.drop s.trace.length).take k)) ∧
      ((fieldsOf s.seq.word).wf = false → t.mem = s.mem) ∧
      (s.waiting = true → t.mem = s.mem)

/-- R180, R22, R32: the state after reset: every register reads 0, and nothing is loaded. The memory, the parameters and the
model's own fields at reset are the model's choices (log 1, 3, 6, 12) and no part of this. -/
def Obligations.ResetStateValues : Prop :=
  (∀ r : Reg, regValue r State.reset = 0) ∧ State.reset.key.toList = List.replicate 32 0 ∧ State.reset.keyLen = 0 ∧
    State.reset.ctr = zeroBlock ∧ State.reset.ctrValid = false ∧ State.reset.ks = zeroBlock ∧
    State.reset.ksValid = false ∧ State.reset.phase = .idle

/-! ### Invariants of every step -/

/-- The invariant holds right after reset. -/
def Obligations.ResetStateMeetsTheInvariant : Prop := State.reset.Inv

/-- Every step keeps the invariant, from any state that meets it. -/
def Obligations.StepKeepsTheInvariant : Prop :=
  ∀ s t : State, s.Inv → step s = .next t → t.Inv

/-- R6: no step changes a parameter of the platform; they stand in the state by the model's choice (log 3). -/
def Obligations.StepKeepsTheParameters : Prop :=
  ∀ s t : State, step s = .next t → t.cfg = s.cfg

/-- R26, R28, R36: only a reset clears KEY_VALID and CTR_VALID. -/
def Obligations.OnlyResetClearsKeyAndCounterValid : Prop :=
  ∀ s t : State, step s = .next t → (∀ rest, s.inputs ≠ .reset :: rest) →
    (s.keyLen ≠ 0 → t.keyLen ≠ 0) ∧ (s.ctrValid = true → t.ctrValid = true)

/-- R25, R51: the data memory changes only by the unit's turn, a reset that aborts a command, or the host's own accesses, and
these change the one byte they name. A step with no move pending is the unit's turn (log 6), and so is one in which a request
stays unanswered (log 9). -/
def Obligations.MemoryChangesOnlyByItsWriters : Prop :=
  ∀ (s t : State) (b : Nat), step s = .next t → t.mem.byteAt b ≠ s.mem.byteAt b →
    (s.phase = .busy ∧ s.waiting = false ∧
        (s.inputs = [] ∨
          ∃ k rest, s.inputs = .unitTurn :: rest ∨ s.inputs = .unitStall k :: rest ∨ s.inputs = .reset :: rest)) ∨
      (∃ v rest, s.inputs = .memWrite b v :: rest) ∨
      (∃ rest, s.inputs = .memRead b :: rest ∧ spansHave s.fpWrites b = true)
end

