-- ==== Sys2Proof/Laws/Bytes.lean ====
section
/-! SUPPORT. Lengths and components of the byte-sequence functions. -/

namespace Sys2Proof.Machine

@[simp] theorem incFromLow_length (bs : List Byte) : (incFromLow bs).length = bs.length := by
  induction bs with
  | nil => rfl
  | cons b bs ih => unfold incFromLow; split <;> simp [ih]

@[simp] theorem incBytes_length (bs : List Byte) : (incBytes bs).length = bs.length := by simp [incBytes]

@[simp] theorem beBytes_length (n v : Nat) : (beBytes n v).length = n := by
  induction n with
  | zero => rfl
  | succ n ih => simp [beBytes, ih]

/-- A padded sequence as a list: the sequence cut to n, then zeros. -/
@[simp] theorem padTo_toList (n : Nat) (bs : List Byte) :
    (padTo n bs).toList = (bs ++ List.replicate n 0).take n := rfl

/-- A sequence that is not too long is padded with zeros. -/
theorem padTo_toList_of_le {n : Nat} {bs : List Byte} (h : bs.length ≤ n) :
    (padTo n bs).toList = bs ++ List.replicate (n - bs.length) 0 := by
  rw [padTo_toList, List.take_append, List.take_of_length_le h, List.take_replicate]
  congr 2
  omega

/-- Padding a sequence of the right length changes nothing. -/
theorem padTo_toList_of_eq {n : Nat} {bs : List Byte} (h : bs.length = n) : (padTo n bs).toList = bs := by
  rw [padTo_toList_of_le (by omega), h, Nat.sub_self, List.replicate_zero, List.append_nil]

/-- A block is its bytes. -/
theorem block_ext {n : Nat} {c d : Vector Byte n} (h : c.toList = d.toList) : c = d := Vector.toList_inj.mp h

@[simp] theorem padTo_toList_self {n : Nat} (c : Vector Byte n) : padTo n c.toList = c :=
  block_ext (padTo_toList_of_eq (by simp))

/-- Inc128 is IncBytes on the 16 bytes (R101). -/
theorem inc128_toList (c : Block) : (inc128 c).toList = incBytes c.toList := padTo_toList_of_eq (by simp)

@[simp] theorem zeroBlock_toList : zeroBlock.toList = List.replicate 16 0 := rfl

@[simp] theorem xorBytes_length (x k : List Byte) : (xorBytes x k).length = min x.length k.length := by simp [xorBytes]

/-- The XOR is byte-wise (R128). -/
theorem xorBytes_getElem (x k : List Byte) {i : Nat} (h : i < (xorBytes x k).length) :
    (xorBytes x k)[i] = x[i]'(by simp at h; omega) ^^^ k[i]'(by simp at h; omega) := by simp [xorBytes]

theorem valBe_append (xs ys : List Byte) : valBe (xs ++ ys) = valBe xs * 256 ^ ys.length + valBe ys := by
  induction xs with
  | nil => simp [valBe]
  | cons x xs ih =>
    simp only [List.cons_append, valBe, ih, List.length_append, pow_add]
    ring

theorem valBe_lt (bs : List Byte) : valBe bs < 256 ^ bs.length := by
  induction bs with
  | nil => simp [valBe]
  | cons b bs ih =>
    have hb : b.toNat ≤ 255 := by have := b.isLt; omega
    have : b.toNat * 256 ^ bs.length ≤ 255 * 256 ^ bs.length := Nat.mul_le_mul_right _ hb
    simp only [valBe, List.length_cons, pow_succ]
    omega

theorem blockBytes_le (m j : Nat) : blockBytes m j ≤ 16 := by unfold blockBytes; omega

end Sys2Proof.Machine
end

