-- ==== Sys2Proof/Laws/Memory.lean ====
section
/-! SUPPORT. What reads and writes of data memory do: read after write, the frame, and the canonical form. -/

namespace Sys2Proof.Machine

@[simp] theorem Memory.byteAt_nil (a : Nat) : Memory.byteAt [] a = 0 := rfl

/-- A cell list canonical from `lo` on lists no address below `lo`. -/
theorem Memory.byteAt_below {lo : Nat} {m : Memory} (h : Memory.wfFrom lo m = true) {a : Nat} (ha : a < lo) :
    m.byteAt a = 0 := by
  induction m generalizing lo with
  | nil => rfl
  | cons c rest ih =>
    obtain ⟨k, v⟩ := c
    simp only [Memory.wfFrom, Bool.and_eq_true, decide_eq_true_eq] at h
    have hk : a ≠ k := by omega
    simp only [Memory.byteAt, hk, if_false]
    exact ih h.2 (by omega)

theorem Memory.wfFrom_mono {lo lo' : Nat} {m : Memory} (h : Memory.wfFrom lo m = true) (hl : lo' ≤ lo) :
    Memory.wfFrom lo' m = true := by
  cases m with
  | nil => rfl
  | cons c rest =>
    obtain ⟨k, v⟩ := c
    simp only [Memory.wfFrom, Bool.and_eq_true, decide_eq_true_eq] at h ⊢
    exact ⟨⟨by omega, h.1.2⟩, h.2⟩

/-- A write leaves every other byte alone. -/
theorem Memory.byteAt_setByte_ne (m : Memory) {a b : Nat} (v : Byte) (h : b ≠ a) :
    (m.setByte a v).byteAt b = m.byteAt b := by
  induction m with
  | nil =>
    unfold Memory.setByte
    split <;> simp [Memory.byteAt, h]
  | cons c rest ih =>
    obtain ⟨k, w⟩ := c
    unfold Memory.setByte
    split
    · split <;> simp [Memory.byteAt, h]
    · split
      · next hk => subst hk; split <;> simp [Memory.byteAt, h]
      · simp [Memory.byteAt, ih]

theorem Memory.byteAt_setByte_eq_from {lo : Nat} {m : Memory} (hm : Memory.wfFrom lo m = true) (a : Nat) (v : Byte) :
    (m.setByte a v).byteAt a = v := by
  induction m generalizing lo with
  | nil =>
    unfold Memory.setByte
    split
    · next h => simp [h, Memory.unlisted]
    · simp [Memory.byteAt]
  | cons c rest ih =>
    obtain ⟨k, w⟩ := c
    simp only [Memory.wfFrom, Bool.and_eq_true, decide_eq_true_eq] at hm
    unfold Memory.setByte
    split
    · next hak =>
      split
      · next hv =>
        have hne : a ≠ k := by omega
        simp only [Memory.byteAt, hne, if_false]
        rw [Memory.byteAt_below hm.2 (by omega), hv]; rfl
      · simp [Memory.byteAt]
    · split
      · next hk =>
        subst hk
        split
        · next hv => rw [Memory.byteAt_below hm.2 (by omega), hv]; rfl
        · simp [Memory.byteAt]
      · next hne =>
        simp only [Memory.byteAt, hne, if_false]
        exact ih hm.2

/-- A read after a write of the same byte gives the value written. -/
theorem Memory.byteAt_setByte_eq {m : Memory} (hm : m.wf = true) (a : Nat) (v : Byte) :
    (m.setByte a v).byteAt a = v := Memory.byteAt_setByte_eq_from hm a v

theorem Memory.setByte_wfFrom {lo : Nat} {m : Memory} (hm : Memory.wfFrom lo m = true) {a : Nat} (ha : lo ≤ a) (v : Byte) :
    Memory.wfFrom lo (m.setByte a v) = true := by
  induction m generalizing lo with
  | nil =>
    unfold Memory.setByte
    split
    · rfl
    · next h => simp [Memory.wfFrom, ha, h]
  | cons c rest ih =>
    obtain ⟨k, w⟩ := c
    have hm' := hm
    simp only [Memory.wfFrom, Bool.and_eq_true, decide_eq_true_eq] at hm
    unfold Memory.setByte
    split
    · next hak =>
      split
      · exact hm'
      · next hv =>
        simp only [Memory.wfFrom, Bool.and_eq_true, decide_eq_true_eq]
        exact ⟨⟨ha, by simpa using hv⟩, ⟨by omega, hm.1.2⟩, hm.2⟩
    · split
      · next hk =>
        subst hk
        split
        · exact Memory.wfFrom_mono hm.2 (by omega)
        · next hv =>
          simp only [Memory.wfFrom, Bool.and_eq_true, decide_eq_true_eq]
          exact ⟨⟨ha, by simpa using hv⟩, hm.2⟩
      · simp only [Memory.wfFrom, Bool.and_eq_true, decide_eq_true_eq]
        exact ⟨hm.1, ih hm.2 (by omega)⟩

/-- A write keeps the canonical form. -/
theorem Memory.setByte_wf {m : Memory} (hm : m.wf = true) (a : Nat) (v : Byte) : (m.setByte a v).wf = true :=
  Memory.setByte_wfFrom hm (Nat.zero_le a) v

/-- A write inside the address space lists no address outside it. -/
theorem Memory.setByte_below {top : Nat} {m : Memory} (hm : m.below top = true) {a : Nat} (ha : a < top) (v : Byte) :
    (m.setByte a v).below top = true := by
  unfold Memory.below at *
  induction m with
  | nil => unfold Memory.setByte; split <;> simp [ha]
  | cons c rest ih =>
    obtain ⟨k, w⟩ := c
    simp only [List.all_cons, Bool.and_eq_true, decide_eq_true_eq] at hm
    unfold Memory.setByte
    split
    · split <;> simp [ha, hm.1, hm.2]
    · split
      · split <;> simp [ha, hm.2]
      · simp [hm.1, ih hm.2]

@[simp] theorem Memory.bytes_length (m : Memory) (a n : Nat) : (m.bytes a n).length = n := by
  induction n generalizing a with
  | zero => rfl
  | succ n ih => simp [Memory.bytes, ih]

/-- Byte i of a range is the byte at base + i (R53). -/
theorem Memory.bytes_getElem (m : Memory) (a n : Nat) {i : Nat} (h : i < (m.bytes a n).length) :
    (m.bytes a n)[i] = m.byteAt (a + i) := by
  induction n generalizing a i with
  | zero => simp [Memory.bytes] at h
  | succ n ih =>
    cases i with
    | zero => simp [Memory.bytes]
    | succ i =>
      simp only [Memory.bytes, List.getElem_cons_succ]
      rw [ih]
      congr 1
      omega

/-- Two memories that agree on a range hold the same bytes there. -/
theorem Memory.bytes_congr {m m' : Memory} {a n : Nat} (h : ∀ i < n, m.byteAt (a + i) = m'.byteAt (a + i)) :
    m.bytes a n = m'.bytes a n := by
  apply List.ext_getElem (by simp)
  intro i h1 h2
  rw [Memory.bytes_getElem, Memory.bytes_getElem]
  exact h i (by simpa using h1)

/-- A range splits at any point. -/
theorem Memory.bytes_append (m : Memory) (a n k : Nat) : m.bytes a (n + k) = m.bytes a n ++ m.bytes (a + n) k := by
  induction n generalizing a with
  | zero => simp [Memory.bytes]
  | succ n ih =>
    have : n + 1 + k = (n + k) + 1 := by omega
    rw [this]
    simp only [Memory.bytes, List.cons_append, ih]
    congr 3
    omega

/-- Writing a range leaves every byte outside it alone. -/
theorem Memory.byteAt_setBytes_ne (m : Memory) {a b : Nat} (bs : List Byte) (h : b < a ∨ a + bs.length ≤ b) :
    (m.setBytes a bs).byteAt b = m.byteAt b := by
  induction bs generalizing m a with
  | nil => rfl
  | cons v bs ih =>
    simp only [List.length_cons] at h
    simp only [Memory.setBytes]
    rw [ih _ (by omega), Memory.byteAt_setByte_ne _ _ (by omega)]

theorem Memory.setBytes_wf {m : Memory} (hm : m.wf = true) (a : Nat) (bs : List Byte) : (m.setBytes a bs).wf = true := by
  induction bs generalizing m a with
  | nil => exact hm
  | cons v bs ih => exact ih (Memory.setByte_wf hm a v) (a + 1)

theorem Memory.setBytes_below {top : Nat} {m : Memory} (hm : m.below top = true) {a : Nat} (bs : List Byte)
    (ha : a + bs.length ≤ top) : (m.setBytes a bs).below top = true := by
  induction bs generalizing m a with
  | nil => exact hm
  | cons v bs ih =>
    simp only [List.length_cons] at ha
    exact ih (Memory.setByte_below hm (by omega) v) (by omega)

/-- Byte i of a range just written is byte i of what was written. -/
theorem Memory.byteAt_setBytes {m : Memory} (hm : m.wf = true) (a : Nat) (bs : List Byte) {i : Nat} (h : i < bs.length) :
    (m.setBytes a bs).byteAt (a + i) = bs[i] := by
  induction bs generalizing m a i with
  | nil => simp at h
  | cons v bs ih =>
    simp only [Memory.setBytes]
    cases i with
    | zero =>
      rw [Memory.byteAt_setBytes_ne _ _ (by omega)]
      simpa using Memory.byteAt_setByte_eq hm a v
    | succ i =>
      have := ih (Memory.setByte_wf hm a v) (a + 1) (i := i) (by simpa using h)
      simp only [List.getElem_cons_succ]
      rw [← this]
      congr 1
      omega

/-- A range just written reads back as what was written. -/
theorem Memory.bytes_setBytes {m : Memory} (hm : m.wf = true) (a : Nat) (bs : List Byte) :
    (m.setBytes a bs).bytes a bs.length = bs := by
  apply List.ext_getElem (by simp)
  intro i h1 h2
  rw [Memory.bytes_getElem, Memory.byteAt_setBytes hm]

end Sys2Proof.Machine
end

