-- ==== Sys2Proof/Laws/State.lean ====
section
/-! SUPPORT. One lemma per field per named update of State, so that no later proof unfolds an update. -/

namespace Sys2Proof.Machine

/-! ### The end of a command -/

@[simp] theorem State.ended_cmd (s : State) : (s.ended).cmd = s.cmd := rfl
@[simp] theorem State.ended_ops (s : State) : (s.ended).ops = s.ops := rfl
@[simp] theorem State.ended_blkcnt (s : State) : (s.ended).blkcnt = s.blkcnt := rfl
@[simp] theorem State.ended_cerr (s : State) : (s.ended).cerr = s.cerr := rfl
@[simp] theorem State.ended_erraddr (s : State) : (s.ended).erraddr = s.erraddr := rfl
@[simp] theorem State.ended_done (s : State) : (s.ended).done = true := rfl
@[simp] theorem State.ended_overrun (s : State) : (s.ended).overrun = s.overrun := rfl
@[simp] theorem State.ended_err (s : State) : (s.ended).err = s.err := rfl
@[simp] theorem State.ended_sub (s : State) : (s.ended).sub = s.sub := rfl
@[simp] theorem State.ended_key (s : State) : (s.ended).key = s.key := rfl
@[simp] theorem State.ended_keyLen (s : State) : (s.ended).keyLen = s.keyLen := rfl
@[simp] theorem State.ended_ctr (s : State) : (s.ended).ctr = s.ctr := rfl
@[simp] theorem State.ended_ctrValid (s : State) : (s.ended).ctrValid = s.ctrValid := rfl
@[simp] theorem State.ended_ks (s : State) : (s.ended).ks = s.ks := rfl
@[simp] theorem State.ended_ksValid (s : State) : (s.ended).ksValid = s.ksValid := rfl
@[simp] theorem State.ended_phase (s : State) : (s.ended).phase = .idle := rfl
@[simp] theorem State.ended_seq (s : State) : (s.ended).seq = seqUnspecified s.draws := rfl
@[simp] theorem State.ended_waiting (s : State) : (s.ended).waiting = false := rfl
@[simp] theorem State.ended_silentAt (s : State) : (s.ended).silentAt = s.silentAt := rfl
@[simp] theorem State.ended_snap (s : State) : (s.ended).snap = s.snap := rfl
@[simp] theorem State.ended_mem (s : State) : (s.ended).mem = s.mem := rfl
@[simp] theorem State.ended_cfg (s : State) : (s.ended).cfg = s.cfg := rfl
@[simp] theorem State.ended_inputs (s : State) : (s.ended).inputs = s.inputs := rfl
@[simp] theorem State.ended_fpReads (s : State) : (s.ended).fpReads = s.fpReads := rfl
@[simp] theorem State.ended_fpWrites (s : State) : (s.ended).fpWrites = s.fpWrites := rfl
@[simp] theorem State.ended_touched (s : State) : (s.ended).touched = s.touched := rfl
@[simp] theorem State.ended_hostData (s : State) : (s.ended).hostData = s.hostData := rfl
@[simp] theorem State.ended_trace (s : State) : (s.ended).trace = s.trace := rfl
@[simp] theorem State.ended_draws (s : State) : (s.ended).draws = s.draws + 3 := rfl

/-! ### `complete` -/

@[simp] theorem State.completed_cmd (s : State) : (s.completed).cmd = s.cmd := rfl
@[simp] theorem State.completed_ops (s : State) : (s.completed).ops = s.ops := rfl
@[simp] theorem State.completed_blkcnt (s : State) : (s.completed).blkcnt = s.blkcnt := rfl
@[simp] theorem State.completed_cerr (s : State) : (s.completed).cerr = s.cerr := rfl
@[simp] theorem State.completed_erraddr (s : State) : (s.completed).erraddr = s.erraddr := rfl
@[simp] theorem State.completed_done (s : State) : (s.completed).done = true := rfl
@[simp] theorem State.completed_overrun (s : State) : (s.completed).overrun = s.overrun := rfl
@[simp] theorem State.completed_err (s : State) : (s.completed).err = .none := rfl
@[simp] theorem State.completed_sub (s : State) : (s.completed).sub = .none := rfl
@[simp] theorem State.completed_key (s : State) : (s.completed).key = s.key := rfl
@[simp] theorem State.completed_keyLen (s : State) : (s.completed).keyLen = s.keyLen := rfl
@[simp] theorem State.completed_ctr (s : State) : (s.completed).ctr = s.ctr := rfl
@[simp] theorem State.completed_ctrValid (s : State) : (s.completed).ctrValid = s.ctrValid := rfl
@[simp] theorem State.completed_ks (s : State) : (s.completed).ks = s.ks := rfl
@[simp] theorem State.completed_ksValid (s : State) : (s.completed).ksValid = s.ksValid := rfl
@[simp] theorem State.completed_phase (s : State) : (s.completed).phase = .idle := rfl
@[simp] theorem State.completed_seq (s : State) : (s.completed).seq = seqUnspecified s.draws := rfl
@[simp] theorem State.completed_waiting (s : State) : (s.completed).waiting = false := rfl
@[simp] theorem State.completed_silentAt (s : State) : (s.completed).silentAt = s.silentAt := rfl
@[simp] theorem State.completed_snap (s : State) : (s.completed).snap = s.snap := rfl
@[simp] theorem State.completed_mem (s : State) : (s.completed).mem = s.mem := rfl
@[simp] theorem State.completed_cfg (s : State) : (s.completed).cfg = s.cfg := rfl
@[simp] theorem State.completed_inputs (s : State) : (s.completed).inputs = s.inputs := rfl
@[simp] theorem State.completed_fpReads (s : State) : (s.completed).fpReads = s.fpReads := rfl
@[simp] theorem State.completed_fpWrites (s : State) : (s.completed).fpWrites = s.fpWrites := rfl
@[simp] theorem State.completed_touched (s : State) : (s.completed).touched = s.touched := rfl
@[simp] theorem State.completed_hostData (s : State) : (s.completed).hostData = s.hostData := rfl
@[simp] theorem State.completed_trace (s : State) : (s.completed).trace = s.trace := rfl
@[simp] theorem State.completed_draws (s : State) : (s.completed).draws = s.draws + 3 := rfl

/-! ### `raise E` -/

@[simp] theorem State.raised_cmd (s : State) (e : CmdError) : (s.raised e).cmd = s.cmd := by cases e <;> rfl
@[simp] theorem State.raised_ops (s : State) (e : CmdError) : (s.raised e).ops = s.ops := by cases e <;> rfl
@[simp] theorem State.raised_blkcnt (s : State) (e : CmdError) : (s.raised e).blkcnt = s.blkcnt := by cases e <;> rfl
@[simp] theorem State.raised_done (s : State) (e : CmdError) : (s.raised e).done = true := by cases e <;> rfl
@[simp] theorem State.raised_overrun (s : State) (e : CmdError) : (s.raised e).overrun = s.overrun := by cases e <;> rfl
@[simp] theorem State.raised_key (s : State) (e : CmdError) : (s.raised e).key = s.key := by cases e <;> rfl
@[simp] theorem State.raised_keyLen (s : State) (e : CmdError) : (s.raised e).keyLen = s.keyLen := by cases e <;> rfl
@[simp] theorem State.raised_ctr (s : State) (e : CmdError) : (s.raised e).ctr = s.ctr := by cases e <;> rfl
@[simp] theorem State.raised_ctrValid (s : State) (e : CmdError) : (s.raised e).ctrValid = s.ctrValid := by cases e <;> rfl
@[simp] theorem State.raised_ks (s : State) (e : CmdError) : (s.raised e).ks = s.ks := by cases e <;> rfl
@[simp] theorem State.raised_ksValid (s : State) (e : CmdError) : (s.raised e).ksValid = s.ksValid := by cases e <;> rfl
@[simp] theorem State.raised_phase (s : State) (e : CmdError) : (s.raised e).phase = .idle := by cases e <;> rfl
@[simp] theorem State.raised_seq (s : State) (e : CmdError) : (s.raised e).seq = seqUnspecified s.draws := by cases e <;> rfl
@[simp] theorem State.raised_waiting (s : State) (e : CmdError) : (s.raised e).waiting = false := by cases e <;> rfl
@[simp] theorem State.raised_silentAt (s : State) (e : CmdError) : (s.raised e).silentAt = s.silentAt := by cases e <;> rfl
@[simp] theorem State.raised_snap (s : State) (e : CmdError) : (s.raised e).snap = s.snap := by cases e <;> rfl
@[simp] theorem State.raised_mem (s : State) (e : CmdError) : (s.raised e).mem = s.mem := by cases e <;> rfl
@[simp] theorem State.raised_cfg (s : State) (e : CmdError) : (s.raised e).cfg = s.cfg := by cases e <;> rfl
@[simp] theorem State.raised_inputs (s : State) (e : CmdError) : (s.raised e).inputs = s.inputs := by cases e <;> rfl
@[simp] theorem State.raised_fpReads (s : State) (e : CmdError) : (s.raised e).fpReads = s.fpReads := by cases e <;> rfl
@[simp] theorem State.raised_fpWrites (s : State) (e : CmdError) : (s.raised e).fpWrites = s.fpWrites := by cases e <;> rfl
@[simp] theorem State.raised_touched (s : State) (e : CmdError) : (s.raised e).touched = s.touched := by cases e <;> rfl
@[simp] theorem State.raised_hostData (s : State) (e : CmdError) : (s.raised e).hostData = s.hostData := by cases e <;> rfl
@[simp] theorem State.raised_trace (s : State) (e : CmdError) : (s.raised e).trace = s.trace := by cases e <;> rfl
@[simp] theorem State.raised_draws (s : State) (e : CmdError) : (s.raised e).draws = s.draws + 3 := by cases e <;> rfl

/-! ### The record of each error (R155) -/

@[simp] theorem State.raised_invalid_err (s : State) (c : SubCause) : (s.raised (.invalid c)).err = .invalidArgument := rfl
@[simp] theorem State.raised_invalid_sub (s : State) (c : SubCause) : (s.raised (.invalid c)).sub = c := rfl
@[simp] theorem State.raised_invalid_cerr (s : State) (c : SubCause) : (s.raised (.invalid c)).cerr = s.cerr := rfl
@[simp] theorem State.raised_invalid_erraddr (s : State) (c : SubCause) : (s.raised (.invalid c)).erraddr = s.erraddr := rfl
@[simp] theorem State.raised_cipher_err (s : State) (w : Word) : (s.raised (.cipher w)).err = .cipherError := rfl
@[simp] theorem State.raised_cipher_sub (s : State) (w : Word) : (s.raised (.cipher w)).sub = .none := rfl
@[simp] theorem State.raised_cipher_cerr (s : State) (w : Word) : (s.raised (.cipher w)).cerr = w := rfl
@[simp] theorem State.raised_cipher_erraddr (s : State) (w : Word) : (s.raised (.cipher w)).erraddr = s.erraddr := rfl
@[simp] theorem State.raised_bus_err (s : State) (a : Nat) : (s.raised (.bus a)).err = .busError := rfl
@[simp] theorem State.raised_bus_sub (s : State) (a : Nat) : (s.raised (.bus a)).sub = .none := rfl
@[simp] theorem State.raised_bus_cerr (s : State) (a : Nat) : (s.raised (.bus a)).cerr = s.cerr := rfl
@[simp] theorem State.raised_bus_erraddr (s : State) (a : Nat) : (s.raised (.bus a)).erraddr = BitVec.ofNat 32 a := rfl
@[simp] theorem State.raised_illegal_err (s : State) : (s.raised (.illegal)).err = .illegalCommand := rfl
@[simp] theorem State.raised_illegal_sub (s : State) : (s.raised (.illegal)).sub = .none := rfl
@[simp] theorem State.raised_illegal_cerr (s : State) : (s.raised (.illegal)).cerr = s.cerr := rfl
@[simp] theorem State.raised_illegal_erraddr (s : State) : (s.raised (.illegal)).erraddr = s.erraddr := rfl

/-! ### A request that is never answered -/

@[simp] theorem State.stalled_cmd (s : State) : (s.stalled).cmd = s.cmd := rfl
@[simp] theorem State.stalled_ops (s : State) : (s.stalled).ops = s.ops := rfl
@[simp] theorem State.stalled_blkcnt (s : State) : (s.stalled).blkcnt = s.blkcnt := rfl
@[simp] theorem State.stalled_cerr (s : State) : (s.stalled).cerr = s.cerr := rfl
@[simp] theorem State.stalled_erraddr (s : State) : (s.stalled).erraddr = s.erraddr := rfl
@[simp] theorem State.stalled_done (s : State) : (s.stalled).done = s.done := rfl
@[simp] theorem State.stalled_overrun (s : State) : (s.stalled).overrun = s.overrun := rfl
@[simp] theorem State.stalled_err (s : State) : (s.stalled).err = s.err := rfl
@[simp] theorem State.stalled_sub (s : State) : (s.stalled).sub = s.sub := rfl
@[simp] theorem State.stalled_key (s : State) : (s.stalled).key = s.key := rfl
@[simp] theorem State.stalled_keyLen (s : State) : (s.stalled).keyLen = s.keyLen := rfl
@[simp] theorem State.stalled_ctr (s : State) : (s.stalled).ctr = s.ctr := rfl
@[simp] theorem State.stalled_ctrValid (s : State) : (s.stalled).ctrValid = s.ctrValid := rfl
@[simp] theorem State.stalled_ks (s : State) : (s.stalled).ks = s.ks := rfl
@[simp] theorem State.stalled_ksValid (s : State) : (s.stalled).ksValid = s.ksValid := rfl
@[simp] theorem State.stalled_phase (s : State) : (s.stalled).phase = s.phase := rfl
@[simp] theorem State.stalled_seq (s : State) : (s.stalled).seq = s.seq := rfl
@[simp] theorem State.stalled_waiting (s : State) : (s.stalled).waiting = true := rfl
@[simp] theorem State.stalled_silentAt (s : State) : (s.stalled).silentAt = s.silentAt := rfl
@[simp] theorem State.stalled_snap (s : State) : (s.stalled).snap = s.snap := rfl
@[simp] theorem State.stalled_mem (s : State) : (s.stalled).mem = s.mem := rfl
@[simp] theorem State.stalled_cfg (s : State) : (s.stalled).cfg = s.cfg := rfl
@[simp] theorem State.stalled_inputs (s : State) : (s.stalled).inputs = s.inputs := rfl
@[simp] theorem State.stalled_fpReads (s : State) : (s.stalled).fpReads = s.fpReads := rfl
@[simp] theorem State.stalled_fpWrites (s : State) : (s.stalled).fpWrites = s.fpWrites := rfl
@[simp] theorem State.stalled_touched (s : State) : (s.stalled).touched = s.touched := rfl
@[simp] theorem State.stalled_hostData (s : State) : (s.stalled).hostData = s.hostData := rfl
@[simp] theorem State.stalled_trace (s : State) : (s.stalled).trace = s.trace := rfl
@[simp] theorem State.stalled_draws (s : State) : (s.stalled).draws = s.draws := rfl

/-! ### The window closes -/

@[simp] theorem State.synced_cmd (s : State) : (s.synced).cmd = s.cmd := rfl
@[simp] theorem State.synced_ops (s : State) : (s.synced).ops = s.ops := rfl
@[simp] theorem State.synced_blkcnt (s : State) : (s.synced).blkcnt = s.blkcnt := rfl
@[simp] theorem State.synced_cerr (s : State) : (s.synced).cerr = s.cerr := rfl
@[simp] theorem State.synced_erraddr (s : State) : (s.synced).erraddr = s.erraddr := rfl
@[simp] theorem State.synced_done (s : State) : (s.synced).done = s.done := rfl
@[simp] theorem State.synced_overrun (s : State) : (s.synced).overrun = s.overrun := rfl
@[simp] theorem State.synced_err (s : State) : (s.synced).err = s.err := rfl
@[simp] theorem State.synced_sub (s : State) : (s.synced).sub = s.sub := rfl
@[simp] theorem State.synced_key (s : State) : (s.synced).key = s.key := rfl
@[simp] theorem State.synced_keyLen (s : State) : (s.synced).keyLen = s.keyLen := rfl
@[simp] theorem State.synced_ctr (s : State) : (s.synced).ctr = s.ctr := rfl
@[simp] theorem State.synced_ctrValid (s : State) : (s.synced).ctrValid = s.ctrValid := rfl
@[simp] theorem State.synced_ks (s : State) : (s.synced).ks = s.ks := rfl
@[simp] theorem State.synced_ksValid (s : State) : (s.synced).ksValid = s.ksValid := rfl
@[simp] theorem State.synced_phase (s : State) : (s.synced).phase = s.phase := rfl
@[simp] theorem State.synced_seq (s : State) : (s.synced).seq = s.seq := rfl
@[simp] theorem State.synced_waiting (s : State) : (s.synced).waiting = s.waiting := rfl
@[simp] theorem State.synced_silentAt (s : State) : (s.synced).silentAt = s.silentAt := rfl
@[simp] theorem State.synced_snap (s : State) : (s.synced).snap = s.snap := rfl
@[simp] theorem State.synced_mem (s : State) : (s.synced).mem = s.mem := rfl
@[simp] theorem State.synced_cfg (s : State) : (s.synced).cfg = s.cfg := rfl
@[simp] theorem State.synced_inputs (s : State) : (s.synced).inputs = s.inputs := rfl
@[simp] theorem State.synced_fpReads (s : State) : (s.synced).fpReads = [] := rfl
@[simp] theorem State.synced_fpWrites (s : State) : (s.synced).fpWrites = [] := rfl
@[simp] theorem State.synced_touched (s : State) : (s.synced).touched = [] := rfl
@[simp] theorem State.synced_hostData (s : State) : (s.synced).hostData = s.hostData := rfl
@[simp] theorem State.synced_trace (s : State) : (s.synced).trace = s.trace := rfl
@[simp] theorem State.synced_draws (s : State) : (s.synced).draws = s.draws := rfl

/-! ### The end or abort of XFORM -/

@[simp] theorem State.keystreamDropped_cmd (s : State) (n : Nat) : (s.keystreamDropped n).cmd = s.cmd := rfl
@[simp] theorem State.keystreamDropped_ops (s : State) (n : Nat) : (s.keystreamDropped n).ops = s.ops := rfl
@[simp] theorem State.keystreamDropped_blkcnt (s : State) (n : Nat) : (s.keystreamDropped n).blkcnt = BitVec.ofNat 32 n := rfl
@[simp] theorem State.keystreamDropped_cerr (s : State) (n : Nat) : (s.keystreamDropped n).cerr = s.cerr := rfl
@[simp] theorem State.keystreamDropped_erraddr (s : State) (n : Nat) : (s.keystreamDropped n).erraddr = s.erraddr := rfl
@[simp] theorem State.keystreamDropped_done (s : State) (n : Nat) : (s.keystreamDropped n).done = s.done := rfl
@[simp] theorem State.keystreamDropped_overrun (s : State) (n : Nat) : (s.keystreamDropped n).overrun = s.overrun := rfl
@[simp] theorem State.keystreamDropped_err (s : State) (n : Nat) : (s.keystreamDropped n).err = s.err := rfl
@[simp] theorem State.keystreamDropped_sub (s : State) (n : Nat) : (s.keystreamDropped n).sub = s.sub := rfl
@[simp] theorem State.keystreamDropped_key (s : State) (n : Nat) : (s.keystreamDropped n).key = s.key := rfl
@[simp] theorem State.keystreamDropped_keyLen (s : State) (n : Nat) : (s.keystreamDropped n).keyLen = s.keyLen := rfl
@[simp] theorem State.keystreamDropped_ctr (s : State) (n : Nat) : (s.keystreamDropped n).ctr = s.ctr := rfl
@[simp] theorem State.keystreamDropped_ctrValid (s : State) (n : Nat) : (s.keystreamDropped n).ctrValid = s.ctrValid := rfl
@[simp] theorem State.keystreamDropped_ks (s : State) (n : Nat) : (s.keystreamDropped n).ks = zeroBlock := rfl
@[simp] theorem State.keystreamDropped_ksValid (s : State) (n : Nat) : (s.keystreamDropped n).ksValid = false := rfl
@[simp] theorem State.keystreamDropped_phase (s : State) (n : Nat) : (s.keystreamDropped n).phase = s.phase := rfl
@[simp] theorem State.keystreamDropped_seq (s : State) (n : Nat) : (s.keystreamDropped n).seq = s.seq := rfl
@[simp] theorem State.keystreamDropped_waiting (s : State) (n : Nat) : (s.keystreamDropped n).waiting = s.waiting := rfl
@[simp] theorem State.keystreamDropped_silentAt (s : State) (n : Nat) : (s.keystreamDropped n).silentAt = s.silentAt := rfl
@[simp] theorem State.keystreamDropped_snap (s : State) (n : Nat) : (s.keystreamDropped n).snap = s.snap := rfl
@[simp] theorem State.keystreamDropped_mem (s : State) (n : Nat) : (s.keystreamDropped n).mem = s.mem := rfl
@[simp] theorem State.keystreamDropped_cfg (s : State) (n : Nat) : (s.keystreamDropped n).cfg = s.cfg := rfl
@[simp] theorem State.keystreamDropped_inputs (s : State) (n : Nat) : (s.keystreamDropped n).inputs = s.inputs := rfl
@[simp] theorem State.keystreamDropped_fpReads (s : State) (n : Nat) : (s.keystreamDropped n).fpReads = s.fpReads := rfl
@[simp] theorem State.keystreamDropped_fpWrites (s : State) (n : Nat) : (s.keystreamDropped n).fpWrites = s.fpWrites := rfl
@[simp] theorem State.keystreamDropped_touched (s : State) (n : Nat) : (s.keystreamDropped n).touched = s.touched := rfl
@[simp] theorem State.keystreamDropped_hostData (s : State) (n : Nat) : (s.keystreamDropped n).hostData = s.hostData := rfl
@[simp] theorem State.keystreamDropped_trace (s : State) (n : Nat) : (s.keystreamDropped n).trace = s.trace := rfl
@[simp] theorem State.keystreamDropped_draws (s : State) (n : Nat) : (s.keystreamDropped n).draws = s.draws := rfl

/-! ### INCBUF's index -/

@[simp] theorem State.atByte_cmd (s : State) (i : Nat) : (s.atByte i).cmd = s.cmd := rfl
@[simp] theorem State.atByte_ops (s : State) (i : Nat) : (s.atByte i).ops = s.ops := rfl
@[simp] theorem State.atByte_blkcnt (s : State) (i : Nat) : (s.atByte i).blkcnt = s.blkcnt := rfl
@[simp] theorem State.atByte_cerr (s : State) (i : Nat) : (s.atByte i).cerr = s.cerr := rfl
@[simp] theorem State.atByte_erraddr (s : State) (i : Nat) : (s.atByte i).erraddr = s.erraddr := rfl
@[simp] theorem State.atByte_done (s : State) (i : Nat) : (s.atByte i).done = s.done := rfl
@[simp] theorem State.atByte_overrun (s : State) (i : Nat) : (s.atByte i).overrun = s.overrun := rfl
@[simp] theorem State.atByte_err (s : State) (i : Nat) : (s.atByte i).err = s.err := rfl
@[simp] theorem State.atByte_sub (s : State) (i : Nat) : (s.atByte i).sub = s.sub := rfl
@[simp] theorem State.atByte_key (s : State) (i : Nat) : (s.atByte i).key = s.key := rfl
@[simp] theorem State.atByte_keyLen (s : State) (i : Nat) : (s.atByte i).keyLen = s.keyLen := rfl
@[simp] theorem State.atByte_ctr (s : State) (i : Nat) : (s.atByte i).ctr = s.ctr := rfl
@[simp] theorem State.atByte_ctrValid (s : State) (i : Nat) : (s.atByte i).ctrValid = s.ctrValid := rfl
@[simp] theorem State.atByte_ks (s : State) (i : Nat) : (s.atByte i).ks = s.ks := rfl
@[simp] theorem State.atByte_ksValid (s : State) (i : Nat) : (s.atByte i).ksValid = s.ksValid := rfl
@[simp] theorem State.atByte_phase (s : State) (i : Nat) : (s.atByte i).phase = s.phase := rfl
@[simp] theorem State.atByte_seq (s : State) (i : Nat) : (s.atByte i).seq = { s.seq with idx := i } := rfl
@[simp] theorem State.atByte_waiting (s : State) (i : Nat) : (s.atByte i).waiting = s.waiting := rfl
@[simp] theorem State.atByte_silentAt (s : State) (i : Nat) : (s.atByte i).silentAt = s.silentAt := rfl
@[simp] theorem State.atByte_snap (s : State) (i : Nat) : (s.atByte i).snap = s.snap := rfl
@[simp] theorem State.atByte_mem (s : State) (i : Nat) : (s.atByte i).mem = s.mem := rfl
@[simp] theorem State.atByte_cfg (s : State) (i : Nat) : (s.atByte i).cfg = s.cfg := rfl
@[simp] theorem State.atByte_inputs (s : State) (i : Nat) : (s.atByte i).inputs = s.inputs := rfl
@[simp] theorem State.atByte_fpReads (s : State) (i : Nat) : (s.atByte i).fpReads = s.fpReads := rfl
@[simp] theorem State.atByte_fpWrites (s : State) (i : Nat) : (s.atByte i).fpWrites = s.fpWrites := rfl
@[simp] theorem State.atByte_touched (s : State) (i : Nat) : (s.atByte i).touched = s.touched := rfl
@[simp] theorem State.atByte_hostData (s : State) (i : Nat) : (s.atByte i).hostData = s.hostData := rfl
@[simp] theorem State.atByte_trace (s : State) (i : Nat) : (s.atByte i).trace = s.trace := rfl
@[simp] theorem State.atByte_draws (s : State) (i : Nat) : (s.atByte i).draws = s.draws := rfl

/-! ### XFORM's index -/

@[simp] theorem State.atBlock_cmd (s : State) (j : Nat) : (s.atBlock j).cmd = s.cmd := rfl
@[simp] theorem State.atBlock_ops (s : State) (j : Nat) : (s.atBlock j).ops = s.ops := rfl
@[simp] theorem State.atBlock_blkcnt (s : State) (j : Nat) : (s.atBlock j).blkcnt = s.blkcnt := rfl
@[simp] theorem State.atBlock_cerr (s : State) (j : Nat) : (s.atBlock j).cerr = s.cerr := rfl
@[simp] theorem State.atBlock_erraddr (s : State) (j : Nat) : (s.atBlock j).erraddr = s.erraddr := rfl
@[simp] theorem State.atBlock_done (s : State) (j : Nat) : (s.atBlock j).done = s.done := rfl
@[simp] theorem State.atBlock_overrun (s : State) (j : Nat) : (s.atBlock j).overrun = s.overrun := rfl
@[simp] theorem State.atBlock_err (s : State) (j : Nat) : (s.atBlock j).err = s.err := rfl
@[simp] theorem State.atBlock_sub (s : State) (j : Nat) : (s.atBlock j).sub = s.sub := rfl
@[simp] theorem State.atBlock_key (s : State) (j : Nat) : (s.atBlock j).key = s.key := rfl
@[simp] theorem State.atBlock_keyLen (s : State) (j : Nat) : (s.atBlock j).keyLen = s.keyLen := rfl
@[simp] theorem State.atBlock_ctr (s : State) (j : Nat) : (s.atBlock j).ctr = s.ctr := rfl
@[simp] theorem State.atBlock_ctrValid (s : State) (j : Nat) : (s.atBlock j).ctrValid = s.ctrValid := rfl
@[simp] theorem State.atBlock_ks (s : State) (j : Nat) : (s.atBlock j).ks = s.ks := rfl
@[simp] theorem State.atBlock_ksValid (s : State) (j : Nat) : (s.atBlock j).ksValid = s.ksValid := rfl
@[simp] theorem State.atBlock_phase (s : State) (j : Nat) : (s.atBlock j).phase = s.phase := rfl
@[simp] theorem State.atBlock_seq (s : State) (j : Nat) : (s.atBlock j).seq = { s.seq with blk := j } := rfl
@[simp] theorem State.atBlock_waiting (s : State) (j : Nat) : (s.atBlock j).waiting = s.waiting := rfl
@[simp] theorem State.atBlock_silentAt (s : State) (j : Nat) : (s.atBlock j).silentAt = s.silentAt := rfl
@[simp] theorem State.atBlock_snap (s : State) (j : Nat) : (s.atBlock j).snap = s.snap := rfl
@[simp] theorem State.atBlock_mem (s : State) (j : Nat) : (s.atBlock j).mem = s.mem := rfl
@[simp] theorem State.atBlock_cfg (s : State) (j : Nat) : (s.atBlock j).cfg = s.cfg := rfl
@[simp] theorem State.atBlock_inputs (s : State) (j : Nat) : (s.atBlock j).inputs = s.inputs := rfl
@[simp] theorem State.atBlock_fpReads (s : State) (j : Nat) : (s.atBlock j).fpReads = s.fpReads := rfl
@[simp] theorem State.atBlock_fpWrites (s : State) (j : Nat) : (s.atBlock j).fpWrites = s.fpWrites := rfl
@[simp] theorem State.atBlock_touched (s : State) (j : Nat) : (s.atBlock j).touched = s.touched := rfl
@[simp] theorem State.atBlock_hostData (s : State) (j : Nat) : (s.atBlock j).hostData = s.hostData := rfl
@[simp] theorem State.atBlock_trace (s : State) (j : Nat) : (s.atBlock j).trace = s.trace := rfl
@[simp] theorem State.atBlock_draws (s : State) (j : Nat) : (s.atBlock j).draws = s.draws := rfl

/-! ### XFORM past its validation -/

@[simp] theorem State.xformStarted_cmd (s : State) (n : Nat) : (s.xformStarted n).cmd = s.cmd := rfl
@[simp] theorem State.xformStarted_ops (s : State) (n : Nat) : (s.xformStarted n).ops = s.ops := rfl
@[simp] theorem State.xformStarted_blkcnt (s : State) (n : Nat) : (s.xformStarted n).blkcnt = 0 := rfl
@[simp] theorem State.xformStarted_cerr (s : State) (n : Nat) : (s.xformStarted n).cerr = s.cerr := rfl
@[simp] theorem State.xformStarted_erraddr (s : State) (n : Nat) : (s.xformStarted n).erraddr = s.erraddr := rfl
@[simp] theorem State.xformStarted_done (s : State) (n : Nat) : (s.xformStarted n).done = s.done := rfl
@[simp] theorem State.xformStarted_overrun (s : State) (n : Nat) : (s.xformStarted n).overrun = s.overrun := rfl
@[simp] theorem State.xformStarted_err (s : State) (n : Nat) : (s.xformStarted n).err = s.err := rfl
@[simp] theorem State.xformStarted_sub (s : State) (n : Nat) : (s.xformStarted n).sub = s.sub := rfl
@[simp] theorem State.xformStarted_key (s : State) (n : Nat) : (s.xformStarted n).key = s.key := rfl
@[simp] theorem State.xformStarted_keyLen (s : State) (n : Nat) : (s.xformStarted n).keyLen = s.keyLen := rfl
@[simp] theorem State.xformStarted_ctr (s : State) (n : Nat) : (s.xformStarted n).ctr = s.ctr := rfl
@[simp] theorem State.xformStarted_ctrValid (s : State) (n : Nat) : (s.xformStarted n).ctrValid = s.ctrValid := rfl
@[simp] theorem State.xformStarted_ks (s : State) (n : Nat) : (s.xformStarted n).ks = s.ks := rfl
@[simp] theorem State.xformStarted_ksValid (s : State) (n : Nat) : (s.xformStarted n).ksValid = s.ksValid := rfl
@[simp] theorem State.xformStarted_phase (s : State) (n : Nat) : (s.xformStarted n).phase = s.phase := rfl
@[simp] theorem State.xformStarted_seq (s : State) (n : Nat) : (s.xformStarted n).seq = { s.seq with nblk := n } := rfl
@[simp] theorem State.xformStarted_waiting (s : State) (n : Nat) : (s.xformStarted n).waiting = s.waiting := rfl
@[simp] theorem State.xformStarted_silentAt (s : State) (n : Nat) : (s.xformStarted n).silentAt = s.silentAt := rfl
@[simp] theorem State.xformStarted_snap (s : State) (n : Nat) : (s.xformStarted n).snap = s.snap := rfl
@[simp] theorem State.xformStarted_mem (s : State) (n : Nat) : (s.xformStarted n).mem = s.mem := rfl
@[simp] theorem State.xformStarted_cfg (s : State) (n : Nat) : (s.xformStarted n).cfg = s.cfg := rfl
@[simp] theorem State.xformStarted_inputs (s : State) (n : Nat) : (s.xformStarted n).inputs = s.inputs := rfl
@[simp] theorem State.xformStarted_fpReads (s : State) (n : Nat) : (s.xformStarted n).fpReads = s.fpReads := rfl
@[simp] theorem State.xformStarted_fpWrites (s : State) (n : Nat) : (s.xformStarted n).fpWrites = s.fpWrites := rfl
@[simp] theorem State.xformStarted_touched (s : State) (n : Nat) : (s.xformStarted n).touched = s.touched := rfl
@[simp] theorem State.xformStarted_hostData (s : State) (n : Nat) : (s.xformStarted n).hostData = s.hostData := rfl
@[simp] theorem State.xformStarted_trace (s : State) (n : Nat) : (s.xformStarted n).trace = s.trace := rfl
@[simp] theorem State.xformStarted_draws (s : State) (n : Nat) : (s.xformStarted n).draws = s.draws := rfl

/-! ### Acceptance -/

@[simp] theorem accept_cmd (w : Word) (s : State) : (accept w s).cmd = w := rfl
@[simp] theorem accept_ops (w : Word) (s : State) : (accept w s).ops = s.ops := rfl
@[simp] theorem accept_blkcnt (w : Word) (s : State) : (accept w s).blkcnt = s.blkcnt := rfl
@[simp] theorem accept_cerr (w : Word) (s : State) : (accept w s).cerr = 0 := rfl
@[simp] theorem accept_erraddr (w : Word) (s : State) : (accept w s).erraddr = 0 := rfl
@[simp] theorem accept_done (w : Word) (s : State) : (accept w s).done = false := rfl
@[simp] theorem accept_overrun (w : Word) (s : State) : (accept w s).overrun = s.overrun := rfl
@[simp] theorem accept_err (w : Word) (s : State) : (accept w s).err = .none := rfl
@[simp] theorem accept_sub (w : Word) (s : State) : (accept w s).sub = .none := rfl
@[simp] theorem accept_key (w : Word) (s : State) : (accept w s).key = s.key := rfl
@[simp] theorem accept_keyLen (w : Word) (s : State) : (accept w s).keyLen = s.keyLen := rfl
@[simp] theorem accept_ctr (w : Word) (s : State) : (accept w s).ctr = s.ctr := rfl
@[simp] theorem accept_ctrValid (w : Word) (s : State) : (accept w s).ctrValid = s.ctrValid := rfl
@[simp] theorem accept_ks (w : Word) (s : State) : (accept w s).ks = s.ks := rfl
@[simp] theorem accept_ksValid (w : Word) (s : State) : (accept w s).ksValid = s.ksValid := rfl
@[simp] theorem accept_phase (w : Word) (s : State) : (accept w s).phase = .busy := rfl
@[simp] theorem accept_seq (w : Word) (s : State) : (accept w s).seq = startSeq w s.ops := rfl
@[simp] theorem accept_waiting (w : Word) (s : State) : (accept w s).waiting = false := rfl
@[simp] theorem accept_silentAt (w : Word) (s : State) : (accept w s).silentAt = s.silentAt := rfl
@[simp] theorem accept_snap (w : Word) (s : State) : (accept w s).snap = s.ops := rfl
@[simp] theorem accept_mem (w : Word) (s : State) : (accept w s).mem = s.mem := rfl
@[simp] theorem accept_cfg (w : Word) (s : State) : (accept w s).cfg = s.cfg := rfl
@[simp] theorem accept_inputs (w : Word) (s : State) : (accept w s).inputs = s.inputs := rfl
@[simp] theorem accept_touched (w : Word) (s : State) : (accept w s).touched = s.touched := rfl
@[simp] theorem accept_hostData (w : Word) (s : State) : (accept w s).hostData = s.hostData := rfl
@[simp] theorem accept_trace (w : Word) (s : State) : (accept w s).trace = s.trace := rfl
@[simp] theorem accept_draws (w : Word) (s : State) : (accept w s).draws = s.draws := rfl

@[simp] theorem startSeq_word (w : Word) (o : Operands) : (startSeq w o).word = w := rfl

/-! ### Reset -/

@[simp] theorem resetRegisters_cmd (s : State) : (resetRegisters s).cmd = 0 := rfl
@[simp] theorem resetRegisters_ops (s : State) : (resetRegisters s).ops = Operands.zero := rfl
@[simp] theorem resetRegisters_blkcnt (s : State) : (resetRegisters s).blkcnt = 0 := rfl
@[simp] theorem resetRegisters_cerr (s : State) : (resetRegisters s).cerr = 0 := rfl
@[simp] theorem resetRegisters_erraddr (s : State) : (resetRegisters s).erraddr = 0 := rfl
@[simp] theorem resetRegisters_done (s : State) : (resetRegisters s).done = false := rfl
@[simp] theorem resetRegisters_overrun (s : State) : (resetRegisters s).overrun = false := rfl
@[simp] theorem resetRegisters_err (s : State) : (resetRegisters s).err = .none := rfl
@[simp] theorem resetRegisters_sub (s : State) : (resetRegisters s).sub = .none := rfl
@[simp] theorem resetRegisters_key (s : State) : (resetRegisters s).key = padTo 32 [] := rfl
@[simp] theorem resetRegisters_keyLen (s : State) : (resetRegisters s).keyLen = 0 := rfl
@[simp] theorem resetRegisters_ctr (s : State) : (resetRegisters s).ctr = zeroBlock := rfl
@[simp] theorem resetRegisters_ctrValid (s : State) : (resetRegisters s).ctrValid = false := rfl
@[simp] theorem resetRegisters_ks (s : State) : (resetRegisters s).ks = zeroBlock := rfl
@[simp] theorem resetRegisters_ksValid (s : State) : (resetRegisters s).ksValid = false := rfl
@[simp] theorem resetRegisters_phase (s : State) : (resetRegisters s).phase = .idle := rfl
@[simp] theorem resetRegisters_seq (s : State) : (resetRegisters s).seq = seqUnspecified s.draws := rfl
@[simp] theorem resetRegisters_waiting (s : State) : (resetRegisters s).waiting = false := rfl
@[simp] theorem resetRegisters_silentAt (s : State) : (resetRegisters s).silentAt = s.silentAt := rfl
@[simp] theorem resetRegisters_snap (s : State) : (resetRegisters s).snap = Operands.zero := rfl
@[simp] theorem resetRegisters_mem (s : State) : (resetRegisters s).mem = s.mem := rfl
@[simp] theorem resetRegisters_cfg (s : State) : (resetRegisters s).cfg = s.cfg := rfl
@[simp] theorem resetRegisters_inputs (s : State) : (resetRegisters s).inputs = s.inputs := rfl
@[simp] theorem resetRegisters_fpReads (s : State) : (resetRegisters s).fpReads = [] := rfl
@[simp] theorem resetRegisters_fpWrites (s : State) : (resetRegisters s).fpWrites = [] := rfl
@[simp] theorem resetRegisters_touched (s : State) : (resetRegisters s).touched = [] := rfl
@[simp] theorem resetRegisters_hostData (s : State) : (resetRegisters s).hostData = s.hostData := rfl
@[simp] theorem resetRegisters_trace (s : State) : (resetRegisters s).trace = s.trace := rfl
@[simp] theorem resetRegisters_draws (s : State) : (resetRegisters s).draws = s.draws + 3 := rfl

end Sys2Proof.Machine
end

