-- ==== Sys2Proof/Laws/Ops.lean ====
section
/-! SUPPORT. What each shared operation can do, said once: on the state it changes, when every byte is admitted and answered
and no race is on, at the first refused byte, and at the first unanswered request. -/

namespace Sys2Proof.Machine

/-! ### Runs -/

@[simp] theorem Run.bind_ok {α β : Type} (a : α) (s : State) (f : α → State → Run β) : (Run.ok a s).bind f = f a s := rfl

@[simp] theorem Run.bind_raise {α β : Type} (e : CmdError) (s : State) (f : α → State → Run β) :
    (Run.raise e s : Run α).bind f = .raise e s := rfl

@[simp] theorem Run.bind_wait {α β : Type} (s : State) (f : α → State → Run β) :
    (Run.wait s : Run α).bind f = .wait s := rfl

@[simp] theorem Run.state_wait {α : Type} (s : State) : (Run.wait s : Run α).state = s := rfl

@[simp] theorem Run.state_ok {α : Type} (a : α) (s : State) : (Run.ok a s).state = s := rfl

@[simp] theorem Run.state_raise {α : Type} (e : CmdError) (s : State) : (Run.raise e s : Run α).state = s := rfl

@[simp] theorem validated_some (c : SubCause) (body : State → Run Unit) (s : State) :
    validated (some c) body s = .raise (.invalid c) s := rfl

@[simp] theorem validated_none (body : State → Run Unit) (s : State) : validated none body s = body s := rfl

@[simp] theorem finish_ok (a : Unit) (s : State) : finish (.ok a s) = s.completed := rfl

@[simp] theorem finish_raise (e : CmdError) (s : State) : finish (.raise e s) = s.raised e := rfl

@[simp] theorem finish_wait (s : State) : finish (.wait s) = s.stalled := rfl

/-- A run that binds ends where its first part raised or waited, or where its continuation ended. -/
theorem Run.bind_cases {α β : Type} (r : Run α) (f : α → State → Run β) :
    (∃ e s, r = .raise e s ∧ r.bind f = .raise e s) ∨ (∃ s, r = .wait s ∧ r.bind f = .wait s) ∨
      (∃ a s, r = .ok a s ∧ r.bind f = f a s) := by
  cases r with
  | ok a s => exact .inr (.inr ⟨a, s, rfl, rfl⟩)
  | raise e s => exact .inl ⟨e, s, rfl, rfl⟩
  | wait s => exact .inr (.inl ⟨s, rfl, rfl⟩)

/-- A run that binds has completed only if both its parts have. -/
theorem Run.bind_eq_ok {α β : Type} {r : Run α} {f : α → State → Run β} {b : β} {t : State} (h : r.bind f = .ok b t) :
    ∃ a u, r = .ok a u ∧ f a u = .ok b t := by
  cases r with
  | ok a u => exact ⟨a, u, rfl, h⟩
  | raise e u => cases h
  | wait u => cases h

/-! ### The meanings are the completed runs -/

theorem exec_ldkey (s : State) : exec .ldkey s = .next (finish (runLdkey s)) := rfl
theorem exec_ldnonce (s : State) : exec .ldnonce s = .next (finish (runLdnonce s)) := rfl
theorem exec_incctr (s : State) : exec .incctr s = .next (finish (runIncctr s)) := rfl
theorem exec_genks (s : State) : exec .genks s = .next (finish (runGenks Config.cipherPort s)) := rfl
theorem exec_xorks (s : State) : exec .xorks s = .next (finish (runXorks s)) := rfl
theorem exec_xform (s : State) : exec .xform s = .next (finish (runXform Config.cipherPort s)) := rfl
theorem exec_incbuf (s : State) : exec .incbuf s = .next (finish (runIncbuf s)) := rfl

/-! ### Races -/

/-- Whether a byte is raced depends on the window, what was touched, the pending moves and whether a request stays unanswered
alone. -/
theorem raced_congr {s t : State} (h1 : t.touched = s.touched) (h2 : t.fpWrites = s.fpWrites) (h3 : t.inputs = s.inputs)
    (h4 : t.silentAt = s.silentAt) (a : Nat) : raced t a = raced s a := by
  simp [raced, racedFrom, aheadAfterTurn, h1, h2, h3, h4]

theorem unraced_congr {s t : State} (h1 : t.touched = s.touched) (h2 : t.fpWrites = s.fpWrites) (h3 : t.inputs = s.inputs)
    (h4 : t.silentAt = s.silentAt) {a n : Nat} (h : unraced s a n) : unraced t a n :=
  fun i hi => (raced_congr h1 h2 h3 h4 _).trans (h i hi)

theorem unraced_tail {s : State} {a n : Nat} (h : unraced s a (n + 1)) : unraced s (a + 1) n := by
  intro i hi
  have := h (i + 1) (by omega)
  rwa [show a + (i + 1) = a + 1 + i by omega] at this

theorem unraced_sub {s : State} {a n b k : Nat} (h : unraced s a n) (h1 : a ≤ b) (h2 : b + k ≤ a + n) : unraced s b k := by
  intro i hi
  have := h (b - a + i) (by omega)
  rwa [show a + (b - a + i) = b + i by omega] at this

/-- A command free of races is so on every span of its footprint. -/
theorem raceFree_span {i : Instr} {s : State} (h : raceFree i s) {p : Span}
    (hp : p ∈ nominalReads (fun _ => false) i s ++ nominalWrites (fun _ => false) i s) : unraced s p.base p.len := by
  intro k hk
  apply h
  simp only [spansHave, List.any_eq_true]
  exact ⟨p, hp, by simp [spanHas, hk]⟩

theorem raceFree_ldkey {s : State} (h : raceFree .ldkey s) : unraced s s.snap.kaddr.toNat s.snap.klen.toNat :=
  raceFree_span h (p := ⟨_, _⟩) (by simp [nominalReads])

theorem raceFree_ldnonce {s : State} (h : raceFree .ldnonce s) : unraced s s.snap.naddr.toNat s.snap.nlen.toNat :=
  raceFree_span h (p := ⟨_, _⟩) (by simp [nominalReads])

theorem raceFree_xorks {s : State} (h : raceFree .xorks s) :
    unraced s s.snap.src.toNat s.snap.len.toNat ∧ unraced s s.snap.dst.toNat s.snap.len.toNat :=
  ⟨raceFree_span h (p := ⟨_, _⟩) (by simp [nominalReads]), raceFree_span h (p := ⟨_, _⟩) (by simp [nominalWrites])⟩

theorem raceFree_xform {s : State} (h : raceFree .xform s) :
    unraced s s.snap.kaddr.toNat s.snap.klen.toNat ∧ unraced s s.snap.naddr.toNat s.snap.nlen.toNat ∧
      unraced s s.snap.src.toNat s.snap.len.toNat ∧ unraced s s.snap.dst.toNat s.snap.len.toNat :=
  ⟨raceFree_span h (p := ⟨_, _⟩) (by simp [nominalReads]), raceFree_span h (p := ⟨_, _⟩) (by simp [nominalReads]),
    raceFree_span h (p := ⟨_, _⟩) (by simp [nominalReads]), raceFree_span h (p := ⟨_, _⟩) (by simp [nominalWrites])⟩

/-- With nothing touched and no move pending, no byte is raced. -/
theorem raced_of_calm {s : State} (h1 : s.touched = []) (h2 : s.inputs = []) (a : Nat) : raced s a = false := by
  simp [raced, racedFrom, h1, h2, upcomingTouches]

theorem raceFree_of_calm {s : State} (h1 : s.touched = []) (h2 : s.inputs = []) (i : Instr) : raceFree i s :=
  fun a _ => raced_of_calm h1 h2 a

/-! ### Which requests are answered -/

theorem answersNext_of_answered {s : State} {n : Nat} (h : answered s n) (hn : 0 < n) : answersNext s = true := by
  unfold answersNext
  split
  · rfl
  · next l hl => have := h l hl; simp only [decide_eq_true_eq]; omega

/-- Where no request stays unanswered, any number of them is answered. -/
theorem answered_of_none {s : State} (h : s.silentAt = none) (n : Nat) : answered s n := by
  intro l hl
  rw [h] at hl
  cases hl

/-- Of n requests that are answered, the k left after some of them are. -/
theorem answered_of {s t : State} {n k : Nat} (h : answered s n) (hc : t.silentAt = s.silentAt)
    (hk : t.trace.length + k ≤ s.trace.length + n) : answered t k := by
  intro l hl
  rw [hc] at hl
  have := h l hl
  omega

/-- The request at the silent point is not answered. -/
theorem answersNext_silent {s : State} (h : s.silentAt = some s.trace.length) : answersNext s = false := by
  simp [answersNext, h]

/-! ### One byte at the memory port -/

theorem unitRead_ok {a n : Nat} {s : State} (hm : answered s (n + 1)) (ha : admits s.cfg a = true)
    (hr : raced s a = false) :
    unitRead a s = .ok (s.mem.byteAt a) { s with trace := s.trace ++ [.read a (s.mem.byteAt a)] } := by
  simp [unitRead, ha, hr, answersNext_of_answered hm]

/-- A raced byte reads as the next free byte (R63). -/
theorem unitRead_raced {a n : Nat} {s : State} (hm : answered s (n + 1)) (ha : admits s.cfg a = true)
    (hr : raced s a = true) :
    unitRead a s =
      .ok (Config.freeByte s.draws)
        { s with trace := s.trace ++ [.read a (Config.freeByte s.draws)], draws := s.draws + 1 } := by
  simp [unitRead, ha, hr, answersNext_of_answered hm]

theorem unitRead_refused {a n : Nat} {s : State} (hm : answered s (n + 1)) (ha : admits s.cfg a = false) :
    unitRead a s = .raise (.bus a) s := by simp [unitRead, ha, answersNext_of_answered hm]

theorem unitRead_silent {s : State} (hm : s.silentAt = some s.trace.length) (a : Nat) :
    unitRead a s = .wait s := by simp [unitRead, answersNext_silent hm]

theorem unitWrite_ok {a n : Nat} {s : State} (v : Byte) (hm : answered s (n + 1)) (ha : admits s.cfg a = true)
    (hr : raced s a = false) :
    unitWrite a v s = .ok () { s with mem := s.mem.setByte a v, trace := s.trace ++ [.write a v] } := by
  simp [unitWrite, ha, hr, answersNext_of_answered hm]

theorem unitWrite_refused {a n : Nat} {s : State} (v : Byte) (hm : answered s (n + 1)) (ha : admits s.cfg a = false) :
    unitWrite a v s = .raise (.bus a) s := by simp [unitWrite, ha, answersNext_of_answered hm]

theorem unitWrite_silent {s : State} (hm : s.silentAt = some s.trace.length) (a : Nat) (v : Byte) :
    unitWrite a v s = .wait s := by simp [unitWrite, answersNext_silent hm]

/-- A read of an unraced byte that goes on has read the byte. -/
theorem unitRead_eq_ok {a : Nat} {s t : State} {b : Byte} (hq : raced s a = false) (h : unitRead a s = .ok b t) :
    b = s.mem.byteAt a ∧ t = { s with trace := s.trace ++ [.read a (s.mem.byteAt a)] } := by
  unfold unitRead at h
  simp only [hq, Bool.false_eq_true, if_false] at h
  repeat' split at h
  all_goals cases h
  exact ⟨rfl, rfl⟩

/-- A write of an unraced byte that goes on has written the byte. -/
theorem unitWrite_eq_ok {a : Nat} {v : Byte} {s t : State} (hq : raced s a = false) (h : unitWrite a v s = .ok () t) :
    t = { s with mem := s.mem.setByte a v, trace := s.trace ++ [.write a v] } := by
  unfold unitWrite at h
  simp only [hq, Bool.false_eq_true, if_false] at h
  repeat' split at h
  all_goals cases h
  rfl

/-- A read of one byte changes the event log and the draws alone, however it ends. -/
theorem unitRead_state (a : Nat) (s : State) : ∃ tr d, (unitRead a s).state = { s with trace := tr, draws := d } := by
  unfold unitRead
  dsimp only
  repeat' split
  all_goals exact ⟨_, _, rfl⟩

/-- A write of one byte does nothing, or sets that byte and changes besides it the event log and the draws alone. -/
theorem unitWrite_state (a : Nat) (v : Byte) (s : State) :
    (unitWrite a v s).state = s ∨
      ∃ w tr d, (unitWrite a v s).state = { s with mem := s.mem.setByte a w, trace := tr, draws := d } := by
  unfold unitWrite
  dsimp only
  repeat' split
  all_goals first | exact .inl rfl | exact .inr ⟨_, _, _, rfl⟩

/-- As `unitWrite_state`, without saying what memory becomes. -/
theorem unitWrite_frame (a : Nat) (v : Byte) (s : State) :
    ∃ m tr d, (unitWrite a v s).state = { s with mem := m, trace := tr, draws := d } := by
  rcases unitWrite_state a v s with h | ⟨w, tr, d, h⟩
  · exact ⟨s.mem, s.trace, s.draws, h⟩
  · exact ⟨_, tr, d, h⟩

/-- A write of one byte leaves every other byte alone. -/
theorem unitWrite_mem_ne (a : Nat) (v : Byte) (s : State) {b : Nat} (h : b ≠ a) :
    (unitWrite a v s).state.mem.byteAt b = s.mem.byteAt b := by
  rcases unitWrite_state a v s with hw | ⟨w, tr, d, hw⟩
  · rw [hw]
  · rw [hw]; exact Memory.byteAt_setByte_ne _ _ h

/-! ### Ranges at the memory port -/

theorem admitsRange_tail {cfg : Params} {a n : Nat} (h : admitsRange cfg a (n + 1)) : admitsRange cfg (a + 1) n := by
  intro i hi
  have := h (i + 1) (by omega)
  rwa [show a + (i + 1) = a + 1 + i by omega] at this

theorem readEvents_succ (m : Memory) (a n : Nat) :
    readEvents m a (n + 1) = .read a (m.byteAt a) :: readEvents m (a + 1) n := by
  simp only [readEvents, List.range_succ_eq_map, List.map_cons, List.map_map, Nat.add_zero]
  congr 1
  apply List.map_congr_left
  intro i _
  simp [Nat.add_comm, Nat.add_left_comm]

theorem writeEvents_cons (a : Nat) (b : Byte) (bs : List Byte) :
    writeEvents a (b :: bs) = .write a b :: writeEvents (a + 1) bs := by
  simp only [writeEvents, List.zipIdx_cons, List.map_cons, Nat.add_zero]
  congr 1
  rw [List.zipIdx_succ, List.map_map]
  apply List.map_congr_left
  intro p _
  simp [Nat.add_comm, Nat.add_left_comm]

@[simp] theorem readEvents_length (m : Memory) (a n : Nat) : (readEvents m a n).length = n := by simp [readEvents]

@[simp] theorem writeEvents_length (a : Nat) (bs : List Byte) : (writeEvents a bs).length = bs.length := by
  simp [writeEvents]

/-- Reading the range's first n bytes, admitted, answered and not raced, leaves a state in which the next ones are read. -/
theorem readBytes_prefix {a n k : Nat} {s : State} (ha : admitsRange s.cfg a n) (hq : unraced s a n)
    (hm : answered s n) :
    readBytes a (n + k) s =
      (readBytes (a + n) k { s with trace := s.trace ++ readEvents s.mem a n }).bind fun bs t =>
        .ok (s.mem.bytes a n ++ bs) t := by
  induction n generalizing a s with
  | zero =>
    simp only [Nat.zero_add, Nat.add_zero, readEvents, List.range_zero, List.map_nil, List.append_nil, Memory.bytes,
      List.nil_append]
    cases readBytes a k s <;> rfl
  | succ n ih =>
    rw [show n + 1 + k = (n + k) + 1 by omega]
    conv_lhs => unfold readBytes
    rw [unitRead_ok hm (by simpa using ha 0 (by omega)) (by simpa using hq 0 (by omega)), Run.bind_ok,
      ih (s := { s with trace := s.trace ++ [.read a (s.mem.byteAt a)] }) (admitsRange_tail ha)
        (unraced_congr rfl rfl rfl rfl (unraced_tail hq)) (answered_of hm rfl (by simp; omega))]
    simp only [readEvents_succ, List.append_assoc, List.cons_append, List.nil_append, Memory.bytes,
      show a + (n + 1) = a + 1 + n by omega]
    cases readBytes (a + 1 + n) k { s with trace := s.trace ++ .read a (s.mem.byteAt a) :: readEvents s.mem (a + 1) n } <;> rfl

/-- Reading a range that is admitted, answered and not raced gives its bytes and logs the reads in rising order. -/
theorem readBytes_ok {a n : Nat} {s : State} (ha : admitsRange s.cfg a n) (hq : unraced s a n) (hm : answered s n) :
    readBytes a n s = .ok (s.mem.bytes a n) { s with trace := s.trace ++ readEvents s.mem a n } := by
  have := readBytes_prefix (k := 0) ha hq hm
  simpa [readBytes] using this

/-- Reading a range whose byte i is the first refused: BusError there, after the reads before it (R152). -/
theorem readBytes_refused {a n i : Nat} {s : State} (hi : i < n) (ha : admitsRange s.cfg a i)
    (hr : admits s.cfg (a + i) = false) (hq : unraced s a i) (hm : answered s (i + 1)) :
    readBytes a n s = .raise (.bus (a + i)) { s with trace := s.trace ++ readEvents s.mem a i } := by
  obtain ⟨k, rfl⟩ : ∃ k, n = i + (k + 1) := ⟨n - i - 1, by omega⟩
  rw [readBytes_prefix ha hq (answered_of hm rfl (by omega))]
  unfold readBytes
  rw [unitRead_refused (n := 0)]
  · rfl
  · exact answered_of hm rfl (by simp)
  · exact hr

/-- Reading a range of whose requests the port answers i: the command waits there, after the reads before it (R193). -/
theorem readBytes_silent {a n i : Nat} {s : State} (hi : i < n) (ha : admitsRange s.cfg a i) (hq : unraced s a i)
    (hm : s.silentAt = some (s.trace.length + i)) :
    readBytes a n s = .wait { s with trace := s.trace ++ readEvents s.mem a i } := by
  obtain ⟨k, rfl⟩ : ∃ k, n = i + (k + 1) := ⟨n - i - 1, by omega⟩
  rw [readBytes_prefix ha hq (fun l hl => by rw [hm] at hl; cases hl; omega)]
  unfold readBytes
  rw [unitRead_silent (by simp [hm])]
  rfl

/-- A read of an unraced range that goes on has read its bytes. -/
theorem readBytes_eq_ok {a n : Nat} {s t : State} {bs : List Byte} (hq : unraced s a n) (h : readBytes a n s = .ok bs t) :
    bs = s.mem.bytes a n ∧ t = { s with trace := s.trace ++ readEvents s.mem a n } := by
  induction n generalizing a s t bs with
  | zero =>
    cases h
    exact ⟨rfl, by simp [readEvents]⟩
  | succ n ih =>
    unfold readBytes at h
    obtain ⟨b, u, h1, h2⟩ := Run.bind_eq_ok h
    obtain ⟨rfl, rfl⟩ := unitRead_eq_ok (by simpa using hq 0 (by omega)) h1
    obtain ⟨c, w, h3, h4⟩ := Run.bind_eq_ok h2
    obtain ⟨rfl, rfl⟩ := ih (by exact unraced_congr rfl rfl rfl rfl (unraced_tail hq)) h3
    cases h4
    exact ⟨rfl, by simp [readEvents_succ]⟩

/-- Reading a range changes the event log and the draws alone, however it ends. -/
theorem readBytes_state (a n : Nat) (s : State) :
    ∃ tr d, (readBytes a n s).state = { s with trace := tr, draws := d } := by
  induction n generalizing a s with
  | zero => exact ⟨_, _, rfl⟩
  | succ n ih =>
    unfold readBytes
    obtain ⟨tr, d, h1⟩ := unitRead_state a s
    cases hr : unitRead a s with
    | raise e t => exact ⟨tr, d, by simpa [hr] using h1⟩
    | wait t => exact ⟨tr, d, by simpa [hr] using h1⟩
    | ok b t =>
      obtain rfl : t = _ := by simpa [hr] using h1
      obtain ⟨tr2, d2, h2⟩ := ih (a + 1) { s with trace := tr, draws := d }
      refine ⟨tr2, d2, ?_⟩
      rw [Run.bind_ok, ← h2]
      cases readBytes (a + 1) n { s with trace := tr, draws := d } <;> rfl

/-- A range read in full has the range's length. -/
theorem readBytes_length {a n : Nat} {s t : State} {bs : List Byte} (h : readBytes a n s = .ok bs t) : bs.length = n := by
  induction n generalizing a s t bs with
  | zero => simp only [readBytes, Run.ok.injEq] at h; simp [← h.1]
  | succ n ih =>
    unfold readBytes at h
    cases hr : unitRead a s with
    | raise e u => simp [hr] at h
    | wait u => simp [hr] at h
    | ok b u =>
      simp only [hr, Run.bind_ok] at h
      cases hr2 : readBytes (a + 1) n u with
      | raise e w => simp [hr2] at h
      | wait w => simp [hr2] at h
      | ok cs w =>
        simp only [hr2, Run.bind_ok, Run.ok.injEq] at h
        simp [← h.1, ih hr2]

/-- Writing the range's first bytes, admitted, answered and not raced, leaves a state in which the next ones are written. -/
theorem writeBytes_prefix {a : Nat} {bs cs : List Byte} {s : State} (ha : admitsRange s.cfg a bs.length)
    (hq : unraced s a bs.length) (hm : answered s bs.length) :
    writeBytes a (bs ++ cs) s =
      writeBytes (a + bs.length) cs { s with mem := s.mem.setBytes a bs, trace := s.trace ++ writeEvents a bs } := by
  induction bs generalizing a s with
  | nil => simp [writeEvents, Memory.setBytes]
  | cons b bs ih =>
    simp only [List.cons_append]
    conv_lhs => unfold writeBytes
    rw [unitWrite_ok b hm (by simpa using ha 0 (by simp)) (by simpa using hq 0 (by simp)), Run.bind_ok,
      ih (s := { s with mem := s.mem.setByte a b, trace := s.trace ++ [.write a b] }) (admitsRange_tail ha)
        (unraced_congr rfl rfl rfl rfl (unraced_tail hq)) (answered_of hm rfl (by simp; omega))]
    simp only [writeEvents_cons, Memory.setBytes, List.append_assoc, List.cons_append, List.nil_append, List.length_cons,
      show a + (bs.length + 1) = a + 1 + bs.length by omega]

/-- Writing a range that is admitted, answered and not raced writes its bytes and logs the writes in rising order. -/
theorem writeBytes_ok {a : Nat} {bs : List Byte} {s : State} (ha : admitsRange s.cfg a bs.length)
    (hq : unraced s a bs.length) (hm : answered s bs.length) :
    writeBytes a bs s =
      .ok () { s with mem := s.mem.setBytes a bs, trace := s.trace ++ writeEvents a bs } := by
  have := writeBytes_prefix (cs := []) ha hq hm
  simpa [writeBytes] using this

/-- Writing a range whose byte i is the first refused: BusError there, the bytes before it written (R152). -/
theorem writeBytes_refused {a i : Nat} {bs : List Byte} {s : State} (hi : i < bs.length) (ha : admitsRange s.cfg a i)
    (hr : admits s.cfg (a + i) = false) (hq : unraced s a i) (hm : answered s (i + 1)) :
    writeBytes a bs s =
      .raise (.bus (a + i))
        { s with mem := s.mem.setBytes a (bs.take i), trace := s.trace ++ writeEvents a (bs.take i) } := by
  have hl : (bs.take i).length = i := by simp; omega
  conv_lhs => rw [← List.take_append_drop i bs]
  rw [writeBytes_prefix (by rwa [hl]) (by rwa [hl]) (answered_of hm rfl (by rw [hl]; omega)), hl,
    List.drop_eq_getElem_cons hi]
  unfold writeBytes
  rw [unitWrite_refused (n := 0)]
  · rfl
  · exact answered_of hm rfl (by simp; try omega)
  · exact hr

/-- Writing a range of whose requests the port answers i: the command waits there, the bytes before it written (R193). -/
theorem writeBytes_silent {a i : Nat} {bs : List Byte} {s : State} (hi : i < bs.length) (ha : admitsRange s.cfg a i)
    (hq : unraced s a i) (hm : s.silentAt = some (s.trace.length + i)) :
    writeBytes a bs s =
      .wait { s with mem := s.mem.setBytes a (bs.take i), trace := s.trace ++ writeEvents a (bs.take i) } := by
  have hl : (bs.take i).length = i := by simp; omega
  conv_lhs => rw [← List.take_append_drop i bs]
  rw [writeBytes_prefix (by rwa [hl]) (by rwa [hl]) (fun l h => by rw [hm] at h; cases h; omega), hl,
    List.drop_eq_getElem_cons hi]
  unfold writeBytes
  rw [unitWrite_silent (by simp [hm]; omega)]
  rfl

/-- A write of an unraced range that goes on has written its bytes. -/
theorem writeBytes_eq_ok {a : Nat} {bs : List Byte} {s t : State} (hq : unraced s a bs.length)
    (h : writeBytes a bs s = .ok () t) :
    t = { s with mem := s.mem.setBytes a bs, trace := s.trace ++ writeEvents a bs } := by
  induction bs generalizing a s with
  | nil =>
    cases h
    simp [writeEvents, Memory.setBytes]
  | cons b bs ih =>
    unfold writeBytes at h
    obtain ⟨_, u, h1, h2⟩ := Run.bind_eq_ok h
    obtain rfl := unitWrite_eq_ok (by simpa using hq 0 (by simp)) h1
    rw [ih (by exact unraced_congr rfl rfl rfl rfl (unraced_tail hq)) h2]
    simp [writeEvents_cons, Memory.setBytes]

/-- Writing a range changes memory, the event log and the draws alone, however it ends. -/
theorem writeBytes_state (a : Nat) (bs : List Byte) (s : State) :
    ∃ m tr d, (writeBytes a bs s).state = { s with mem := m, trace := tr, draws := d } := by
  induction bs generalizing a s with
  | nil => exact ⟨_, _, _, rfl⟩
  | cons b bs ih =>
    unfold writeBytes
    obtain ⟨m, tr, d, h⟩ := unitWrite_frame a b s
    cases hr : unitWrite a b s with
    | raise e t => exact ⟨m, tr, d, by simpa [hr] using h⟩
    | wait t => exact ⟨m, tr, d, by simpa [hr] using h⟩
    | ok x t =>
      obtain rfl : t = _ := by simpa [hr] using h
      exact ih (a + 1) { s with mem := m, trace := tr, draws := d }

/-- Writing a range leaves every byte outside it alone, however it ends. -/
theorem writeBytes_mem_ne (a : Nat) (bs : List Byte) (s : State) {b : Nat} (h : b < a ∨ a + bs.length ≤ b) :
    (writeBytes a bs s).state.mem.byteAt b = s.mem.byteAt b := by
  induction bs generalizing a s with
  | nil => rfl
  | cons v bs ih =>
    simp only [List.length_cons] at h
    have hm := unitWrite_mem_ne a v s (b := b) (by omega)
    unfold writeBytes
    cases hr : unitWrite a v s with
    | raise e t => simpa [hr] using hm
    | wait t => simpa [hr] using hm
    | ok x t =>
      simp only [hr, Run.state_ok] at hm
      rw [Run.bind_ok, ih (a + 1) t (by omega), hm]

/-! ### The commands' parts -/

/-- The key load changes KEY, KEY_LEN, KS, KS_VALID, the event log and the draws alone. -/
theorem loadKey_state (s : State) :
    ∃ k l ks v tr d,
      (loadKey s).state = { s with key := k, keyLen := l, ks := ks, ksValid := v, trace := tr, draws := d } := by
  unfold loadKey
  obtain ⟨tr, d, h⟩ := readBytes_state s.snap.kaddr.toNat s.snap.klen.toNat s
  cases hr : readBytes s.snap.kaddr.toNat s.snap.klen.toNat s with
  | raise e t => exact ⟨_, _, _, _, tr, d, by simpa [hr] using h⟩
  | wait t => exact ⟨_, _, _, _, tr, d, by simpa [hr] using h⟩
  | ok k t =>
    obtain rfl : t = _ := by simpa [hr] using h
    exact ⟨_, _, _, _, _, _, rfl⟩

/-- The nonce load changes CTR, CTR_VALID, KS, KS_VALID, the event log and the draws alone. -/
theorem loadNonce_state (s : State) :
    ∃ c cv ks v tr d,
      (loadNonce s).state = { s with ctr := c, ctrValid := cv, ks := ks, ksValid := v, trace := tr, draws := d } := by
  unfold loadNonce
  obtain ⟨tr, d, h⟩ := readBytes_state s.snap.naddr.toNat s.snap.nlen.toNat s
  cases hr : readBytes s.snap.naddr.toNat s.snap.nlen.toNat s with
  | raise e t => exact ⟨_, _, _, _, tr, d, by simpa [hr] using h⟩
  | wait t => exact ⟨_, _, _, _, tr, d, by simpa [hr] using h⟩
  | ok k t =>
    obtain rfl : t = _ := by simpa [hr] using h
    exact ⟨_, _, _, _, _, _, rfl⟩

/-- A keystream block changes KS, CTR and the event log alone. -/
theorem genBlock_state (C : CipherPort) (s : State) :
    ∃ ks c tr, (genBlock C s).state = { s with ks := ks, ctr := c, trace := tr } := by
  unfold genBlock
  dsimp only
  repeat' split
  all_goals exact ⟨_, _, _, rfl⟩

/-- The XOR of a block changes memory, the event log and the draws alone. -/
theorem xorBlock_state (src dst q : Nat) (s : State) :
    ∃ m tr d, (xorBlock src dst q s).state = { s with mem := m, trace := tr, draws := d } := by
  unfold xorBlock
  obtain ⟨tr, d, h⟩ := readBytes_state src q s
  cases hr : readBytes src q s with
  | raise e t => exact ⟨_, tr, d, by simpa [hr] using h⟩
  | wait t => exact ⟨_, tr, d, by simpa [hr] using h⟩
  | ok x t =>
    obtain rfl : t = _ := by simpa [hr] using h
    rw [Run.bind_ok]
    exact writeBytes_state dst _ { s with trace := tr, draws := d }

/-- The XOR of a block leaves every byte outside its destination alone, however it ends. -/
theorem xorBlock_mem_ne (src dst q : Nat) (s : State) {b : Nat} (h : b < dst ∨ dst + q ≤ b) :
    (xorBlock src dst q s).state.mem.byteAt b = s.mem.byteAt b := by
  unfold xorBlock
  obtain ⟨tr, d, hs⟩ := readBytes_state src q s
  cases hr : readBytes src q s with
  | raise e t =>
    obtain rfl : t = _ := by simpa [hr] using hs
    rfl
  | wait t =>
    obtain rfl : t = _ := by simpa [hr] using hs
    rfl
  | ok x t =>
    have hx : x.length = q := readBytes_length hr
    obtain rfl : t = _ := by simpa [hr] using hs
    rw [Run.bind_ok, writeBytes_mem_ne _ _ _ (by simp only [xorBytes_length, hx]; omega)]

/-- INCBUF's loop changes memory, SEQ, the event log and the draws alone. -/
theorem incbufLoop_state (a n : Nat) (s : State) :
    ∃ m q tr d, (incbufLoop a n s).state = { s with mem := m, seq := q, trace := tr, draws := d } := by
  induction n generalizing s with
  | zero => exact ⟨_, _, _, _, rfl⟩
  | succ i ih =>
    unfold incbufLoop
    obtain ⟨tr, d, h1⟩ := unitRead_state (a + i) (s.atByte i)
    cases hr : unitRead (a + i) (s.atByte i) with
    | raise e t => exact ⟨_, _, _, _, by rw [hr] at h1; exact h1⟩
    | wait t => exact ⟨_, _, _, _, by rw [hr] at h1; exact h1⟩
    | ok b t =>
      rw [hr] at h1
      obtain ⟨m, tr2, d2, h2⟩ := unitWrite_frame (a + i) (b + 1) t
      rw [Run.bind_ok]
      cases hr2 : unitWrite (a + i) (b + 1) t with
      | raise e w => rw [hr2] at h2; change t = _ at h1; subst h1; exact ⟨_, _, _, _, h2⟩
      | wait w => rw [hr2] at h2; change t = _ at h1; subst h1; exact ⟨_, _, _, _, h2⟩
      | ok x w =>
        rw [hr2] at h2
        rw [Run.bind_ok]
        split
        · obtain ⟨m', q', tr', d', h'⟩ := ih w
          change t = _ at h1; change w = _ at h2; subst h1; subst h2
          exact ⟨m', q', tr', d', h'⟩
        · change t = _ at h1; subst h1; exact ⟨_, _, _, _, h2⟩

/-- INCBUF's loop leaves every byte outside its buffer alone, however it ends. -/
theorem incbufLoop_mem_ne (a n : Nat) (s : State) {b : Nat} (h : b < a ∨ a + n ≤ b) :
    (incbufLoop a n s).state.mem.byteAt b = s.mem.byteAt b := by
  induction n generalizing s with
  | zero => rfl
  | succ i ih =>
    unfold incbufLoop
    obtain ⟨tr, d, h1⟩ := unitRead_state (a + i) (s.atByte i)
    cases hr : unitRead (a + i) (s.atByte i) with
    | raise e t => rw [hr] at h1; change t = _ at h1; subst h1; rfl
    | wait t => rw [hr] at h1; change t = _ at h1; subst h1; rfl
    | ok c t =>
      rw [hr] at h1
      have ht : t.mem = s.mem := by change t = _ at h1; subst h1; rfl
      have hm := unitWrite_mem_ne (a + i) (c + 1) t (b := b) (by omega)
      rw [Run.bind_ok]
      cases hr2 : unitWrite (a + i) (c + 1) t with
      | raise e w => rw [hr2, ht] at hm; exact hm
      | wait w => rw [hr2, ht] at hm; exact hm
      | ok x w =>
        rw [hr2, ht] at hm
        rw [Run.bind_ok]
        split
        · rw [ih w (by omega)]; exact hm
        · exact hm

/-- An increment reaches no further than its buffer. -/
theorem carryReach_le (cfg : Params) (m : Memory) (free : Nat → Bool) (a n : Nat) : carryReach cfg m free a n ≤ n := by
  induction n with
  | zero => exact Nat.le_refl 0
  | succ n ih =>
    unfold carryReach
    repeat' split
    all_goals omega

/-- The reach depends on the bytes and the races inside the buffer alone. -/
theorem carryReach_congr {cfg : Params} {m m' : Memory} {free free' : Nat → Bool} {a n : Nat}
    (hm : ∀ i < n, m'.byteAt (a + i) = m.byteAt (a + i)) (hf : ∀ i < n, free' (a + i) = free (a + i)) :
    carryReach cfg m' free' a n = carryReach cfg m free a n := by
  induction n with
  | zero => rfl
  | succ n ih =>
    unfold carryReach
    rw [hm n (by omega), hf n (by omega), ih (fun i hi => hm i (by omega)) (fun i hi => hf i (by omega))]

/-- INCBUF's loop leaves every byte below its reach alone, whatever the raced bytes read as (R58, R63). -/
theorem incbufLoop_mem_below (a n : Nat) (s : State) {b : Nat} (h : b < a + (n - carryReach s.cfg s.mem (raced s) a n)) :
    (incbufLoop a n s).state.mem.byteAt b = s.mem.byteAt b := by
  induction n generalizing s with
  | zero => rfl
  | succ i ih =>
    have hle := carryReach_le s.cfg s.mem (raced s) a i
    have hrc : raced (s.atByte i) (a + i) = raced s (a + i) := raced_congr rfl rfl rfl rfl _
    have h1 := unitRead_state (a + i) (s.atByte i)
    unfold incbufLoop
    cases hr : unitRead (a + i) (s.atByte i) with
    | raise e t => obtain ⟨tr, d, h1⟩ := h1; rw [hr] at h1; change t = _ at h1; subst h1; rfl
    | wait t => obtain ⟨tr, d, h1⟩ := h1; rw [hr] at h1; change t = _ at h1; subst h1; rfl
    | ok c t =>
      obtain ⟨tr, d, h1⟩ := h1
      rw [hr] at h1
      change t = _ at h1
      have hadm : admits s.cfg (a + i) = true := by
        by_contra hn
        unfold unitRead at hr
        have hn' : admits (s.atByte i).cfg (a + i) = false := by simpa using hn
        simp only [hn', Bool.false_eq_true, if_false] at hr
        split at hr <;> cases hr
      have hc : raced s (a + i) = false → c = s.mem.byteAt (a + i) := fun hq =>
        (unitRead_eq_ok (hrc.trans hq) hr).1
      have hb : b < a + i := by
        unfold carryReach at h
        rw [if_pos hadm] at h
        split at h <;> omega
      have ht : t.mem = s.mem := by rw [h1]; rfl
      rw [Run.bind_ok]
      have hm := unitWrite_mem_ne (a + i) (c + 1) t (b := b) (by omega)
      cases hr2 : unitWrite (a + i) (c + 1) t with
      | raise e w => rw [hr2, ht] at hm; exact hm
      | wait w => rw [hr2, ht] at hm; exact hm
      | ok x w =>
        obtain ⟨m, tr2, d2, h2⟩ := unitWrite_frame (a + i) (c + 1) t
        rw [hr2] at h2 hm
        rw [ht] at hm
        change w = _ at h2
        have hne : ∀ k < i, w.mem.byteAt (a + k) = s.mem.byteAt (a + k) := by
          intro k hk
          have := unitWrite_mem_ne (a + i) (c + 1) t (b := a + k) (by omega)
          rw [hr2, ht] at this
          exact this
        have hreach : carryReach w.cfg w.mem (raced w) a i = carryReach s.cfg s.mem (raced s) a i := by
          rw [show w.cfg = s.cfg by rw [h2, h1]; rfl]
          refine carryReach_congr hne fun k _ => ?_
          exact raced_congr (by rw [h2, h1]; rfl) (by rw [h2, h1]; rfl) (by rw [h2, h1]; rfl) (by rw [h2, h1]; rfl) _
        rw [Run.bind_ok]
        split
        · next h0 =>
          rw [ih w]
          · exact hm
          · rw [hreach]
            have hff : (raced s (a + i) || s.mem.byteAt (a + i) == 0xff) = true := by
              cases hq : raced s (a + i) with
              | true => rfl
              | false =>
                have : s.mem.byteAt (a + i) = 0xff := by rw [← hc hq]; bv_omega
                simp [this]
            unfold carryReach at h
            rw [if_pos hadm, if_pos hff] at h
            omega
        · exact hm

/-- XFORM's block changes memory, KS, CTR, SEQ, the event log and the draws alone. -/
theorem xformBlock_state (C : CipherPort) (src dst m j : Nat) (s : State) :
    ∃ mem ks c q tr d,
      (xformBlock C src dst m j s).state =
        { s with mem := mem, ks := ks, ctr := c, seq := q, trace := tr, draws := d } := by
  unfold xformBlock
  obtain ⟨ks, c, tr, h⟩ := genBlock_state C (s.atBlock j)
  cases hr : genBlock C (s.atBlock j) with
  | raise e t =>
    obtain rfl : t = _ := by simpa [hr] using h
    exact ⟨_, _, _, _, _, _, rfl⟩
  | wait t =>
    obtain rfl : t = _ := by simpa [hr] using h
    exact ⟨_, _, _, _, _, _, rfl⟩
  | ok x t =>
    obtain rfl : t = _ := by simpa [hr] using h
    rw [Run.bind_ok]
    obtain ⟨m2, tr2, d2, h2⟩ := xorBlock_state (src + 16 * j) (dst + 16 * j) (blockBytes m j)
      { s.atBlock j with ks := ks, ctr := c, trace := tr }
    exact ⟨_, _, _, _, _, _, h2⟩

/-- XFORM's loop changes memory, KS, KS_VALID, CTR, BLKCNT, SEQ, the event log and the draws alone. -/
theorem xformLoop_state (C : CipherPort) (src dst m n j : Nat) (s : State) :
    ∃ mem ks v c b q tr d,
      (xformLoop C src dst m n j s).state =
        { s with
          mem := mem, ks := ks, ksValid := v, ctr := c, blkcnt := b, seq := q, trace := tr, draws := d } := by
  induction n generalizing j s with
  | zero => exact ⟨_, _, _, _, _, _, _, _, rfl⟩
  | succ n ih =>
    unfold xformLoop
    obtain ⟨mem, ks, c, q, tr, d, h⟩ := xformBlock_state C src dst m j s
    cases hr : xformBlock C src dst m j s with
    | raise e t =>
      obtain rfl : t = _ := by simpa [hr] using h
      exact ⟨_, _, _, _, _, _, _, _, rfl⟩
    | wait t =>
      obtain rfl : t = _ := by simpa [hr] using h
      exact ⟨_, _, _, _, _, _, _, _, rfl⟩
    | ok x t =>
      obtain rfl : t = _ := by simpa [hr] using h
      obtain ⟨mem', ks', v', c', b', q', tr', d', h'⟩ :=
        ih (j + 1) { s with mem := mem, ks := ks, ctr := c, seq := q, trace := tr, draws := d }
      exact ⟨_, _, _, _, _, _, _, _, h'⟩

/-- XFORM changes no operand register, no parameter and nothing of the host's side, however it ends. -/
theorem xformBody_state (C : CipherPort) (s : State) :
    ∃ mem k l ks v c cv b q tr d,
      (xformBody C s).state =
        { s with
          mem := mem, key := k, keyLen := l, ks := ks, ksValid := v, ctr := c, ctrValid := cv, blkcnt := b
          seq := q, trace := tr, draws := d } := by
  unfold xformBody
  dsimp only
  obtain ⟨k, l, ks, v, tr, d, h1⟩ := loadKey_state (s.xformStarted (blockCount s.snap.len.toNat))
  cases hr1 : loadKey (s.xformStarted (blockCount s.snap.len.toNat)) with
  | raise e t => rw [hr1] at h1; exact ⟨_, _, _, _, _, _, _, _, _, _, _, h1⟩
  | wait t => rw [hr1] at h1; exact ⟨_, _, _, _, _, _, _, _, _, _, _, h1⟩
  | ok x t =>
    rw [hr1] at h1
    rw [Run.bind_ok]
    obtain ⟨c, cv, ks2, v2, tr2, d2, h2⟩ := loadNonce_state t
    cases hr2 : loadNonce t with
    | raise e u => rw [hr2] at h2; change t = _ at h1; subst h1; exact ⟨_, _, _, _, _, _, _, _, _, _, _, h2⟩
    | wait u => rw [hr2] at h2; change t = _ at h1; subst h1; exact ⟨_, _, _, _, _, _, _, _, _, _, _, h2⟩
    | ok y u =>
      rw [hr2] at h2
      rw [Run.bind_ok]
      obtain ⟨mem, ks3, v3, c3, b3, q3, tr3, d3, h3⟩ :=
        xformLoop_state C u.snap.src.toNat u.snap.dst.toNat s.snap.len.toNat (blockCount s.snap.len.toNat) 0 u
      cases hr3 : xformLoop C u.snap.src.toNat u.snap.dst.toNat s.snap.len.toNat (blockCount s.snap.len.toNat) 0 u with
      | raise e w =>
        rw [hr3] at h3
        change t = _ at h1; subst h1; change u = _ at h2; subst h2
        exact ⟨_, _, _, _, _, _, _, _, _, _, _, h3⟩
      | wait w =>
        rw [hr3] at h3
        change t = _ at h1; subst h1; change u = _ at h2; subst h2
        exact ⟨_, _, _, _, _, _, _, _, _, _, _, h3⟩
      | ok z w =>
        rw [hr3] at h3
        change t = _ at h1; subst h1; change u = _ at h2; subst h2; change w = _ at h3; subst h3
        exact ⟨_, _, _, _, _, _, _, _, _, _, _, rfl⟩

/-! ### The loads and one block, when all goes well and where they stop -/

theorem loadKey_ok {s : State} (ha : admitsRange s.cfg s.snap.kaddr.toNat s.snap.klen.toNat)
    (hq : unraced s s.snap.kaddr.toNat s.snap.klen.toNat) (hm : answered s s.snap.klen.toNat) :
    loadKey s =
      .ok ()
        { s with
          key := padTo 32 (keyBytes s)
          keyLen := s.snap.klen.toNat
          ks := zeroBlock
          ksValid := false
          trace := s.trace ++ readEvents s.mem s.snap.kaddr.toNat s.snap.klen.toNat } := by
  unfold loadKey
  rw [readBytes_ok ha hq hm, Run.bind_ok]
  rfl

theorem loadKey_refused {s : State} {i : Nat} (hi : i < s.snap.klen.toNat) (ha : admitsRange s.cfg s.snap.kaddr.toNat i)
    (hr : admits s.cfg (s.snap.kaddr.toNat + i) = false) (hq : unraced s s.snap.kaddr.toNat i) (hm : answered s (i + 1)) :
    loadKey s =
      .raise (.bus (s.snap.kaddr.toNat + i)) { s with trace := s.trace ++ readEvents s.mem s.snap.kaddr.toNat i } := by
  unfold loadKey
  rw [readBytes_refused hi ha hr hq hm, Run.bind_raise]

theorem loadKey_silent {s : State} {i : Nat} (hi : i < s.snap.klen.toNat) (ha : admitsRange s.cfg s.snap.kaddr.toNat i)
    (hq : unraced s s.snap.kaddr.toNat i) (hm : s.silentAt = some (s.trace.length + i)) :
    loadKey s = .wait { s with trace := s.trace ++ readEvents s.mem s.snap.kaddr.toNat i } := by
  unfold loadKey
  rw [readBytes_silent hi ha hq hm, Run.bind_wait]

theorem loadNonce_ok {s : State} (ha : admitsRange s.cfg s.snap.naddr.toNat s.snap.nlen.toNat)
    (hq : unraced s s.snap.naddr.toNat s.snap.nlen.toNat) (hm : answered s s.snap.nlen.toNat) :
    loadNonce s =
      .ok ()
        { s with
          ctr := initCounter (nonceBytes s)
          ctrValid := true
          ks := zeroBlock
          ksValid := false
          trace := s.trace ++ readEvents s.mem s.snap.naddr.toNat s.snap.nlen.toNat } := by
  unfold loadNonce
  rw [readBytes_ok ha hq hm, Run.bind_ok]
  rfl

theorem loadNonce_refused {s : State} {i : Nat} (hi : i < s.snap.nlen.toNat)
    (ha : admitsRange s.cfg s.snap.naddr.toNat i) (hr : admits s.cfg (s.snap.naddr.toNat + i) = false)
    (hq : unraced s s.snap.naddr.toNat i) (hm : answered s (i + 1)) :
    loadNonce s =
      .raise (.bus (s.snap.naddr.toNat + i)) { s with trace := s.trace ++ readEvents s.mem s.snap.naddr.toNat i } := by
  unfold loadNonce
  rw [readBytes_refused hi ha hr hq hm, Run.bind_raise]

theorem loadNonce_silent {s : State} {i : Nat} (hi : i < s.snap.nlen.toNat)
    (ha : admitsRange s.cfg s.snap.naddr.toNat i) (hq : unraced s s.snap.naddr.toNat i)
    (hm : s.silentAt = some (s.trace.length + i)) :
    loadNonce s = .wait { s with trace := s.trace ++ readEvents s.mem s.snap.naddr.toNat i } := by
  unfold loadNonce
  rw [readBytes_silent hi ha hq hm, Run.bind_wait]

theorem genBlock_ok {C : CipherPort} {n : Nat} {s : State} {c : Block} (hm : answered s (n + 1))
    (h : C.encrypt (loadedKey s) s.ctr = .ok c) :
    genBlock C s =
      .ok () { s with ks := c, ctr := inc128 s.ctr, trace := s.trace ++ [.cipher (loadedKey s) s.ctr] } := by
  simp [genBlock, h, answersNext_of_answered hm]

theorem genBlock_err {C : CipherPort} {n : Nat} {s : State} {e : CipherErr} (hm : answered s (n + 1))
    (h : C.encrypt (loadedKey s) s.ctr = .err e) :
    genBlock C s =
      .raise (.cipher (C.encode e)) { s with trace := s.trace ++ [.cipher (loadedKey s) s.ctr] } := by
  simp [genBlock, h, answersNext_of_answered hm]

/-- A keystream block that goes on has had the cipher's answer. -/
theorem genBlock_eq_ok {C : CipherPort} {s t : State} (h : genBlock C s = .ok () t) :
    ∃ c, C.encrypt (loadedKey s) s.ctr = .ok c ∧
      t = { s with ks := c, ctr := inc128 s.ctr, trace := s.trace ++ [.cipher (loadedKey s) s.ctr] } := by
  unfold genBlock at h
  dsimp only at h
  repeat' split at h
  all_goals cases h
  next c hc => exact ⟨c, hc, rfl⟩

theorem genBlock_silent {s : State} (hm : s.silentAt = some s.trace.length) (C : CipherPort) :
    genBlock C s = .wait s := by simp [genBlock, answersNext_silent hm]

/-- The XOR of a block, all its bytes admitted, answered and no race on. -/
theorem xorBlock_ok {a d q : Nat} {s : State} (h16 : q ≤ 16) (ha : admitsRange s.cfg a q) (hd : admitsRange s.cfg d q)
    (hqa : unraced s a q) (hqd : unraced s d q) (hm : answered s (2 * q)) :
    xorBlock a d q s =
      .ok ()
        { s with
          mem := s.mem.setBytes d (xorBytes (s.mem.bytes a q) s.ks.toList)
          trace := s.trace ++ readEvents s.mem a q ++ writeEvents d (xorBytes (s.mem.bytes a q) s.ks.toList) } := by
  unfold xorBlock
  rw [readBytes_ok ha hqa (answered_of hm rfl (by omega)), Run.bind_ok]
  have hl : (xorBytes (s.mem.bytes a q) s.ks.toList).length = q := by simp; omega
  exact writeBytes_ok (s := { s with trace := s.trace ++ readEvents s.mem a q }) (by rw [hl]; exact hd)
    (by rw [hl]; exact unraced_congr rfl rfl rfl rfl hqd) (answered_of hm rfl (by rw [hl]; simp; omega))

/-- The XOR of an unraced block that goes on has written the block. -/
theorem xorBlock_eq_ok {a d q : Nat} {s t : State} (h16 : q ≤ 16) (hqa : unraced s a q) (hqd : unraced s d q)
    (h : xorBlock a d q s = .ok () t) :
    t =
      { s with
        mem := s.mem.setBytes d (xorBytes (s.mem.bytes a q) s.ks.toList)
        trace := s.trace ++ readEvents s.mem a q ++ writeEvents d (xorBytes (s.mem.bytes a q) s.ks.toList) } := by
  unfold xorBlock at h
  obtain ⟨x, u, h1, h2⟩ := Run.bind_eq_ok h
  obtain ⟨rfl, rfl⟩ := readBytes_eq_ok hqa h1
  have hl : (xorBytes (s.mem.bytes a q) s.ks.toList).length = q := by simp; omega
  exact writeBytes_eq_ok (by rw [hl]; exact unraced_congr rfl rfl rfl rfl hqd) h2

/-- One round of INCBUF's loop, its byte admitted, answered and no race on. -/
theorem incbufLoop_succ {a n k : Nat} {s : State} (hm : answered s (k + 2)) (h : admits s.cfg (a + n) = true)
    (hq : raced s (a + n) = false) :
    incbufLoop a (n + 1) s =
      (let t :=
        { s with
          mem := s.mem.setByte (a + n) (s.mem.byteAt (a + n) + 1)
          trace := s.trace ++
            [.read (a + n) (s.mem.byteAt (a + n)), .write (a + n) (s.mem.byteAt (a + n) + 1)]
          seq := { s.seq with idx := n } }
       if s.mem.byteAt (a + n) + 1 = 0 then incbufLoop a n t else .ok () t) := by
  conv_lhs => unfold incbufLoop
  rw [unitRead_ok (s := s.atByte n) (n := k + 1) (answered_of hm rfl (by simp)) h hq, Run.bind_ok, unitWrite_ok (n := k)]
  · simp only [Run.bind_ok, State.atByte, List.append_assoc, List.cons_append, List.nil_append]
    rfl
  · exact answered_of hm rfl (by simp; omega)
  · exact h
  · exact hq

theorem incbufLoop_refused {a n k : Nat} {s : State} (hm : answered s (k + 1)) (h : admits s.cfg (a + n) = false) :
    incbufLoop a (n + 1) s = .raise (.bus (a + n)) (s.atByte n) := by
  unfold incbufLoop
  rw [unitRead_refused (s := s.atByte n) (n := k) (answered_of hm rfl (by simp)) h, Run.bind_raise]

theorem incbufLoop_silent {a n : Nat} {s : State} (hm : s.silentAt = some s.trace.length) :
    incbufLoop a (n + 1) s = .wait (s.atByte n) := by
  unfold incbufLoop
  rw [unitRead_silent (s := s.atByte n) (by exact hm), Run.bind_wait]

end Sys2Proof.Machine
end

