-- ==== Sys2Proof/Laws/Commands.lean ====
section
/-! SUPPORT. What each command can change, said once per command, and the ways a command can end. -/

namespace Sys2Proof.Machine

/-- A finished run is its last state with a completion record, complete or one error's (R155), or still BUSY, waiting (R193). -/
theorem finish_cases (r : Run Unit) :
    finish r = r.state.completed ∨ (∃ e, finish r = r.state.raised e) ∨ finish r = r.state.stalled := by
  cases r with
  | ok a s => exact .inl rfl
  | raise e s => exact .inr (.inl ⟨e, rfl⟩)
  | wait s => exact .inr (.inr rfl)

/-- A command is its failed validation's record, or its body's finished run (R156). -/
theorem validated_cases (check : Option SubCause) (body : State → Run Unit) (s : State) :
    (∃ c, check = some c ∧ validated check body s = .raise (.invalid c) s) ∨
      (check = none ∧ validated check body s = body s) := by
  cases check with
  | some c => exact .inl ⟨c, rfl, rfl⟩
  | none => exact .inr ⟨rfl, rfl⟩

/-- Whatever a body changes, a validated body changes no more. -/
theorem validated_state (check : Option SubCause) (body : State → Run Unit) (s : State) :
    (validated check body s).state = s ∨ (validated check body s).state = (body s).state := by
  rcases validated_cases check body s with ⟨c, -, h⟩ | ⟨-, h⟩
  · exact .inl (by rw [h]; rfl)
  · exact .inr (by rw [h])

/-- LDKEY changes KEY, KEY_LEN, KS and KS_VALID among the registers, and no byte of memory. -/
theorem runLdkey_state (s : State) :
    ∃ k l ks v tr d,
      (runLdkey s).state = { s with key := k, keyLen := l, ks := ks, ksValid := v, trace := tr, draws := d } := by
  rcases validated_state (ldkeyCheck s) loadKey s with h | h
  · exact ⟨_, _, _, _, _, _, h⟩
  · obtain ⟨k, l, ks, v, tr, d, h'⟩ := loadKey_state s
    exact ⟨k, l, ks, v, tr, d, h.trans h'⟩

/-- LDNONCE changes CTR, CTR_VALID, KS and KS_VALID among the registers, and no byte of memory. -/
theorem runLdnonce_state (s : State) :
    ∃ c cv ks v tr d,
      (runLdnonce s).state = { s with ctr := c, ctrValid := cv, ks := ks, ksValid := v, trace := tr, draws := d } := by
  rcases validated_state (ldnonceCheck s) loadNonce s with h | h
  · exact ⟨_, _, _, _, _, _, h⟩
  · obtain ⟨c, cv, ks, v, tr, d, h'⟩ := loadNonce_state s
    exact ⟨c, cv, ks, v, tr, d, h.trans h'⟩

/-- INCCTR changes CTR alone. -/
theorem runIncctr_state (s : State) : ∃ c, (runIncctr s).state = { s with ctr := c } := by
  rcases validated_state (incctrCheck s) (fun s => .ok () { s with ctr := inc128 s.ctr }) s with h | h
  · exact ⟨_, h⟩
  · exact ⟨_, h⟩

/-- GENKS changes KS, KS_VALID and CTR among the registers, and no byte of memory. -/
theorem runGenks_state (C : CipherPort) (s : State) :
    ∃ ks v c tr, (runGenks C s).state = { s with ks := ks, ksValid := v, ctr := c, trace := tr } := by
  rcases validated_state (genksCheck s) (fun s => (genBlock C s).bind fun _ s => .ok () { s with ksValid := true }) s
    with h | h
  · exact ⟨_, _, _, _, h⟩
  · obtain ⟨ks, c, tr, h'⟩ := genBlock_state C s
    cases hr : genBlock C s with
    | raise e t =>
      rw [hr] at h h'
      exact ⟨_, _, _, _, h.trans h'⟩
    | wait t =>
      rw [hr] at h h'
      exact ⟨_, _, _, _, h.trans h'⟩
    | ok x t =>
      rw [hr] at h h'
      change t = _ at h'
      subst h'
      exact ⟨_, _, _, _, h⟩

/-- XORKS changes no register; of memory, its destination alone (`runXorks_mem_ne`). -/
theorem runXorks_state (s : State) :
    ∃ m tr d, (runXorks s).state = { s with mem := m, trace := tr, draws := d } := by
  rcases validated_state (xorksCheck s)
    (fun s => xorBlock s.snap.src.toNat s.snap.dst.toNat s.snap.len.toNat s) s with h | h
  · exact ⟨_, _, _, h⟩
  · obtain ⟨m, tr, d, h'⟩ := xorBlock_state s.snap.src.toNat s.snap.dst.toNat s.snap.len.toNat s
    exact ⟨m, tr, d, h.trans h'⟩

theorem runXorks_mem_ne (s : State) {b : Nat} (h : b < s.snap.dst.toNat ∨ s.snap.dst.toNat + s.snap.len.toNat ≤ b) :
    (runXorks s).state.mem.byteAt b = s.mem.byteAt b := by
  rcases validated_state (xorksCheck s)
    (fun s => xorBlock s.snap.src.toNat s.snap.dst.toNat s.snap.len.toNat s) s with h' | h'
  · rw [runXorks, h']
  · rw [runXorks, h']; exact xorBlock_mem_ne _ _ _ s h

/-- XFORM changes the command registers and its destination (`runXform_mem_ne`). -/
theorem runXform_state (C : CipherPort) (s : State) :
    ∃ mem k l ks v c cv b q tr d,
      (runXform C s).state =
        { s with
          mem := mem, key := k, keyLen := l, ks := ks, ksValid := v, ctr := c, ctrValid := cv, blkcnt := b
          seq := q, trace := tr, draws := d } := by
  rcases validated_state (xformCheck s) (xformBody C) s with h | h
  · exact ⟨_, _, _, _, _, _, _, _, _, _, _, h⟩
  · obtain ⟨mem, k, l, ks, v, c, cv, b, q, tr, d, h'⟩ := xformBody_state C s
    exact ⟨mem, k, l, ks, v, c, cv, b, q, tr, d, h.trans h'⟩

/-- XFORM's loop leaves every byte outside the message's destination alone, however it ends. -/
theorem xformLoop_mem_ne (C : CipherPort) (src dst m n j : Nat) (s : State) {b : Nat} (h : b < dst ∨ dst + m ≤ b) :
    (xformLoop C src dst m n j s).state.mem.byteAt b = s.mem.byteAt b := by
  induction n generalizing j s with
  | zero => rfl
  | succ n ih =>
    have hb : (xformBlock C src dst m j s).state.mem.byteAt b = s.mem.byteAt b := by
      unfold xformBlock
      obtain ⟨ks, c, tr, hg⟩ := genBlock_state C (s.atBlock j)
      cases hr : genBlock C (s.atBlock j) with
      | raise e t => rw [hr] at hg; change t = _ at hg; subst hg; rfl
      | wait t => rw [hr] at hg; change t = _ at hg; subst hg; rfl
      | ok x t =>
        rw [hr] at hg; change t = _ at hg
        rw [Run.bind_ok, xorBlock_mem_ne _ _ _ t (by unfold blockBytes; omega), hg]
        rfl
    unfold xformLoop
    cases hr : xformBlock C src dst m j s with
    | raise e t => rw [hr] at hb; exact hb
    | wait t => rw [hr] at hb; exact hb
    | ok x t => rw [hr] at hb; exact (ih (j + 1) t).trans hb

theorem xformBody_mem_ne (C : CipherPort) (s : State) {b : Nat}
    (h : b < s.snap.dst.toNat ∨ s.snap.dst.toNat + s.snap.len.toNat ≤ b) :
    (xformBody C s).state.mem.byteAt b = s.mem.byteAt b := by
  unfold xformBody
  dsimp only
  obtain ⟨k, l, ks, v, tr, d, h1⟩ := loadKey_state (s.xformStarted (blockCount s.snap.len.toNat))
  cases hr1 : loadKey (s.xformStarted (blockCount s.snap.len.toNat)) with
  | raise e t => rw [hr1] at h1; change t = _ at h1; subst h1; rfl
  | wait t => rw [hr1] at h1; change t = _ at h1; subst h1; rfl
  | ok x t =>
    rw [hr1] at h1; change t = _ at h1
    rw [Run.bind_ok]
    obtain ⟨c, cv, ks2, v2, tr2, d2, h2⟩ := loadNonce_state t
    cases hr2 : loadNonce t with
    | raise e u => rw [hr2] at h2; change u = _ at h2; subst h2; subst h1; rfl
    | wait u => rw [hr2] at h2; change u = _ at h2; subst h2; subst h1; rfl
    | ok y u =>
      rw [hr2] at h2; change u = _ at h2
      rw [Run.bind_ok]
      have hu : u.mem = s.mem ∧ u.snap = s.snap := by subst h2; subst h1; exact ⟨rfl, rfl⟩
      have h3 := xformLoop_mem_ne C u.snap.src.toNat u.snap.dst.toNat s.snap.len.toNat
        (blockCount s.snap.len.toNat) 0 u (b := b) (by rw [hu.2]; exact h)
      rw [hu.1] at h3
      cases hr3 : xformLoop C u.snap.src.toNat u.snap.dst.toNat s.snap.len.toNat
        (blockCount s.snap.len.toNat) 0 u with
      | raise e w => rw [hr3] at h3; exact h3
      | wait w => rw [hr3] at h3; exact h3
      | ok z w => rw [hr3] at h3; exact h3

theorem runXform_mem_ne (C : CipherPort) (s : State) {b : Nat}
    (h : b < s.snap.dst.toNat ∨ s.snap.dst.toNat + s.snap.len.toNat ≤ b) :
    (runXform C s).state.mem.byteAt b = s.mem.byteAt b := by
  rcases validated_state (xformCheck s) (xformBody C) s with h' | h'
  · rw [runXform, h']
  · rw [runXform, h']; exact xformBody_mem_ne C s h

/-- INCBUF changes no register but SEQ; of memory, its buffer alone (`runIncbuf_mem_ne`). -/
theorem runIncbuf_state (s : State) :
    ∃ m q tr d, (runIncbuf s).state = { s with mem := m, seq := q, trace := tr, draws := d } := by
  rcases validated_state (incbufCheck s) (incbufLoop s.snap.naddr.toNat s.snap.nlen.toNat) s with h | h
  · exact ⟨_, _, _, _, h⟩
  · obtain ⟨m, q, tr, d, h'⟩ := incbufLoop_state s.snap.naddr.toNat s.snap.nlen.toNat s
    exact ⟨m, q, tr, d, h.trans h'⟩

theorem runIncbuf_mem_ne (s : State) {b : Nat}
    (h : b < s.snap.naddr.toNat ∨ s.snap.naddr.toNat + s.snap.nlen.toNat ≤ b) :
    (runIncbuf s).state.mem.byteAt b = s.mem.byteAt b := by
  rcases validated_state (incbufCheck s) (incbufLoop s.snap.naddr.toNat s.snap.nlen.toNat) s with h' | h'
  · rw [runIncbuf, h']
  · rw [runIncbuf, h']; exact incbufLoop_mem_ne _ _ s h

/-- INCBUF changes no byte outside the suffix it can reach (R58, R63). -/
theorem runIncbuf_mem_suffix (s : State) {b : Nat} (h : spanHas (incbufSuffix (raced s) s) b = false) :
    (runIncbuf s).state.mem.byteAt b = s.mem.byteAt b := by
  rcases validated_state (incbufCheck s) (incbufLoop s.snap.naddr.toNat s.snap.nlen.toNat) s with h' | h'
  · rw [runIncbuf, h']
  · rw [runIncbuf, h']
    have hle := carryReach_le s.cfg s.mem (raced s) s.snap.naddr.toNat s.snap.nlen.toNat
    by_cases hb : b < s.snap.naddr.toNat + s.snap.nlen.toNat
    · refine incbufLoop_mem_below _ _ s ?_
      unfold spanHas incbufSuffix at h
      dsimp only at h
      rw [Bool.and_eq_false_iff, decide_eq_false_iff_not, decide_eq_false_iff_not] at h
      omega
    · exact incbufLoop_mem_ne _ _ s (.inr (by omega))

/-- The run behind each command's meaning. -/
def runOf : Instr → State → Run Unit
  | .ldkey, s => runLdkey s
  | .ldnonce, s => runLdnonce s
  | .incctr, s => runIncctr s
  | .genks, s => runGenks Config.cipherPort s
  | .xorks, s => runXorks s
  | .xform, s => runXform Config.cipherPort s
  | .incbuf, s => runIncbuf s

/-- Every meaning is its finished run: a command neither faults nor is refused. -/
theorem exec_runOf (i : Instr) (s : State) : exec i s = .next (finish (runOf i s)) := by cases i <;> rfl

/-- What any command can change before its completion record. -/
theorem runOf_state (i : Instr) (s : State) :
    ∃ mem k l ks v c cv b q tr d,
      (runOf i s).state =
        { s with
          mem := mem, key := k, keyLen := l, ks := ks, ksValid := v, ctr := c, ctrValid := cv, blkcnt := b
          seq := q, trace := tr, draws := d } := by
  cases i with
  | ldkey => obtain ⟨_, _, _, _, _, _, h⟩ := runLdkey_state s; exact ⟨_, _, _, _, _, _, _, _, _, _, _, h⟩
  | ldnonce => obtain ⟨_, _, _, _, _, _, h⟩ := runLdnonce_state s; exact ⟨_, _, _, _, _, _, _, _, _, _, _, h⟩
  | incctr => obtain ⟨_, h⟩ := runIncctr_state s; exact ⟨_, _, _, _, _, _, _, _, _, _, _, h⟩
  | genks =>
    obtain ⟨_, _, _, _, h⟩ := runGenks_state Config.cipherPort s; exact ⟨_, _, _, _, _, _, _, _, _, _, _, h⟩
  | xorks => obtain ⟨_, _, _, h⟩ := runXorks_state s; exact ⟨_, _, _, _, _, _, _, _, _, _, _, h⟩
  | xform => exact runXform_state Config.cipherPort s
  | incbuf => obtain ⟨_, _, _, _, h⟩ := runIncbuf_state s; exact ⟨_, _, _, _, _, _, _, _, _, _, _, h⟩

end Sys2Proof.Machine
end

