-- ==== Sys2Proof/Laws/Host.lean ====
section
/-! SUPPORT. What the host's moves, the unit's turn and the reset input can do, said once each. -/

namespace Sys2Proof.Machine

/-! ### The register window -/

theorem offsetOk_regOffset (r : Reg) : offsetOk (regOffset r) = true := by cases r <;> decide

theorem regAt_regOffset (r : Reg) : regAt (regOffset r) = some r := by cases r <;> decide

/-- A host write changes OVERRUN, or it is a CMD or operand write that an IDLE unit takes; else it changes nothing. -/
theorem hostWrite_cases {off : Nat} {v : Word} {s t : State} (h : hostWrite off v s = .next t) :
    (∃ o, t = { s with overrun := o }) ∨ (isBusy s = false ∧ t = accept v s) ∨
      (isBusy s = false ∧ ∃ o, t = { s with ops := o }) := by
  unfold hostWrite at h
  split at h
  · split at h
    · cases h; exact .inl ⟨_, rfl⟩
    · cases h
      unfold writeStatus
      split
      · exact .inl ⟨_, rfl⟩
      · exact .inl ⟨s.overrun, rfl⟩
    · split at h
      · cases h; exact .inl ⟨_, rfl⟩
      · next hb =>
        unfold launch at h
        split at h
        · cases h
        · cases h; exact .inr (.inl ⟨by simpa using hb, rfl⟩)
    · split at h
      · split at h
        · cases h; exact .inl ⟨_, rfl⟩
        · next hb => cases h; exact .inr (.inr ⟨by simpa using hb, _, rfl⟩)
      · cases h; exact .inl ⟨s.overrun, rfl⟩
  · cases h

/-- A host read changes what the host sees, the window and the draws alone. -/
theorem hostRead_cases {off : Nat} {s t : State} (h : hostRead off s = .next t) :
    ∃ fr fw tc hd dr,
      t = { s with fpReads := fr, fpWrites := fw, touched := tc, hostData := hd, draws := dr } := by
  unfold hostRead at h
  split at h
  · split at h
    · cases h; exact ⟨_, _, _, _, _, rfl⟩
    · split at h <;> (cases h; exact ⟨_, _, _, _, _, rfl⟩)
    · split at h <;> (cases h; exact ⟨_, _, _, _, _, rfl⟩)
  · cases h

/-! ### The host's memory accesses -/

theorem touch_eq (s : State) (a : Nat) : ∃ tc, s.touch a = { s with touched := tc } := ⟨_, rfl⟩

/-- A host write of a data byte sets that byte, of an address that exists, and changes no register. -/
theorem hostMemWrite_cases {a : Nat} {v : Byte} {s t : State} (h : hostMemWrite a v s = .next t) :
    a < addrTop s.cfg ∧ ∃ w tc dr, t = { s with mem := s.mem.setByte a w, touched := tc, draws := dr } := by
  unfold hostMemWrite at h
  obtain ⟨tc, ht⟩ := touch_eq s a
  rw [ht] at h
  split at h
  · next ha => split at h <;> (cases h; exact ⟨ha, _, _, _, rfl⟩)
  · cases h

/-- A host read of a data byte changes memory only where it races with a command that writes the byte (R63). -/
theorem hostMemRead_cases {a : Nat} {s t : State} (h : hostMemRead a s = .next t) :
    a < addrTop s.cfg ∧
      ((∃ hd dr, t = { s with hostData := hd, draws := dr }) ∨
        (spansHave s.fpWrites a = true ∧
          ∃ w tc hd dr, t = { s with mem := s.mem.setByte a w, touched := tc, hostData := hd, draws := dr })) := by
  unfold hostMemRead at h
  obtain ⟨tc, ht⟩ := touch_eq s a
  rw [ht] at h
  split at h
  · next ha =>
    split at h
    · next hf => cases h; exact ⟨ha, .inr ⟨hf, _, _, _, _, rfl⟩⟩
    · split at h <;> (cases h; exact ⟨ha, .inl ⟨_, _, rfl⟩⟩)
  · cases h

/-! ### The unit's turn -/

/-- What an accepted word does: nothing while IDLE, IllegalCommand, or its command's finished run. -/
theorem runAccepted_cases (s : State) :
    (s.phase = .idle ∧ runAccepted s = .next s) ∨ (s.phase = .busy ∧ runAccepted s = .next (illegalCommand s)) ∨
      (s.phase = .busy ∧ ∃ i, decode s.seq.word = .ok i ∧ runAccepted s = .next (finish (runOf i s))) := by
  unfold runAccepted
  cases hp : s.phase with
  | idle => exact .inl ⟨rfl, rfl⟩
  | busy =>
    cases hd : decode s.seq.word with
    | error e => exact .inr (.inl ⟨rfl, rfl⟩)
    | ok i => exact .inr (.inr ⟨rfl, i, rfl, exec_runOf i s⟩)

/-- The unit's turn leaves the state as it is, or is what the accepted word does. -/
theorem unitTurn_cases {s t : State} (h : unitTurn s = .next t) :
    t = s ∨ (s.phase = .busy ∧ s.waiting = false ∧ runAccepted s = .next t) := by
  unfold unitTurn at h
  split at h
  · cases h; exact .inl rfl
  · next hw =>
    rcases runAccepted_cases s with ⟨-, h1⟩ | ⟨hp, -⟩ | ⟨hp, -⟩
    · rw [h1] at h; cases h; exact .inl rfl
    · exact .inr ⟨hp, by simpa using hw, h⟩
    · exact .inr ⟨hp, by simpa using hw, h⟩

/-- The unit's turn always gives a next state. -/
theorem unitTurn_next (s : State) : ∃ t, unitTurn s = .next t := by
  unfold unitTurn
  split
  · exact ⟨s, rfl⟩
  · rcases runAccepted_cases s with ⟨-, h⟩ | ⟨-, h⟩ | ⟨-, _, -, h⟩ <;> exact ⟨_, h⟩

/-- A turn with an unanswered request is the turn up to it, after which the command waits. -/
theorem unitStall_cases {k : Nat} {s t : State} (h : unitStall k s = .next t) :
    ∃ u, unitTurn { s with silentAt := some (s.trace.length + k) } = .next u ∧ u.waiting = true ∧
      t = { u with silentAt := none } := by
  unfold unitStall at h
  obtain ⟨u, hu⟩ := unitTurn_next { s with silentAt := some (s.trace.length + k) }
  rw [hu] at h
  dsimp only at h
  split at h
  · next hw => cases h; exact ⟨u, hu, hw, rfl⟩
  · cases h

/-! ### Reset -/

/-- A reset is the registers' reset values over some memory, trace and draws; the parameters stay. -/
theorem resetNow_eq (o : Host.Outcome State Fault Refusal) (s : State) :
    ∃ m tr dr, resetNow o s = resetRegisters { s with mem := m, trace := tr, draws := dr } := by
  unfold resetNow
  split
  · exact ⟨_, _, _, rfl⟩
  · exact ⟨s.mem, s.trace, s.draws, rfl⟩
  · exact ⟨s.mem, s.trace, s.draws, rfl⟩

/-- Replaying writes keeps the memory's canonical form. -/
theorem replayWrites_wf {m : Memory} (h : m.wf = true) (es : List Event) : (replayWrites m es).wf = true := by
  induction es generalizing m with
  | nil => exact h
  | cons e es ih =>
    cases e with
    | read a v => exact ih h
    | write a v => exact ih (Memory.setByte_wf h a v)
    | cipher k b => exact ih h

/-- Replaying writes inside the address space lists no address outside it. -/
theorem replayWrites_below {top : Nat} {m : Memory} (h : m.below top = true) {es : List Event}
    (he : ∀ a v, Event.write a v ∈ es → a < top) : (replayWrites m es).below top = true := by
  induction es generalizing m with
  | nil => exact h
  | cons e es ih =>
    have ht : ∀ a v, Event.write a v ∈ es → a < top := fun a v hm => he a v (List.mem_cons_of_mem _ hm)
    cases e with
    | read a v => exact ih h ht
    | write a v => exact ih (Memory.setByte_below h (he a v (List.mem_cons_self ..)) v) ht
    | cipher k b => exact ih h ht

theorem reset_mem_wf : State.reset.mem.wf = true := rfl

end Sys2Proof.Machine
end

