-- ==== Sys2Proof/Laws/PerInstr.lean ====
section
/-! SUPPORT. The statement made per instruction: it is well formed, and its row of the opcode table, read as the table numbers
bits, is it. -/

namespace Sys2Proof.Laws.TableRow

/-- The instruction is well formed, and the table word whose value is its operation code decodes to it (R71). -/
def Statement (i : Instr) : Prop := i.wf = true ∧ decodeTableWord 32 i.opcode.toNat = some i

theorem ldkey : Statement .ldkey := ⟨rfl, rfl⟩
theorem ldnonce : Statement .ldnonce := ⟨rfl, rfl⟩
theorem incctr : Statement .incctr := ⟨rfl, rfl⟩
theorem genks : Statement .genks := ⟨rfl, rfl⟩
theorem xorks : Statement .xorks := ⟨rfl, rfl⟩
theorem xform : Statement .xform := ⟨rfl, rfl⟩
theorem incbuf : Statement .incbuf := ⟨rfl, rfl⟩

end Sys2Proof.Laws.TableRow
end

