-- ==== Sys2Proof/Tests/Slice0.lean ====
section
/-! SUPPORT. Small tests, their expected values from 95_test_vectors.md, 30_encoding.md or hand calculation, and for each
obligation with hypotheses a witness that meets them. -/

namespace Sys2Proof.Tests

open Sys2Proof Sys2Proof.Machine

/-! ### Small states -/

/-- Memory with the given byte strings placed. -/
def placed (l : List (Nat × List Byte)) : Memory := l.foldl (fun m p => Memory.setBytes m p.1 p.2) []

def operands (src dst len naddr nlen kaddr klen : Nat) : Operands :=
  ⟨BitVec.ofNat 32 src, BitVec.ofNat 32 dst, BitVec.ofNat 32 len, BitVec.ofNat 32 naddr, BitVec.ofNat 32 nlen,
    BitVec.ofNat 32 kaddr, BitVec.ofNat 32 klen⟩

/-- Reset's state with a command accepted on these operands. -/
def busy (w : Word) (o : Operands) (m : Memory) : State :=
  { State.reset with phase := .busy, cmd := w, seq := startSeq w o, ops := o, snap := o, mem := m }

/-- The same with some addresses refused by the memory port. -/
def refusing (spans : List Span) (s : State) : State := { s with cfg := { s.cfg with refused := spans } }

def isOk (r : Run Unit) : Bool :=
  match r with
  | .ok _ _ => true
  | .raise _ _ => false
  | .wait _ => false

theorem eq_ok_of_isOk {r : Run Unit} (h : isOk r = true) : r = .ok () r.state := by
  cases r with
  | ok a s => rfl
  | raise e s => cases h
  | wait s => cases h

/-- The same within a turn whose request number n is never answered, no event before it. -/
def silent (n : Nat) (s : State) : State := { s with silentAt := some n }

/-- The key of V-L1-1. -/
def nistKey : List Byte := beBytes 32 0x603deb1015ca71be2b73aef0857d77811f352c073b6108d72d9810a30914dff4

/-- The initial counter of V-L1-1. -/
def nistCtr : Nat := 0xf0f1f2f3f4f5f6f7f8f9fafbfcfdfeff

/-- The first two keystream blocks of V-L1-1 as a cipher port, which fails on every other block. -/
def nistPort : CipherPort where
  encrypt _ b :=
    match valBe b.toList - nistCtr with
    | 0 => .ok (padTo 16 (beBytes 16 0x0bdf7df1591716335e9a8b15c860c502))
    | 1 => .ok (padTo 16 (beBytes 16 0x5a6e699d536119065433863c8f657b94))
    | _ => .err ⟨7⟩
  encode e := BitVec.ofNat 32 e.code

/-- The cipher port whose cipher is the identity. -/
def idPort : CipherPort where
  encrypt _ b := .ok b
  encode e := BitVec.ofNat 32 e.code

/-- V-L1-1's key, nonce and the first n bytes of its message, with XFORM accepted. -/
def nistXform (n msg : Nat) : State :=
  busy 6 (operands 0x2000 0x3000 n 0x1020 16 0x1000 32)
    (placed [(0x1000, nistKey), (0x1020, beBytes 16 nistCtr), (0x2000, beBytes n msg)])

def nist17 : State := nistXform 17 0x6bc1bee22e409f96e93d7e117393172aae
def nist20 : State := nistXform 20 0x6bc1bee22e409f96e93d7e117393172aae2d8a57
def nist1 : State := nistXform 1 0x6b

/-- LDNONCE of the bytes of v, n of them, at a. -/
def nonceAt (a n v : Nat) : State := busy 2 (operands 0 0 0 a n 0 0) (placed [(a, beBytes n v)])

/-- INCBUF of the bytes of v, n of them, at a. -/
def bufferAt (a n v : Nat) : State := busy 7 (operands 0 0 0 a n 0 0) (placed [(a, beBytes n v)])

/-- LDKEY of n bytes at a. -/
def keyAt (a n : Nat) : State := busy 1 (operands 0 0 0 0 0 a n) (placed [(a, nistKey)])

/-- V-KS-5: XORKS of q bytes at 0x2000 to d. -/
def xorksTo (d q : Nat) : State :=
  { busy 5 (operands 0x2000 d q 0 0 0 0) (placed [(0x2000, beBytes 16 0x6bc1bee22e409f96e93d7e117393172a)]) with
    ks := padTo 16 (beBytes 16 0x0bdf7df1591716335e9a8b15c860c502)
    ksValid := true }

/-- The state with a counter loaded, its value v, and command w accepted. -/
def counterAt (w : Word) (v : Nat) : State :=
  { busy w Operands.zero [] with ctr := padTo 16 (beBytes 16 v), ctrValid := true }

/-- The state after an outcome, if there is one. -/
def after (o : Host.Outcome State Fault Refusal) : State :=
  match o with
  | .next t => t
  | .fault _ => State.reset
  | .refused _ => State.reset

/-! ### Well-formedness: each check refuses a word that fails it (R70, R73) -/

theorem test_wf_refuses_reserved_bits : CmdWord.wf ⟨0x000001, 0x06⟩ = false := by decide
theorem test_wf_refuses_op_zero : CmdWord.wf ⟨0, 0x00⟩ = false := by decide
theorem test_wf_refuses_op_eight : CmdWord.wf ⟨0, 0x08⟩ = false := by decide
theorem test_wf_takes_op_seven : CmdWord.wf ⟨0, 0x07⟩ = true := by decide

/-! ### Decoding: the words written out from the format CMD, RSV then OP (R70, R71) -/

theorem test_decode_ldkey : decode (0b000000000000000000000000#24 ++ 0b00000001#8) = .ok .ldkey := by decide
theorem test_decode_ldnonce : decode (0b000000000000000000000000#24 ++ 0b00000010#8) = .ok .ldnonce := by decide
theorem test_decode_incctr : decode (0b000000000000000000000000#24 ++ 0b00000011#8) = .ok .incctr := by decide
theorem test_decode_genks : decode (0b000000000000000000000000#24 ++ 0b00000100#8) = .ok .genks := by decide
theorem test_decode_xorks : decode (0b000000000000000000000000#24 ++ 0b00000101#8) = .ok .xorks := by decide
theorem test_decode_xform : decode (0b000000000000000000000000#24 ++ 0b00000110#8) = .ok .xform := by decide
theorem test_decode_incbuf : decode (0b000000000000000000000000#24 ++ 0b00000111#8) = .ok .incbuf := by decide

/-- V-ERR-1: every rejected word of the table. -/
theorem test_decode_rejects :
    decode 0x00000100 = .error (.reservedBits 1) ∧ decode 0xFFFFFFFF = .error (.reservedBits 0xFFFFFF) := by decide

theorem test_decodeTableWord : decodeTableWord 32 6 = some .xform ∧ decodeTableWord 8 0x106 = some .xform ∧
    decodeTableWord 32 0x106 = none ∧ decodeTableWord 40 6 = none := by decide

/-! ### The commands -/

/-- V-CNT-4. -/
theorem test_ldnonce_eight_bytes :
    let t := after (exec .ldnonce (nonceAt 0x1020 8 0x0001020304050607))
    valBe t.ctr.toList = 0x00010203040506070000000000000000 ∧ statusWord t = 0x00020002 := by decide

/-- V-CNT-5, third row: the range that ends exactly at 2^32 is legal. -/
theorem test_ldnonce_top_of_memory :
    (after (exec .ldnonce (nonceAt 0xFFFFFFF8 8 0x0001020304050607))).err = .none := by decide

/-- V-CNT-6: the wrap. -/
theorem test_incctr_wraps :
    let t := after (exec .incctr (counterAt 3 (2 ^ 128 - 1)))
    valBe t.ctr.toList = 0 ∧ statusWord t = 0x00020002 := by decide

/-- V-CNT-6, last row. -/
theorem test_incctr_needs_a_counter : statusWord (after (exec .incctr (busy 3 Operands.zero []))) = 0x00000612 := by decide

/-- V-CNT-7, first row. -/
theorem test_incbuf_carries :
    let t := after (exec .incbuf (bufferAt 0x1100 3 0x01ffff))
    t.mem.bytes 0x1100 3 = [0x02, 0x00, 0x00] ∧
      t.trace = [.read 0x1102 0xff, .write 0x1102 0, .read 0x1101 0xff, .write 0x1101 0, .read 0x1100 1, .write 0x1100 2] := by
  decide

/-- V-CNT-7, the row with a refused byte. -/
theorem test_incbuf_stops_at_a_refused_byte :
    let t := after (exec .incbuf (refusing [⟨0x1101, 1⟩] (bufferAt 0x1100 3 0x01ffff)))
    t.mem.bytes 0x1100 3 = [0x01, 0xff, 0x00] ∧ t.erraddr = 0x00001101 ∧ statusWord t = 0x00000032 := by decide

/-- V-KS-3, first row. -/
theorem test_ldkey :
    let t := after (exec .ldkey (keyAt 0x1000 32))
    t.key.toList = nistKey ∧ t.keyLen = 32 ∧ statusWord t = 0x00010002 := by decide

/-- V-KS-3, second row. -/
theorem test_ldkey_bad_length : statusWord (after (exec .ldkey (keyAt 0x1000 16))) = 0x00000312 := by decide

/-- V-KS-4, first row, on a port that knows the block. -/
theorem test_genks :
    let s := { counterAt 4 nistCtr with key := padTo 32 nistKey, keyLen := 32 }
    let t := finish (runGenks nistPort s)
    valBe t.ks.toList = 0x0bdf7df1591716335e9a8b15c860c502 ∧
      valBe t.ctr.toList = 0xf0f1f2f3f4f5f6f7f8f9fafbfcfdff00 ∧ statusWord t = 0x00070002 := by decide

/-- V-KS-4, third row. -/
theorem test_genks_needs_a_key : statusWord (after (exec .genks (counterAt 4 nistCtr))) = 0x00020512 := by decide

/-- V-KS-5, the partial overlap: all reads precede the writes. -/
theorem test_xorks_partial_overlap :
    (after (exec .xorks (xorksTo 0x2001 16))).mem.bytes 0x2000 17 =
      0x6b :: beBytes 16 0x601ec313775789a5b7a7f504bbf3d228 := by decide

/-- V-KS-5, third row: the bytes past LEN are unchanged. -/
theorem test_xorks_five_bytes :
    (after (exec .xorks (xorksTo 0x3000 5))).mem.bytes 0x3000 6 = beBytes 6 0x601ec3137700 := by decide

/-- V-L1-1 cut to 17 bytes, as V-L1-3. -/
theorem test_xform_seventeen_bytes :
    let t := finish (runXform nistPort nist17)
    t.mem.bytes 0x3000 18 = beBytes 18 0x601ec313775789a5b7a7f504bbf3d228f400 ∧
      valBe t.ctr.toList = 0xf0f1f2f3f4f5f6f7f8f9fafbfcfdff01 ∧ statusWord t = 0x00030002 ∧ t.blkcnt = 2 := by decide

/-- U7: the 82nd request of an XFORM of two blocks (32 + 16 reads, then 33 for block 0) is block 1's cipher call: unanswered,
it leaves the first block written and the unit BUSY (R31: j and nblk). -/
theorem test_xform_waits_for_the_cipher :
    let t := finish (runXform nistPort (silent 81 nist17))
    t.mem.bytes 0x3000 17 = beBytes 17 0x601ec313775789a5b7a7f504bbf3d22800 ∧ t.seq = ⟨6, 1, 2, 0⟩ ∧
      statusLow t = 0b0001 := by decide

/-- U7: two requests answered and the third not, INCBUF of 01 FF FF waits at byte 1 (R31: i), and a later turn changes
nothing. -/
theorem test_incbuf_waits_for_memory :
    let t := after (step { bufferAt 0x1100 3 0x01ffff with inputs := [.unitStall 2, .unitTurn] })
    t.mem.bytes 0x1100 3 = [0x01, 0xff, 0x00] ∧ t.seq.idx = 1 ∧ statusLow t = 0b0001 ∧
      after (step t) = { t with inputs := [] } := by decide

/-- INCBUF of one byte 41 makes two requests, numbers 0 and 1: a third cannot stay unanswered (log 9). -/
theorem test_no_such_request :
    step { bufferAt 0x1100 1 0x41 with inputs := [.unitStall 2] } = .refused (.noSuchRequest 2) := rfl

/-- V-L1-9: the message is checked before the nonce and the key. -/
theorem test_xform_checks_the_message_first :
    statusWord (after (exec .xform (busy 6 (operands 0 0 0 0 7 0 16) []))) = 0x00000112 := by decide

/-! ### The register window, reset, races -/

/-- V-REG-2. -/
theorem test_counter_words :
    let s := counterAt 3 0xf0f1f2f3f4f5f6f7f8f9fafbfcfdff03
    regValue .ctr0 s = 0xf0f1f2f3 ∧ regValue .ctr1 s = 0xf4f5f6f7 ∧ regValue .ctr2 s = 0xf8f9fafb ∧
      regValue .ctr3 s = 0xfcfdff03 := by decide

/-- V-REG-3: a CMD write while BUSY keeps CMD and sets OVERRUN. -/
theorem test_busy_cmd_write :
    let t := after (hostWrite 0x00 6 (busy 3 Operands.zero []))
    t.cmd = 3 ∧ statusLow t = 0b0101 := by decide

/-- V-REG-4: the first and the last unmapped offset read 0. -/
theorem test_unmapped_offsets :
    (after (hostRead 0x40 { State.reset with hostData := 5 })).hostData = 0 ∧
      (after (hostRead 0xFC { State.reset with hostData := 5 })).hostData = 0 := by decide

/-- P3, line 17, by the steps of a run: the CMD write, then the unit. -/
theorem test_illegal_word :
    let t := after (step (after (step { State.reset with inputs := [.hostWrite 0x00 8] })))
    statusWord t = 0x00000042 ∧ t.cmd = 8 := by decide

/-- The word that `withFetchWord` places is what the very next step runs: INCCTR from reset, V-CNT-6's last row. -/
theorem test_withFetchWord : statusWord (after (step (State.reset.withFetchWord 32 3))) = 0x00000612 := by decide

/-- R63: a host write of a byte to be read races, between acceptance and the unit's turn, and also before the STATUS read that
shows the completion; after that read, and after a reset (log 23), it does not. -/
theorem test_races :
    let s := accept 2 { State.reset with ops := operands 0 0 0 0x1020 8 0 0 }
    raced (after (hostMemWrite 0x1020 1 s)) 0x1020 = true ∧
      raced { s with inputs := [.memWrite 0x1020 1, .hostRead 0x04] } 0x1020 = true ∧
      raced { s with inputs := [.hostRead 0x04, .memWrite 0x1020 1] } 0x1020 = false ∧
      raced { s with inputs := [.reset, .memWrite 0x1020 1] } 0x1020 = false := by decide

/-- R62: the same STATUS read closes the window where it follows the command's turn, and not where the command waits in its
turn, nor before the turn. -/
theorem test_races_past_a_status_read :
    let s := accept 2 { State.reset with ops := operands 0 0 0 0x1020 8 0 0 }
    let late : List Input := [.hostRead 0x04, .memWrite 0x1020 1]
    racedFrom .busy { s with inputs := .unitTurn :: late } 0x1020 = false ∧
      racedFrom .busy { s with inputs := .unitStall 3 :: late } 0x1020 = true ∧
      racedFrom .busy { s with inputs := late } 0x1020 = true ∧ raced (silent 3 { s with inputs := late }) 0x1020 = true := by
  decide

/-- R63: the host is a second reader of a byte LDNONCE reads and the host writes: before its write and after it. -/
theorem test_second_reader :
    let s := accept 2 { State.reset with ops := operands 0 0 0 0x1020 8 0 0, inputs := [.memWrite 0x1020 1] }
    (after (hostMemRead 0x1020 s)).hostData = (Config.freeByte 0).setWidth 32 ∧
      (after (hostMemRead 0x1020 (after (step s)))).hostData = (Config.freeByte 1).setWidth 32 := ⟨rfl, rfl⟩

/-- R58, R63: INCBUF of 00 00 41 reaches its last byte alone; the byte above too, at which it stops, where the host races on
the last one, in a listed move or earlier in the open window; and nothing from a refused byte down (log 25). -/
theorem test_incbuf_footprint :
    let span := fun s : State => footprintWrites 7 s
    let s := bufferAt 0x1100 3 0x41
    span s = [⟨0x1102, 1⟩] ∧ span { s with inputs := [.memWrite 0x1102 0] } = [⟨0x1101, 2⟩] ∧
      span { s with touched := [0x1102] } = [⟨0x1101, 2⟩] ∧
      span { s with inputs := [.unitTurn, .hostRead 0x04, .memWrite 0x1102 0] } = [⟨0x1102, 1⟩] ∧
      span (refusing [⟨0x1101, 1⟩] { s with inputs := [.memRead 0x1102] }) = [⟨0x1102, 1⟩] ∧
      span (refusing [⟨0x1101, 1⟩] (bufferAt 0x1100 3 0x01ffff)) = [⟨0x1102, 1⟩] := by decide

/-- R59: INCBUF beside a device byte that it can reach only where its last byte, raced earlier in the window, reads as 0xFF. -/
theorem test_incbuf_device :
    let s := { bufferAt 0x1100 3 0x41 with cfg := { Config.params with devices := [⟨0x1101, 1⟩] } }
    meetsDevice 7 s = false ∧ meetsDevice 7 { s with touched := [0x1102] } = true ∧
      meetsDevice 7 { s with cfg := { Config.params with devices := [⟨0x1100, 1⟩] }, touched := [0x1102] } = false := by decide

/-- R78: the transform line of P4. -/
theorem test_transform_line :
    lineMoves (.transform (operands 0x2000 0x2000 17 0x1020 8 0x1000 0x20) 0) =
      [.hostWrite 0x08 0x2000, .hostWrite 0x0C 0x2000, .hostWrite 0x10 0x11, .hostWrite 0x14 0x1020, .hostWrite 0x18 8,
        .hostWrite 0x1C 0x1000, .hostWrite 0x20 0x20, .hostWrite 0x00 6, .unitTurn, .hostRead 0x04] := by decide

/-- R60: the first and the last word of the window, wherever its base lies, and the word past it. -/
theorem test_bus_window (v : Word) :
    busWrite Config.unitBase v = some (.hostWrite 0x00 v) ∧ busRead (Config.unitBase + 0xFC) = some (.hostRead 0xFC) ∧
      busRead (Config.unitBase + 0x100) = none := by simp [busWrite, busRead, windowOffset]

/-! ### Witnesses: the hypotheses of each obligation can be met -/

theorem test_witness_EncodedCommandDecodesBack : Instr.wf .ldkey = true ∧ Instr.wf .incbuf = true := by decide

theorem test_witness_StepRunsTheDecodedCommand :
    let s := nonceAt 0x1020 8 1
    (s.phase = .busy ∧ decode s.seq.word = .ok .ldnonce ∧ s.waiting = false ∧ s.inputs = []) ∧
      (let u := { s with inputs := [.unitTurn, .reset] }
       u.phase = .busy ∧ decode u.seq.word = .ok .ldnonce ∧ u.waiting = false ∧ u.inputs = .unitTurn :: [.reset]) := by
  decide

/-- An illegal word, and a nonce load beside a device region that it does not meet, and one that it does. -/
theorem test_witness_CmdWriteIsAccepted :
    (let s := { State.reset with inputs := [.hostWrite 0x00 0xFFFFFFFF, .unitTurn] }
     s.phase = .idle ∧ s.inputs = .hostWrite 0x00 0xFFFFFFFF :: [.unitTurn] ∧
      meetsDevice 0xFFFFFFFF { s with inputs := [.unitTurn], snap := s.ops } = false) ∧
    (let s :=
      { State.reset with
        ops := operands 0 0 0 0x1020 8 0 0
        cfg := { Config.params with devices := [⟨0x1028, 16⟩] }
        inputs := [.hostWrite 0x00 2] }
     s.phase = .idle ∧ s.inputs = .hostWrite 0x00 2 :: [] ∧ meetsDevice 2 { s with inputs := [], snap := s.ops } = false) ∧
    (let s :=
      { State.reset with
        ops := operands 0 0 0 0x1020 8 0 0
        cfg := { Config.params with devices := [⟨0x1027, 16⟩] }
        inputs := [.hostWrite 0x00 2] }
     s.phase = .idle ∧ s.inputs = .hostWrite 0x00 2 :: [] ∧
      meetsDevice 2 { s with inputs := [], snap := s.ops } = true) := by decide

/-- Its clauses on the window: an illegal word, a command that fails its validation, and each of the seven that passes its. -/
theorem test_witness_CmdWriteIsAccepted_window :
    (fieldsOf 0xFFFFFFFF).wf = false ∧ commandCheck .incctr State.reset ≠ none ∧ commandCheck .ldkey (keyAt 0x1000 32) = none ∧
      commandCheck .ldnonce (nonceAt 0x1020 8 1) = none ∧ commandCheck .incctr (counterAt 3 0) = none ∧
      commandCheck .genks { counterAt 4 nistCtr with keyLen := 32 } = none ∧ commandCheck .xorks (xorksTo 0x3000 16) = none ∧
      commandCheck .xform nist17 = none ∧ commandCheck .incbuf (bufferAt 0x1100 3 1) = none := by decide

/-- R58: XORKS adds its source to what the window reads and its destination to what it writes, once accepted. -/
theorem test_acceptance_opens_the_window :
    let s := { xorksTo 0x3000 16 with phase := .idle, fpReads := [⟨0x10, 1⟩], inputs := [.hostWrite 0x00 5] }
    let t := after (step s)
    t.fpReads = [⟨0x10, 1⟩, ⟨0x2000, 16⟩] ∧ t.fpWrites = [⟨0x3000, 16⟩] := by decide

/-- Its clauses on SEQ: an XFORM of 17 bytes and an INCBUF of 3. -/
theorem test_witness_CmdWriteIsAccepted_loops :
    (startSeq (encode .xform) nist17.ops).nblk = 2 ∧
      (startSeq (encode .incbuf) (bufferAt 0x1100 3 1).ops).idx = 2 := by decide

theorem test_witness_IllegalWordCompletesWithIllegalCommand :
    let s := { State.reset with inputs := [.hostWrite 0x00 0x106] }
    (fieldsOf 0x106).wf = false ∧ s.phase = .idle ∧ s.inputs = [.hostWrite 0x00 0x106] := by decide

/-- A waiting command with no move pending, with its turn next, and with a stall next. -/
theorem test_witness_UnansweredCommandStaysBusy_waiting :
    let s := { nonceAt 0x1020 8 1 with waiting := true }
    (s.waiting = true ∧ s.inputs = []) ∧ { s with inputs := [.unitTurn] }.inputs = .unitTurn :: [] ∧
      { s with inputs := [.unitStall 3] }.inputs = .unitStall 3 :: [] := by decide

/-- A stall at a nonce load's request 3, which it makes, and at request 8, which it does not. -/
theorem test_witness_UnansweredCommandStaysBusy_stall :
    ∀ k w, k = 3 ∧ w = true ∨ k = 8 ∧ w = false →
      let s := { nonceAt 0x1020 8 1 with inputs := [.unitStall k] }
      s.phase = .busy ∧ s.waiting = false ∧ decode s.seq.word = .ok .ldnonce ∧ s.inputs = .unitStall k :: [] ∧
        ∃ t, exec .ldnonce { s with inputs := [], silentAt := some (s.trace.length + k) } = .next t ∧ t.waiting = w := by
  rintro k w (⟨rfl, rfl⟩ | ⟨rfl, rfl⟩) <;>
    exact ⟨rfl, rfl, (by decide : decode (nonceAt 0x1020 8 1).seq.word = .ok .ldnonce), rfl, _, rfl, rfl⟩

/-- LDKEY silent at its byte 3, LDNONCE at byte 0, XORKS at its write 5, INCBUF at its first byte. -/
theorem test_witness_UnansweredCommandStaysBusy_memory :
    (let s := silent 3 (keyAt 0x1000 32)
     commandCheck .ldkey s = none ∧ raceFree .ldkey s ∧ admitsRange s.cfg s.snap.kaddr.toNat 3 ∧ 3 < s.snap.klen.toNat ∧
      s.silentAt = some (s.trace.length + 3)) ∧
    (let s := silent 0 (nonceAt 0x1020 8 1)
     commandCheck .ldnonce s = none ∧ raceFree .ldnonce s ∧ admitsRange s.cfg s.snap.naddr.toNat 0 ∧
      0 < s.snap.nlen.toNat ∧ s.silentAt = some (s.trace.length + 0)) ∧
    (let s := silent 21 (xorksTo 0x3000 16)
     commandCheck .xorks s = none ∧ raceFree .xorks s ∧ admitsRange s.cfg s.snap.src.toNat s.snap.len.toNat ∧
      admitsRange s.cfg s.snap.dst.toNat 5 ∧ 5 < s.snap.len.toNat ∧
      s.silentAt = some (s.trace.length + (s.snap.len.toNat + 5))) ∧
    (let s := silent 0 (bufferAt 0x1100 3 1)
     commandCheck .incbuf s = none ∧ 1 ≤ s.snap.nlen.toNat ∧ s.silentAt = some (s.trace.length + 0)) :=
  ⟨⟨rfl, raceFree_of_calm rfl rfl _, fun _ _ => rfl, by decide, rfl⟩,
    ⟨rfl, raceFree_of_calm rfl rfl _, fun _ _ => rfl, by decide, rfl⟩,
    ⟨rfl, raceFree_of_calm rfl rfl _, fun _ _ => rfl, fun _ _ => rfl, by decide, rfl⟩, ⟨rfl, by decide, rfl⟩⟩

/-- R193's own case, the cipher silent: for GENKS, and for XFORM at block 1. -/
theorem test_witness_UnansweredCommandStaysBusy_cipher :
    (let s := silent 0 { counterAt 4 nistCtr with keyLen := 32 }
     commandCheck .genks s = none ∧ s.silentAt = some (s.trace.length + 0)) ∧
    (let s := silent 81 nist17
     commandCheck .xform s = none ∧ raceFree .xform s ∧ admitsRange s.cfg s.snap.kaddr.toNat s.snap.klen.toNat ∧
      admitsRange s.cfg s.snap.naddr.toNat s.snap.nlen.toNat ∧ 1 < blockCount s.snap.len.toNat ∧
      admitsRange s.cfg s.snap.src.toNat (16 * 1) ∧ admitsRange s.cfg s.snap.dst.toNat (16 * 1) ∧
      (keystream nistPort (keyBytes s) (firstCounter s) 1).2 = none ∧
      s.silentAt = some (s.trace.length + (s.snap.klen.toNat + s.snap.nlen.toNat + 33 * 1))) :=
  ⟨⟨rfl, rfl⟩,
    ⟨rfl, raceFree_of_calm rfl rfl _, fun _ _ => rfl, fun _ _ => rfl, by decide, fun _ _ => rfl, fun _ _ => rfl, by decide,
      rfl⟩⟩

/-- For CommandsLeaveTheHostSide and OnlyTheNamedCommandsWriteARegister. -/
theorem test_witness_every_command_answers (i : Instr) : ∃ t, exec i State.reset = .next t := by cases i <;> exact ⟨_, rfl⟩

/-- The bytes on either side of an XORKS destination, and of what INCBUF reaches: its last byte, and the next one where the
last one is raced. -/
theorem test_witness_CommandsStoreOnlyToTheirDestination :
    (∃ t, exec .xorks (xorksTo 0x3000 5) = .next t) ∧ mayStoreTo .xorks (xorksTo 0x3000 5) 0x2fff = false ∧
      mayStoreTo .xorks (xorksTo 0x3000 5) 0x3005 = false ∧ mayStoreTo .incbuf (bufferAt 0x1100 3 1) 0x1101 = false ∧
      mayStoreTo .incbuf (bufferAt 0x1100 3 1) 0x1103 = false ∧
      mayStoreTo .incbuf { bufferAt 0x1100 3 1 with touched := [0x1102] } 0x1100 = false :=
  ⟨⟨_, rfl⟩, rfl, rfl, by decide, by decide, by decide⟩

/-- V-CNT-5, V-KS-5 and V-L1-9: one failing check of each kind. -/
theorem test_witness_ValidationErrorsHaveNoSideEffect :
    commandCheck .ldnonce (nonceAt 0xFFFFFFF8 16 0) = some .range ∧
      commandCheck .ldnonce (nonceAt 0x1020 10 0) = some .badNonceLen ∧
      commandCheck .ldkey (keyAt 0x1000 24) = some .badKeyLen ∧
      commandCheck .xorks (xorksTo 0x3000 17) = some .badXorLen ∧
      commandCheck .xorks { xorksTo 0x3000 16 with ksValid := false } = some .noKeystream ∧
      commandCheck .xform (nistXform 0 0) = some .emptyMessage ∧
      commandCheck .genks (counterAt 4 0) = some .noKey ∧ commandCheck .genks State.reset = some .noCounter := by decide

/-- ValidationOrder has no hypotheses; its clauses at the ends of their ranges (R157: a range may end at 2^AW). -/
theorem test_witness_ValidationOrder :
    commandCheck .ldkey (keyAt 0xFFFFFFE0 32) = none ∧ commandCheck .ldkey (keyAt 0xFFFFFFE1 32) = some .range ∧
      commandCheck .ldnonce (nonceAt 0xFFFFFFF0 16 0) = none ∧
      commandCheck .ldnonce (nonceAt 0xFFFFFFF1 16 0) = some .range ∧
      commandCheck .xorks (xorksTo 0x3000 1) = none ∧ commandCheck .xorks (xorksTo 0x3000 16) = none ∧
      commandCheck .xorks (xorksTo 0x3000 0) = some .badXorLen ∧
      commandCheck .xorks (xorksTo 0xFFFFFFF1 16) = some .range ∧
      commandCheck .incbuf (bufferAt 0xFFFFFFFF 0 0) = none ∧ commandCheck .incbuf (bufferAt 0xFFFFFFFE 2 0) = none ∧
      commandCheck .incbuf (bufferAt 0xFFFFFFFE 3 0) = some .range ∧
      commandCheck .xform { nistXform 0 0 with cfg := { Config.params with allowEmpty := true } } = none := by decide

/-- For InitCounterIsTheNonceLeftAligned and IncrementsKeepTheNonceBytes: a nonce of each length. -/
theorem test_witness_nonce_lengths :
    (beBytes 8 7).length = 8 ∧ (beBytes 12 7).length = 12 ∧ (beBytes 16 7).length = 16 := by decide

/-- BigEndianBytesAreTheInverse: the largest value of its range. -/
theorem test_witness_BigEndianBytesAreTheInverse : 2 ^ 24 - 1 < 256 ^ 3 := by decide

/-- The last nonce of memory, and one beside which the host writes a byte (R62, R191). -/
theorem test_witness_LdnonceLoadsTheCounter :
    (let s := nonceAt 0xFFFFFFF8 8 0x0001020304050607
     commandCheck .ldnonce s = none ∧ admitsRange s.cfg s.snap.naddr.toNat s.snap.nlen.toNat ∧ raceFree .ldnonce s ∧
      answered s s.snap.nlen.toNat) ∧
    (let s := { nonceAt 0x1020 8 1 with inputs := [.memWrite 0x1028 1] }
     commandCheck .ldnonce s = none ∧ admitsRange s.cfg s.snap.naddr.toNat s.snap.nlen.toNat ∧ raceFree .ldnonce s ∧
      answered s s.snap.nlen.toNat) := by
  refine ⟨⟨rfl, fun _ _ => rfl, raceFree_of_calm rfl rfl _, answered_of_none rfl _⟩,
    ⟨rfl, fun _ _ => rfl, fun a ha => ?_, answered_of_none rfl _⟩⟩
  have hlt : a < 0x1028 := by
    have h : (spanHas ⟨0x1020, 8⟩ a || false) = true := ha
    simp [spanHas] at h
    omega
  change ([0x1028] : List Nat).contains a = false
  simp
  omega

/-- V-CNT-5's last row, and the first byte refused. -/
theorem test_witness_LdnonceStopsAtARefusedByte :
    (let s := refusing [⟨0x1023, 1⟩] (nonceAt 0x1020 8 1)
     commandCheck .ldnonce s = none ∧ 3 < s.snap.nlen.toNat ∧ admitsRange s.cfg s.snap.naddr.toNat 3 ∧
      admits s.cfg (s.snap.naddr.toNat + 3) = false ∧ raceFree .ldnonce s ∧ answered s (3 + 1)) ∧
    (let s := refusing [⟨0x1020, 1⟩] (nonceAt 0x1020 8 1)
     commandCheck .ldnonce s = none ∧ 0 < s.snap.nlen.toNat ∧ admitsRange s.cfg s.snap.naddr.toNat 0 ∧
      admits s.cfg (s.snap.naddr.toNat + 0) = false ∧ raceFree .ldnonce s ∧ answered s (0 + 1)) := by
  unfold admitsRange
  refine ⟨⟨by decide, by decide, by decide, by decide, raceFree_of_calm rfl rfl _, answered_of_none rfl _⟩,
    ⟨by decide, by decide, by decide, by decide, raceFree_of_calm rfl rfl _, answered_of_none rfl _⟩⟩

/-- For IncctrAddsOneToTheCounter, IncctrRepeatedAddsK and GenksMakesOneBlock. -/
theorem test_witness_counter_and_key :
    let s := { counterAt 4 nistCtr with keyLen := 32 }
    s.ctrValid = true ∧ s.keyLen ≠ 0 ∧ answered s 1 := ⟨rfl, by decide, answered_of_none rfl _⟩

/-- The largest k that leaves a 12-byte nonce alone. -/
theorem test_witness_IncrementsKeepTheNonceBytes :
    let s := { State.reset with ctr := initCounter (beBytes 12 5), ctrValid := true }
    (beBytes 12 5).length = 12 ∧ s.ctrValid = true ∧ s.ctr = initCounter (beBytes 12 5) ∧ 2 ^ 32 - 1 < 256 ^ (16 - 12) :=
  ⟨rfl, rfl, rfl, by decide⟩

/-- For IncbufIncrementsTheBuffer and IncbufEvents: only the byte reached need be admitted and unraced; the last buffer of
memory; a carry through the whole buffer; and an empty one. -/
theorem test_witness_IncbufIncrementsTheBuffer :
    ∀ s : State, s = refusing [⟨0xFFFFFFFD, 1⟩] { bufferAt 0xFFFFFFFD 3 0x123456 with touched := [0xFFFFFFFE] } ∨
      s = bufferAt 0x1100 2 0xffff ∨ s = bufferAt 0xFFFFFFFF 0 0 →
      let n := s.snap.nlen.toNat
      let ff := trailingFF (s.mem.bytes s.snap.naddr.toNat n)
      commandCheck .incbuf s = none ∧ s.mem.wf = true ∧
        (∀ i, n - (ff + 1) ≤ i → i < n →
          admits s.cfg (s.snap.naddr.toNat + i) = true ∧ raced s (s.snap.naddr.toNat + i) = false) ∧
        answered s (2 * if ff < n then ff + 1 else n) := by
  have bound : ∀ (n k : Nat) (P : Nat → Prop), (∀ i, i < n → k ≤ i → P i) → ∀ i, k ≤ i → i < n → P i :=
    fun n k P h i h1 h2 => h i h2 h1
  rintro s (rfl | rfl | rfl) <;>
    exact ⟨by decide, by decide, bound _ _ _ (by decide), answered_of_none rfl _⟩

/-- V-CNT-7's row with a refused byte. -/
theorem test_witness_IncbufStopsAtARefusedByte :
    let s := refusing [⟨0x1101, 1⟩] (bufferAt 0x1100 3 0x01ffff)
    commandCheck .incbuf s = none ∧ s.mem.wf = true ∧ 1 < s.snap.nlen.toNat ∧
      (∀ k, k < s.snap.nlen.toNat → 1 < k →
        s.mem.byteAt (s.snap.naddr.toNat + k) = 0xff ∧ admits s.cfg (s.snap.naddr.toNat + k) = true ∧
          raced s (s.snap.naddr.toNat + k) = false) ∧
      admits s.cfg (s.snap.naddr.toNat + 1) = false ∧ answered s (2 * (s.snap.nlen.toNat - (1 + 1)) + 1) :=
  ⟨by decide, by decide, by decide, by decide, by decide, answered_of_none rfl _⟩

theorem test_witness_IncbufThenLdnonceIsLdnonceThenIncctr :
    let s := nonceAt 0xFFFFFFF0 16 nistCtr
    s.snap.nlen = 16 ∧ commandCheck .ldnonce s = none ∧ admitsRange s.cfg s.snap.naddr.toNat 16 ∧ raceFree .ldnonce s ∧
      s.mem.wf = true ∧ answered s 48 :=
  ⟨rfl, rfl, fun _ _ => rfl, raceFree_of_calm rfl rfl _, by decide, answered_of_none rfl _⟩

theorem test_witness_LdkeyLoadsTheKey :
    let s := keyAt 0x1000 32
    commandCheck .ldkey s = none ∧ admitsRange s.cfg s.snap.kaddr.toNat s.snap.klen.toNat ∧ raceFree .ldkey s ∧
      answered s s.snap.klen.toNat :=
  ⟨rfl, fun _ _ => rfl, raceFree_of_calm rfl rfl _, answered_of_none rfl _⟩

/-- V-KS-3's last row. -/
theorem test_witness_LdkeyStopsAtARefusedByte :
    let s := refusing [⟨0x1010, 1⟩] (keyAt 0x1000 32)
    commandCheck .ldkey s = none ∧ 16 < s.snap.klen.toNat ∧ admitsRange s.cfg s.snap.kaddr.toNat 16 ∧
      admits s.cfg (s.snap.kaddr.toNat + 16) = false ∧ raceFree .ldkey s ∧ answered s (16 + 1) := by
  unfold admitsRange
  exact ⟨by decide, by decide, by decide, by decide, raceFree_of_calm rfl rfl _, answered_of_none rfl _⟩

/-- The smallest and the largest length. -/
theorem test_witness_XorksXorsTheBlock :
    ∀ q, q = 1 ∨ q = 16 →
      let s := xorksTo 0x2001 q
      commandCheck .xorks s = none ∧ admitsRange s.cfg s.snap.src.toNat s.snap.len.toNat ∧
        admitsRange s.cfg s.snap.dst.toNat s.snap.len.toNat ∧ raceFree .xorks s ∧ s.mem.wf = true ∧
        answered s (2 * s.snap.len.toNat) := by
  rintro q (rfl | rfl) <;>
    exact ⟨rfl, fun _ _ => rfl, fun _ _ => rfl, raceFree_of_calm rfl rfl _, by decide, answered_of_none rfl _⟩

/-- V-KS-5's last row for a refused write, and a refused read. -/
theorem test_witness_XorksStopsAtARefusedByte :
    (let s := refusing [⟨0x2005, 1⟩] (xorksTo 0x3000 16)
     commandCheck .xorks s = none ∧ raceFree .xorks s ∧ s.mem.wf = true ∧ 5 < s.snap.len.toNat ∧
      admitsRange s.cfg s.snap.src.toNat 5 ∧ admits s.cfg (s.snap.src.toNat + 5) = false ∧ answered s (5 + 1)) ∧
    (let s := refusing [⟨0x3005, 1⟩] (xorksTo 0x3000 16)
     commandCheck .xorks s = none ∧ raceFree .xorks s ∧ s.mem.wf = true ∧ 5 < s.snap.len.toNat ∧
      admitsRange s.cfg s.snap.src.toNat s.snap.len.toNat ∧ admitsRange s.cfg s.snap.dst.toNat 5 ∧
      admits s.cfg (s.snap.dst.toNat + 5) = false ∧ answered s (s.snap.len.toNat + 5 + 1)) := by
  unfold admitsRange
  exact ⟨⟨by decide, raceFree_of_calm rfl rfl _, by decide, by decide, by decide, by decide, answered_of_none rfl _⟩,
    ⟨by decide, raceFree_of_calm rfl rfl _, by decide, by decide, by decide, by decide, by decide,
      answered_of_none rfl _⟩⟩

/-- One byte raced and another not, for each of the three commands; the nonce ends, and so does a 16-byte key, before the last
byte of its register. -/
theorem test_witness_RacedBytesAloneAreFree :
    (let s := { nonceAt 0x1020 8 1 with touched := [0x1020] }
     commandCheck .ldnonce s = none ∧ admitsRange s.cfg s.snap.naddr.toNat s.snap.nlen.toNat ∧
      answered s s.snap.nlen.toNat ∧ raced s 0x1020 = true ∧ raced s (s.snap.naddr.toNat + 1) = false ∧
      s.snap.nlen.toNat ≤ 8) ∧
    (let s := { keyAt 0x1000 32 with touched := [0x1000] }
     commandCheck .ldkey s = none ∧ admitsRange s.cfg s.snap.kaddr.toNat s.snap.klen.toNat ∧
      answered s s.snap.klen.toNat ∧ raced s 0x1000 = true ∧ raced s (s.snap.kaddr.toNat + 31) = false) ∧
    (let s := { keyAt 0x1000 16 with touched := [0x1000], cfg := { Config.params with keySizes := [.k16] } }
     commandCheck .ldkey s = none ∧ admitsRange s.cfg s.snap.kaddr.toNat s.snap.klen.toNat ∧
      answered s s.snap.klen.toNat ∧ s.snap.klen.toNat ≤ 16) ∧
    (let s := { xorksTo 0x3000 16 with touched := [0x3000] }
     commandCheck .xorks s = none ∧ admitsRange s.cfg s.snap.src.toNat s.snap.len.toNat ∧
      admitsRange s.cfg s.snap.dst.toNat s.snap.len.toNat ∧ s.mem.wf = true ∧ answered s (2 * s.snap.len.toNat) ∧
      raced s 0x3000 = true ∧
      raced s (s.snap.src.toNat + 15) = false ∧ raced s (s.snap.dst.toNat + 15) = false) :=
  ⟨⟨rfl, fun _ _ => rfl, answered_of_none rfl _, rfl, rfl, by decide⟩,
    ⟨rfl, fun _ _ => rfl, answered_of_none rfl _, rfl, rfl⟩, ⟨rfl, fun _ _ => rfl, answered_of_none rfl _, by decide⟩,
    ⟨rfl, fun _ _ => rfl, fun _ _ => rfl, by decide, answered_of_none rfl _, rfl, rfl, rfl⟩⟩

/-- A last block that is not full (m = 17, j = 1), and a full block before it. -/
theorem test_witness_BlocksCoverTheMessage :
    0 < blockCount 17 ∧ 0 + 1 < blockCount 17 ∧ 1 < blockCount 17 ∧ 1 + 1 = blockCount 17 := by
  decide

theorem test_witness_XformTransformsTheMessage :
    let s := nist17
    commandCheck .xform s = none ∧ raceFree .xform s ∧ admitsRange s.cfg s.snap.kaddr.toNat s.snap.klen.toNat ∧
      admitsRange s.cfg s.snap.naddr.toNat s.snap.nlen.toNat ∧ admitsRange s.cfg s.snap.src.toNat s.snap.len.toNat ∧
      admitsRange s.cfg s.snap.dst.toNat s.snap.len.toNat ∧
      answered s (s.snap.klen.toNat + s.snap.nlen.toNat + 2 * s.snap.len.toNat + blockCount s.snap.len.toNat) :=
  ⟨rfl, raceFree_of_calm rfl rfl _, fun _ _ => rfl, fun _ _ => rfl, fun _ _ => rfl, fun _ _ => rfl,
    answered_of_none rfl _⟩

/-- V-KS-6's last two rows. -/
theorem test_witness_XformStopsAtARefusedLoad :
    (let s := refusing [⟨0x1005, 1⟩] nist1
     commandCheck .xform s = none ∧ raceFree .xform s ∧ 5 < s.snap.klen.toNat ∧ admitsRange s.cfg s.snap.kaddr.toNat 5 ∧
      admits s.cfg (s.snap.kaddr.toNat + 5) = false ∧ answered s (5 + 1)) ∧
    (let s := refusing [⟨0x1025, 1⟩] nist1
     commandCheck .xform s = none ∧ raceFree .xform s ∧ admitsRange s.cfg s.snap.kaddr.toNat s.snap.klen.toNat ∧
      5 < s.snap.nlen.toNat ∧ admitsRange s.cfg s.snap.naddr.toNat 5 ∧ admits s.cfg (s.snap.naddr.toNat + 5) = false ∧
      answered s (s.snap.klen.toNat + 5 + 1)) := by
  unfold admitsRange
  exact ⟨⟨by decide, raceFree_of_calm rfl rfl _, by decide, by decide, by decide, answered_of_none rfl _⟩,
    ⟨by decide, raceFree_of_calm rfl rfl _, by decide, by decide, by decide, by decide, answered_of_none rfl _⟩⟩

/-- V-KS-6: block 1 of the message, a refused read of byte 0, and a refused write of byte 3. -/
theorem test_witness_XformStopsAtARefusedBlockByte :
    (let s := refusing [⟨0x2010, 1⟩] nist20
     commandCheck .xform s = none ∧ raceFree .xform s ∧ admitsRange s.cfg s.snap.kaddr.toNat s.snap.klen.toNat ∧
      admitsRange s.cfg s.snap.naddr.toNat s.snap.nlen.toNat ∧ 1 < blockCount s.snap.len.toNat ∧
      0 < blockBytes s.snap.len.toNat 1 ∧ (keystream nistPort (keyBytes s) (firstCounter s) (1 + 1)).1.length = 1 + 1 ∧
      admitsRange s.cfg s.snap.src.toNat (16 * 1) ∧ admitsRange s.cfg s.snap.dst.toNat (16 * 1) ∧
      admitsRange s.cfg (s.snap.src.toNat + 16 * 1) 0 ∧ admits s.cfg (s.snap.src.toNat + 16 * 1 + 0) = false ∧
      answered s (s.snap.klen.toNat + s.snap.nlen.toNat + 33 * 1 + 1 + 0 + 1)) ∧
    (let s := refusing [⟨0x3013, 1⟩] nist20
     commandCheck .xform s = none ∧ raceFree .xform s ∧ admitsRange s.cfg s.snap.kaddr.toNat s.snap.klen.toNat ∧
      admitsRange s.cfg s.snap.naddr.toNat s.snap.nlen.toNat ∧ 1 < blockCount s.snap.len.toNat ∧
      3 < blockBytes s.snap.len.toNat 1 ∧ (keystream nistPort (keyBytes s) (firstCounter s) (1 + 1)).1.length = 1 + 1 ∧
      admitsRange s.cfg s.snap.src.toNat (16 * 1) ∧ admitsRange s.cfg s.snap.dst.toNat (16 * 1) ∧
      admitsRange s.cfg (s.snap.src.toNat + 16 * 1) (blockBytes s.snap.len.toNat 1) ∧
      admitsRange s.cfg (s.snap.dst.toNat + 16 * 1) 3 ∧ admits s.cfg (s.snap.dst.toNat + 16 * 1 + 3) = false ∧
      answered s (s.snap.klen.toNat + s.snap.nlen.toNat + 33 * 1 + 1 + blockBytes s.snap.len.toNat 1 + 3 + 1)) := by
  unfold admitsRange
  exact ⟨⟨by decide, raceFree_of_calm rfl rfl _, by decide, by decide, by decide, by decide, by decide, by decide, by decide,
      by decide, by decide, answered_of_none rfl _⟩,
    ⟨by decide, raceFree_of_calm rfl rfl _, by decide, by decide, by decide, by decide, by decide, by decide, by decide,
      by decide, by decide, by decide, answered_of_none rfl _⟩⟩

/-- For XformIsThePureFunction and XformEqualsItsPrimitives: a port on which the run completes. -/
theorem test_witness_XformIsThePureFunction :
    raceFree .xform nist1 ∧ nist1.mem.wf = true ∧
      inPlaceOrDisjoint nist1.snap.src.toNat nist1.snap.dst.toNat nist1.snap.len.toNat ∧
      ∃ t, runXform nistPort nist1 = .ok () t :=
  ⟨raceFree_of_calm rfl rfl _, by decide, .inr (.inl (by decide)), _, eq_ok_of_isOk (by decide)⟩

/-- The output of the first run transformed in place. -/
theorem test_witness_XformRoundTrip :
    let s := nist1
    let t := (runXform nistPort s).state
    let u := { s with mem := t.mem, snap := { s.snap with src := s.snap.dst }, keyLen := 0, overrun := true }
    raceFree .xform s ∧ raceFree .xform u ∧ s.mem.wf = true ∧ u.mem.wf = true ∧
      inPlaceOrDisjoint s.snap.src.toNat s.snap.dst.toNat s.snap.len.toNat ∧
      inPlaceOrDisjoint u.snap.src.toNat u.snap.dst.toNat u.snap.len.toNat ∧ runXform nistPort s = .ok () t ∧
      (∃ v, runXform nistPort u = .ok () v) ∧ u.snap.len = s.snap.len ∧ keyBytes u = keyBytes s ∧
      nonceBytes u = nonceBytes s ∧
      u.mem.bytes u.snap.src.toNat u.snap.len.toNat = t.mem.bytes s.snap.dst.toNat s.snap.len.toNat :=
  ⟨raceFree_of_calm rfl rfl _, raceFree_of_calm rfl rfl _, by decide, by decide, .inr (.inl (by decide)),
    .inl rfl, eq_ok_of_isOk (by decide),
    ⟨_, eq_ok_of_isOk (by decide)⟩, rfl, by decide, by decide, rfl⟩

/-- The same inputs in a state whose registers differ. -/
theorem test_witness_XformDependsOnItsInputsAlone :
    let s := nist1
    let u := { nist1 with ctr := padTo 16 [1], ctrValid := true, keyLen := 16, ks := padTo 16 [2], ksValid := true }
    raceFree .xform s ∧ raceFree .xform u ∧ s.mem.wf = true ∧ u.mem.wf = true ∧
      inPlaceOrDisjoint s.snap.src.toNat s.snap.dst.toNat s.snap.len.toNat ∧
      inPlaceOrDisjoint u.snap.src.toNat u.snap.dst.toNat u.snap.len.toNat ∧ s.snap.len = u.snap.len ∧
      keyBytes s = keyBytes u ∧ initCounter (nonceBytes s) = initCounter (nonceBytes u) ∧
      s.mem.bytes s.snap.src.toNat s.snap.len.toNat = u.mem.bytes u.snap.src.toNat u.snap.len.toNat ∧
      (∃ t, runXform nistPort s = .ok () t) ∧ ∃ t, runXform nistPort u = .ok () t :=
  ⟨raceFree_of_calm rfl rfl _, raceFree_of_calm rfl rfl _, by decide, by decide, .inr (.inl (by decide)),
    .inr (.inl (by decide)), rfl, rfl, rfl, rfl,
    ⟨_, eq_ok_of_isOk (by decide)⟩, ⟨_, eq_ok_of_isOk (by decide)⟩⟩

/-- Sixteen zero bytes under two nonces; the identity is injective. -/
theorem test_witness_DistinctCountersGiveDistinctFirstBlocks :
    let s := busy 6 (operands 0x2000 0x3000 16 0x1020 8 0x1000 32) (placed [(0x1020, [1])])
    let u := busy 6 (operands 0x2000 0x3000 16 0x1020 8 0x1000 32) (placed [(0x1020, [2])])
    raceFree .xform s ∧ raceFree .xform u ∧ s.mem.wf = true ∧ u.mem.wf = true ∧
      inPlaceOrDisjoint s.snap.src.toNat s.snap.dst.toNat s.snap.len.toNat ∧
      inPlaceOrDisjoint u.snap.src.toNat u.snap.dst.toNat u.snap.len.toNat ∧
      (∀ b c, idPort.encrypt (keyBytes s) b = idPort.encrypt (keyBytes s) c → b = c) ∧ 16 ≤ s.snap.len.toNat ∧
      s.snap.len = u.snap.len ∧ keyBytes s = keyBytes u ∧ initCounter (nonceBytes s) ≠ initCounter (nonceBytes u) ∧
      s.mem.bytes s.snap.src.toNat s.snap.len.toNat = u.mem.bytes u.snap.src.toNat u.snap.len.toNat ∧
      (∃ t, runXform idPort s = .ok () t) ∧ ∃ t, runXform idPort u = .ok () t :=
  ⟨raceFree_of_calm rfl rfl _, raceFree_of_calm rfl rfl _, by decide, by decide, .inr (.inl (by decide)),
    .inr (.inl (by decide)), fun b c h => by cases h; rfl, by decide,
    rfl, by decide, by decide, by decide, ⟨_, eq_ok_of_isOk (by decide)⟩, ⟨_, eq_ok_of_isOk (by decide)⟩⟩

/-- For BusyWritesSetOverrunAlone and BusyReadsAreExactWhereStated: the first and the last operand register, and CMD. -/
theorem test_witness_busy_accesses :
    (busy 3 Operands.zero []).phase = .busy ∧ isOperand .src = true ∧ isOperand .klen = true := by decide

/-- For OperandWritesTakeEffect and IdleReadsAreExact. -/
theorem test_witness_idle_accesses : State.reset.phase = .idle ∧ isOperand .src = true ∧ isOperand .klen = true := by decide

/-- The ends of the read-only and of the unmapped offsets. -/
theorem test_witness_ReadOnlyAndUnmappedOffsets :
    Reg.blkcnt ∈ [Reg.blkcnt, .cerr, .erraddr, .ctr0, .ctr1, .ctr2, .ctr3] ∧
      Reg.ctr3 ∈ [Reg.blkcnt, .cerr, .erraddr, .ctr0, .ctr1, .ctr2, .ctr3] ∧
      (0x40 ≤ 0x40 ∧ 0x40 ≤ 0xFC ∧ 0x40 % 4 = 0) ∧ (0x40 ≤ 0xFC ∧ 0xFC ≤ 0xFC ∧ 0xFC % 4 = 0) := by decide

/-- CounterWordsPackBigEndian: its first and its last word. -/
theorem test_witness_CounterWordsPackBigEndian : 0 < 4 ∧ 3 < 4 := by decide

/-- A misaligned offset, and the first one past the window. -/
theorem test_witness_OtherRegisterAccessesAreRefused : (0x02 % 4 ≠ 0 ∨ 0x100 ≤ 0x02) ∧ (0x100 % 4 ≠ 0 ∨ 0x100 ≤ 0x100) := by
  decide

/-- The last data address, with a window open elsewhere; and a byte the commands only read and the host does not write. -/
theorem test_witness_HostMemoryAccessesOutsideTheFootprint :
    let s := { nist1 with fpReads := [⟨0x1000, 32⟩], fpWrites := [⟨0x3000, 1⟩] }
    (2 ^ 32 - 1 < 2 ^ s.cfg.aw.val ∧ s.mem.wf = true ∧ spansHave s.fpReads (2 ^ 32 - 1) = false ∧
        spansHave s.fpWrites (2 ^ 32 - 1) = false) ∧
      (spansHave s.fpWrites 0x101f = false ∧ spansHave s.fpReads 0x101f = true ∧ racedFrom (aheadNow s) s 0x101f = false) := by
  decide

/-- A byte that is only read, a byte that is only written, and a byte that is only read and that the host has written. -/
theorem test_witness_RacingHostAccessesAreFree :
    let s := { nist1 with fpReads := [⟨0x1000, 32⟩], fpWrites := [⟨0x3000, 1⟩], touched := [0x1000] }
    0x3000 < 2 ^ s.cfg.aw.val ∧ s.mem.wf = true ∧ spansHave s.fpReads 0x101f = true ∧ spansHave s.fpWrites 0x3000 = true ∧
      (spansHave s.fpReads 0x1000 = true ∧ spansHave s.fpWrites 0x1000 = false ∧ racedFrom (aheadNow s) s 0x1000 = true) := by
  decide

/-- A reset while IDLE and one while BUSY. -/
theorem test_witness_ResetInputValues :
    ({ State.reset with inputs := [.reset] }.inputs = .reset :: [] ∧ State.reset.phase = .idle) ∧
      { nist1 with inputs := [.reset] }.inputs = .reset :: [] := by decide

/-- An illegal word, BUSY, with a reset next. -/
theorem test_witness_ResetWhileBusyKeepsAPrefix_illegal :
    let s := { busy 0x106 Operands.zero [] with inputs := [.reset] }
    s.phase = .busy ∧ s.inputs = .reset :: [] ∧ (fieldsOf s.seq.word).wf = false := by decide

/-- A command whose turn is still to come, and one that waits. -/
theorem test_witness_ResetWhileBusyKeepsAPrefix :
    ∀ w : Bool,
      let s := { nist1 with inputs := [.reset, .memWrite 0x1000 1], waiting := w }
      s.phase = .busy ∧ s.inputs = .reset :: [.memWrite 0x1000 1] ∧ decode s.seq.word = .ok .xform ∧
        (∃ u, exec .xform { s with inputs := [] } = .next u) ∧ s.waiting = w := by
  intro w
  exact ⟨rfl, rfl, (by decide : decode nist1.seq.word = .ok .xform), ⟨_, rfl⟩, rfl⟩

/-- BUSY states that meet the invariant, an XFORM's with its block count and an INCBUF's with its byte index, and their
steps: for StepKeepsTheInvariant and StepKeepsTheParameters. -/
theorem test_witness_StepKeepsTheInvariant :
    ∀ w : Word, w = 2 ∨ w = 6 ∨ w = 7 →
      let s := accept w { State.reset with ops := operands 0x2000 0x3000 17 0x1020 8 0x1000 32 }
      s.Inv ∧ ∃ t, step s = .next t := by
  rintro w (rfl | rfl | rfl) <;> refine ⟨?_, _, rfl⟩ <;> constructor <;> first | rfl | decide

/-- A key and a counter loaded, and no reset next. -/
theorem test_witness_OnlyResetClearsKeyAndCounterValid :
    let s := { counterAt 3 0 with keyLen := 32 }
    (∃ t, step s = .next t) ∧ (∀ rest, s.inputs ≠ .reset :: rest) ∧ s.keyLen ≠ 0 ∧ s.ctrValid = true :=
  ⟨⟨_, rfl⟩, (fun _ h => by cases h), by decide, rfl⟩

/-- A step with no move pending, the unit's turn, one with an unanswered request, a host write and a racing host read, each changing a byte. -/
theorem test_witness_MemoryChangesOnlyByItsWriters :
    (let s := bufferAt 0x1100 1 0x41
     (∃ t, step s = .next t) ∧ (after (step s)).mem.byteAt 0x1100 ≠ s.mem.byteAt 0x1100) ∧
    (let s := { bufferAt 0x1100 1 0x41 with inputs := [.unitTurn] }
     (∃ t, step s = .next t) ∧ (after (step s)).mem.byteAt 0x1100 ≠ s.mem.byteAt 0x1100) ∧
    (let s := { bufferAt 0x1100 2 0x41ff with inputs := [.unitStall 2] }
     (∃ t, step s = .next t) ∧ (after (step s)).mem.byteAt 0x1101 ≠ s.mem.byteAt 0x1101) ∧
    (let s := { State.reset with inputs := [.memWrite 0x10 7] }
     (∃ t, step s = .next t) ∧ (after (step s)).mem.byteAt 0x10 ≠ s.mem.byteAt 0x10) ∧
    (let s :=
      { nist1 with
        inputs := [.memRead 0x3000]
        fpWrites := [⟨0x3000, 1⟩]
        mem := Memory.setByte [] 0x3000 (Config.freeByte 1 + 1) }
     (∃ t, step s = .next t) ∧ (after (step s)).mem.byteAt 0x3000 ≠ s.mem.byteAt 0x3000) := by
  refine ⟨⟨⟨_, rfl⟩, by decide⟩, ⟨⟨_, rfl⟩, by decide⟩, ⟨⟨_, rfl⟩, by decide⟩, ⟨⟨_, rfl⟩, by decide⟩, ⟨_, rfl⟩, ?_⟩
  have hw : (Memory.setByte [] 0x3000 (Config.freeByte 1 + 1)).wf = true := Memory.setByte_wf rfl _ _
  change (Memory.setByte (Memory.setByte [] 0x3000 (Config.freeByte 1 + 1)) 0x3000 (Config.freeByte 1)).byteAt 0x3000 ≠
    (Memory.setByte [] 0x3000 (Config.freeByte 1 + 1)).byteAt 0x3000
  rw [Memory.byteAt_setByte_eq hw, Memory.byteAt_setByte_eq rfl]
  simp

/-- Its reset clause: how many events a reset keeps is a free value, so the byte changes where that value keeps both of
INCBUF's events. -/
theorem test_witness_MemoryChangesOnlyByItsWriters_reset :
    let s := { bufferAt 0x1100 1 0x41 with inputs := [.reset] }
    (∃ t, step s = .next t) ∧
      (Config.freeNat 3 % 3 = 2 → (after (step s)).mem.byteAt 0x1100 ≠ s.mem.byteAt 0x1100) := by
  refine ⟨⟨_, rfl⟩, fun h => ?_⟩
  change (replayWrites _ (List.take (Config.freeNat 3 % 3) [.read 0x1100 0x41, .write 0x1100 0x42])).byteAt 0x1100 ≠ _
  rw [h]
  decide

end Sys2Proof.Tests
end

