-- ==== Sys2Proof/Proofs/BigEndian.lean ====
section
/-! PROOFS. be_n and val_be are inverse to each other (R8). -/

namespace Sys2Proof.Machine

/-- be_n sees its argument modulo 256^n. -/
theorem beBytes_add_mul_pow (n v k : Nat) : beBytes n (v + k * 256 ^ n) = beBytes n v := by
  induction n generalizing k with
  | zero => rfl
  | succ n ih =>
    have hshift : v + k * 256 ^ (n + 1) = v + k * 256 * 256 ^ n := by ring
    have hhead : BitVec.ofNat 8 (v / 256 ^ n + k * 256) = BitVec.ofNat 8 (v / 256 ^ n) :=
      BitVec.eq_of_toNat_eq (by simp)
    simp only [beBytes, hshift, ih]
    rw [Nat.add_mul_div_right _ _ (by positivity), hhead]

/-- be_n of the value of n bytes is those bytes. -/
theorem beBytes_valBe (bs : List Byte) : beBytes bs.length (valBe bs) = bs := by
  induction bs with
  | nil => rfl
  | cons b bs ih =>
    have hhead : (valBe bs + b.toNat * 256 ^ bs.length) / 256 ^ bs.length = b.toNat := by
      rw [Nat.add_mul_div_right _ _ (by positivity), Nat.div_eq_of_lt (valBe_lt bs), Nat.zero_add]
    simp only [valBe, List.length_cons, beBytes, Nat.add_comm (b.toNat * _), hhead, beBytes_add_mul_pow, ih,
      BitVec.ofNat_toNat, BitVec.setWidth_eq]

/-- The value of be_n of v is v modulo 256^n. -/
theorem valBe_beBytes (n v : Nat) : valBe (beBytes n v) = v % 256 ^ n := by
  induction n with
  | zero => simp [beBytes, valBe, Nat.mod_one]
  | succ n ih =>
    rw [Nat.mod_pow_succ]
    simp only [beBytes, valBe, beBytes_length, ih, BitVec.toNat_ofNat, Nat.reducePow]
    ring

/-- Settles O16: the bytes by induction on them, the value by `valBe_beBytes`, whose modulus v lies below. -/
theorem bigEndianBytesAreTheInverse : Obligations.BigEndianBytesAreTheInverse := by
  intro bs
  refine ⟨beBytes_valBe bs, fun n v hv => ⟨beBytes_length n v, ?_⟩⟩
  rw [valBe_beBytes, Nat.mod_eq_of_lt hv]

end Sys2Proof.Machine
end

