-- ==== Sys2Proof/Proofs/Parameters.lean ====
section
/-! PROOFS. No move changes a parameter of the platform (R6). -/

namespace Sys2Proof.Machine

/-- The completion record, and waiting, leave the parameters where the run left them. -/
@[simp] theorem finish_cfg (r : Run Unit) : (finish r).cfg = r.state.cfg := by
  cases r with
  | ok a s => exact State.completed_cfg s
  | raise e s => exact State.raised_cfg s e
  | wait s => exact State.stalled_cfg s

@[simp] theorem illegalCommand_cfg (s : State) : (illegalCommand s).cfg = s.cfg := finish_cfg _

@[simp] theorem runOf_cfg (i : Instr) (s : State) : (runOf i s).state.cfg = s.cfg := by
  obtain ⟨_, _, _, _, _, _, _, _, _, _, _, h⟩ := runOf_state i s
  rw [h]

theorem runAccepted_cfg {s t : State} (h : runAccepted s = .next t) : t.cfg = s.cfg := by
  rcases runAccepted_cases s with ⟨-, hr⟩ | ⟨-, hr⟩ | ⟨-, i, -, hr⟩
  all_goals
    cases hr.symm.trans h
    simp

theorem unitTurn_cfg {s t : State} (h : unitTurn s = .next t) : t.cfg = s.cfg := by
  rcases unitTurn_cases h with rfl | ⟨-, -, hr⟩
  · rfl
  · exact runAccepted_cfg hr

theorem unitStall_cfg {k : Nat} {s t : State} (h : unitStall k s = .next t) : t.cfg = s.cfg := by
  obtain ⟨u, hu, -, rfl⟩ := unitStall_cases h
  exact (unitTurn_cfg hu :)

theorem resetNow_cfg (o : Host.Outcome State Fault Refusal) (s : State) : (resetNow o s).cfg = s.cfg := by
  obtain ⟨_, _, _, h⟩ := resetNow_eq o s
  rw [h, resetRegisters_cfg]

theorem hostWrite_cfg {off : Nat} {v : Word} {s t : State} (h : hostWrite off v s = .next t) : t.cfg = s.cfg := by
  rcases hostWrite_cases h with ⟨_, rfl⟩ | ⟨-, rfl⟩ | ⟨-, _, rfl⟩
  · rfl
  · exact accept_cfg v s
  · rfl

theorem hostRead_cfg {off : Nat} {s t : State} (h : hostRead off s = .next t) : t.cfg = s.cfg := by
  obtain ⟨_, _, _, _, _, rfl⟩ := hostRead_cases h
  rfl

theorem hostMemWrite_cfg {a : Nat} {v : Byte} {s t : State} (h : hostMemWrite a v s = .next t) : t.cfg = s.cfg := by
  obtain ⟨-, _, _, _, rfl⟩ := hostMemWrite_cases h
  rfl

theorem hostMemRead_cfg {a : Nat} {s t : State} (h : hostMemRead a s = .next t) : t.cfg = s.cfg := by
  obtain ⟨-, ⟨_, _, rfl⟩ | ⟨-, _, _, _, _, rfl⟩⟩ := hostMemRead_cases h
  · rfl
  · rfl

/-- Each of the eight moves keeps the parameters. -/
theorem move_cfg {x : Input} {s t : State} (h : move x s = .next t) : t.cfg = s.cfg := by
  cases x with
  | hostWrite off v => exact hostWrite_cfg h
  | hostRead off => exact hostRead_cfg h
  | hostOther off bits => cases h
  | memWrite a v => exact hostMemWrite_cfg h
  | memRead a => exact hostMemRead_cfg h
  | unitTurn => exact unitTurn_cfg h
  | unitStall k => exact unitStall_cfg h
  | reset =>
    cases h
    exact resetNow_cfg _ s

/-- Settles O58: a step is the unit's turn or one move, and each keeps the parameters. -/
theorem stepKeepsTheParameters : Obligations.StepKeepsTheParameters := by
  intro s t h
  unfold step at h
  split at h
  · exact unitTurn_cfg h
  · exact (move_cfg h :)

end Sys2Proof.Machine
end

