-- ==== Sys2Proof/Proofs/Ports.lean ====
section
/-! PROOFS. What a command does at its ports, said once: the trace grows, the memory takes the writes among the new events,
errors are the port's, and the command waits only in a turn in which a request stays unanswered. -/

namespace Sys2Proof.Machine

/-! ### The memory follows the trace -/

theorem replayWrites_append (m : Memory) (es fs : List Event) :
    replayWrites m (es ++ fs) = replayWrites (replayWrites m es) fs := by
  induction es generalizing m with
  | nil => rfl
  | cons e es ih => cases e <;> exact ih _

/-- From `s` to `t` the trace has grown, and the memory has taken the writes among the new events and no other, each below
`top` (R51, R55). -/
def WroteBelow (top : Nat) (s t : State) : Prop :=
  ∃ es, t.trace = s.trace ++ es ∧ t.mem = replayWrites s.mem es ∧ ∀ a v, Event.write a v ∈ es → a < top

theorem WroteBelow.of_eq {top : Nat} {s t : State} (ht : t.trace = s.trace) (hm : t.mem = s.mem) : WroteBelow top s t :=
  ⟨[], by simp [ht], hm, by simp⟩

theorem WroteBelow.trans {top : Nat} {s t u : State} (h1 : WroteBelow top s t) (h2 : WroteBelow top t u) :
    WroteBelow top s u := by
  obtain ⟨es, ht, hm, hes⟩ := h1
  obtain ⟨fs, ht', hm', hfs⟩ := h2
  refine ⟨es ++ fs, by simp [ht', ht], by rw [hm', hm, replayWrites_append], fun a v h => ?_⟩
  rcases List.mem_append.mp h with h | h
  · exact hes a v h
  · exact hfs a v h

theorem WroteBelow.mem_wf {top : Nat} {s t : State} (h : WroteBelow top s t) (hs : s.mem.wf = true) : t.mem.wf = true := by
  obtain ⟨es, -, hm, -⟩ := h
  rw [hm]
  exact replayWrites_wf hs es

theorem WroteBelow.mem_below {top : Nat} {s t : State} (h : WroteBelow top s t) (hs : s.mem.below top = true) :
    t.mem.below top = true := by
  obtain ⟨es, -, hm, hes⟩ := h
  rw [hm]
  exact replayWrites_below hs hes

/-- The first k events of a run, which a reset may keep, leave the memory inside the address space (R181). -/
theorem WroteBelow.replayTake_below {top : Nat} {s t : State} (h : WroteBelow top s t) (hs : s.mem.below top = true) (k : Nat) :
    (replayWrites s.mem ((t.trace.drop s.trace.length).take k)).below top = true := by
  obtain ⟨es, ht, -, hes⟩ := h
  rw [ht, List.drop_left]
  exact replayWrites_below hs fun a v hm => hes a v (List.mem_of_mem_take hm)

/-! ### Runs that act through the ports -/

/-- A run from `s` that acts through the ports: it writes below `top`, raises only what a port answers (R152, R153) and
waits only in a turn in which a request stays unanswered (R193). -/
structure PortRun {α : Type} (top : Nat) (s : State) (r : Run α) : Prop where
  wrote : WroteBelow top s r.state
  silentAt : r.state.silentAt = s.silentAt
  raises : ∀ e t, r = .raise e t → (∃ a, e = .bus a) ∨ ∃ w, e = .cipher w
  waits : ∀ t, r = .wait t → s.silentAt ≠ none

theorem PortRun.ok {α : Type} {top : Nat} {s t : State} (a : α) (h : WroteBelow top s t) (hs : t.silentAt = s.silentAt) :
    PortRun top s (.ok a t) := ⟨h, hs, by simp, by simp⟩

theorem PortRun.bus {α : Type} {top : Nat} (a : Nat) (s : State) : PortRun top s (.raise (.bus a) s : Run α) :=
  ⟨.of_eq rfl rfl, rfl, by simp, by simp⟩

/-- A command waits at the request that is not answered. -/
theorem PortRun.wait {α : Type} {top : Nat} {s : State} (h : ¬answersNext s = true) : PortRun top s (.wait s : Run α) :=
  ⟨.of_eq rfl rfl, rfl, by simp, fun _ _ hn => h (by simp [answersNext, hn])⟩

theorem PortRun.bind {α β : Type} {top : Nat} {s : State} {r : Run α} {f : α → State → Run β} (h : PortRun top s r)
    (hf : ∀ a t, r = .ok a t → PortRun top t (f a t)) : PortRun top s (r.bind f) := by
  cases r with
  | raise e t => exact ⟨h.wrote, h.silentAt, fun e' t' he => h.raises e' t' (by cases he; rfl), by simp⟩
  | wait t => exact ⟨h.wrote, h.silentAt, by simp, fun t' ht => h.waits t' (by cases ht; rfl)⟩
  | ok a t =>
    have hft := hf a t rfl
    exact ⟨h.wrote.trans hft.wrote, hft.silentAt.trans h.silentAt, hft.raises,
      fun u hu => by rw [← h.silentAt]; exact hft.waits u hu⟩

/-- A run that acts through the ports does so from any state with the same memory, trace and unanswered request. -/
theorem PortRun.of_start {α : Type} {top : Nat} {s t : State} {r : Run α} (h : PortRun top t r) (htr : t.trace = s.trace)
    (hm : t.mem = s.mem) (hs : t.silentAt = s.silentAt) : PortRun top s r :=
  ⟨(WroteBelow.of_eq htr hm).trans h.wrote, h.silentAt.trans hs, h.raises, fun u hu => hs ▸ h.waits u hu⟩

theorem unitRead_portRun (top a : Nat) (s : State) : PortRun top s (unitRead a s) := by
  have hread : ∀ v d, WroteBelow top s { s with trace := s.trace ++ [.read a v], draws := d } :=
    fun v _ => ⟨[.read a v], rfl, rfl, by simp⟩
  unfold unitRead
  split
  · split
    · split
      · exact .ok _ (hread _ _) rfl
      · exact .ok _ (hread _ s.draws) rfl
    · exact .bus a s
  · next hn => exact .wait hn

theorem unitWrite_portRun {top a : Nat} (v : Byte) (s : State) (ha : a < top) : PortRun top s (unitWrite a v s) := by
  have hwrite : ∀ w d, WroteBelow top s { s with mem := s.mem.setByte a w, trace := s.trace ++ [.write a w], draws := d } :=
    fun w _ => ⟨[.write a w], rfl, rfl, by simp [ha]⟩
  unfold unitWrite
  split
  · split
    · split
      · exact .ok _ (hwrite _ _) rfl
      · exact .ok _ (hwrite _ s.draws) rfl
    · exact .bus a s
  · next hn => exact .wait hn

theorem readBytes_portRun (top a n : Nat) (s : State) : PortRun top s (readBytes a n s) := by
  induction n generalizing a s with
  | zero => exact .ok _ (.of_eq rfl rfl) rfl
  | succ n ih =>
    exact (unitRead_portRun top a s).bind fun _ t _ => (ih (a + 1) t).bind fun _ _ _ => .ok _ (.of_eq rfl rfl) rfl

theorem writeBytes_portRun {top a : Nat} {bs : List Byte} (s : State) (h : ∀ i < bs.length, a + i < top) :
    PortRun top s (writeBytes a bs s) := by
  induction bs generalizing a s with
  | nil => exact .ok _ (.of_eq rfl rfl) rfl
  | cons b bs ih =>
    refine (unitWrite_portRun b s (h 0 (by simp))).bind fun _ t _ => ih t fun i hi => ?_
    have := h (i + 1) (by simpa using hi)
    omega

theorem loadKey_portRun (top : Nat) (s : State) : PortRun top s (loadKey s) :=
  (readBytes_portRun top _ _ s).bind fun _ _ _ => .ok _ (.of_eq rfl rfl) rfl

theorem loadNonce_portRun (top : Nat) (s : State) : PortRun top s (loadNonce s) :=
  (readBytes_portRun top _ _ s).bind fun _ _ _ => .ok _ (.of_eq rfl rfl) rfl

theorem genBlock_portRun (top : Nat) (C : CipherPort) (s : State) : PortRun top s (genBlock C s) := by
  have hcall : ∀ ks c, WroteBelow top s
      { s with trace := s.trace ++ [.cipher (loadedKey s) s.ctr], ks := ks, ctr := c } :=
    fun _ _ => ⟨[.cipher (loadedKey s) s.ctr], rfl, rfl, by simp⟩
  unfold genBlock
  split
  · dsimp only
    split
    · exact ⟨hcall s.ks s.ctr, rfl, by simp, by simp⟩
    · exact .ok _ (hcall _ _) rfl
  · next hn => exact .wait hn

theorem xorBlock_portRun {top dst q : Nat} (src : Nat) (s : State) (h : ∀ i < q, dst + i < top) :
    PortRun top s (xorBlock src dst q s) := by
  refine (readBytes_portRun top src q s).bind fun x t hx => writeBytes_portRun t fun i hi => h i ?_
  have hq : x.length = q := readBytes_length hx
  simp only [xorBytes_length] at hi
  omega

theorem incbufLoop_portRun {top a n : Nat} (s : State) (h : ∀ i < n, a + i < top) : PortRun top s (incbufLoop a n s) := by
  induction n generalizing s with
  | zero => exact .ok _ (.of_eq rfl rfl) rfl
  | succ n ih =>
    have hread : PortRun top s (unitRead (a + n) (s.atByte n)) := (unitRead_portRun top _ _).of_start rfl rfl rfl
    refine hread.bind fun b t _ => (unitWrite_portRun (b + 1) t (h n (by omega))).bind fun _ u _ => ?_
    split
    · exact ih u fun i hi => h i (by omega)
    · exact .ok _ (.of_eq rfl rfl) rfl

theorem xformBlock_portRun {top dst m : Nat} (C : CipherPort) (src j : Nat) (s : State) (h : ∀ i < m, dst + i < top) :
    PortRun top s (xformBlock C src dst m j s) := by
  refine PortRun.bind ((genBlock_portRun top C _).of_start rfl rfl rfl) fun _ t _ => xorBlock_portRun _ t fun i hi => ?_
  unfold blockBytes at hi
  have := h (16 * j + i) (by omega)
  omega

theorem xformLoop_portRun {top dst m : Nat} (C : CipherPort) (src n j : Nat) (s : State) (h : ∀ i < m, dst + i < top) :
    PortRun top s (xformLoop C src dst m n j s) := by
  induction n generalizing j s with
  | zero => exact .ok _ (.of_eq rfl rfl) rfl
  | succ n ih =>
    have hb := xformBlock_portRun C src j s h
    unfold xformLoop
    split
    · next e t he =>
      rw [he] at hb
      exact ⟨hb.wrote, hb.silentAt, fun e' _ h' => hb.raises e' t (by cases h'; rfl), by simp⟩
    · next t he => rwa [he] at hb
    · next t he =>
      rw [he] at hb
      exact hb.bind (f := fun _ t => xformLoop C src dst m n (j + 1) t) fun _ u _ => ih (j + 1) u

theorem xformBody_portRun {top : Nat} (C : CipherPort) (s : State)
    (h : ∀ i < s.snap.len.toNat, s.snap.dst.toNat + i < top) : PortRun top s (xformBody C s) := by
  refine PortRun.bind ((loadKey_portRun top _).of_start rfl rfl rfl) fun _ t ht => ?_
  refine (loadNonce_portRun top t).bind fun _ u hu => ?_
  have hsnap : u.snap = s.snap := by
    obtain ⟨_, _, _, _, _, _, hk⟩ := loadKey_state (s.xformStarted (blockCount s.snap.len.toNat))
    obtain ⟨_, _, _, _, _, _, hn⟩ := loadNonce_state t
    rw [ht] at hk
    rw [hu] at hn
    change t = _ at hk
    change u = _ at hn
    rw [hn, hk]
    rfl
  exact (xformLoop_portRun C _ _ _ u (by rwa [hsnap])).bind fun _ _ _ => .ok _ (.of_eq rfl rfl) rfl

/-! ### Commands: the validation, then the ports -/

/-- What a command does once its validation has passed (R156). -/
def bodyOf : Instr → State → Run Unit
  | .ldkey, s => loadKey s
  | .ldnonce, s => loadNonce s
  | .incctr, s => .ok () { s with ctr := inc128 s.ctr }
  | .genks, s => (genBlock Config.cipherPort s).bind fun _ s => .ok () { s with ksValid := true }
  | .xorks, s => xorBlock s.snap.src.toNat s.snap.dst.toNat s.snap.len.toNat s
  | .xform, s => xformBody Config.cipherPort s
  | .incbuf, s => incbufLoop s.snap.naddr.toNat s.snap.nlen.toNat s

/-- A command raises the sub-cause of its failed validation from an unchanged state, or runs its body. -/
theorem runOf_cases (i : Instr) (s : State) :
    (∃ c, commandCheck i s = some c ∧ runOf i s = .raise (.invalid c) s) ∨
      (commandCheck i s = none ∧ runOf i s = bodyOf i s) := by
  have h : runOf i s = validated (commandCheck i s) (bodyOf i) s := by cases i <;> rfl
  rw [h]
  exact validated_cases _ _ _

theorem firstFailing_eq_none {l : List (Bool × SubCause)} (h : firstFailing l = none) : ∀ p ∈ l, p.1 = false := by
  induction l with
  | nil => simp
  | cons p l ih =>
    unfold firstFailing at h
    split at h
    · cases h
    · next hp => exact List.forall_mem_cons.mpr ⟨by simpa using hp, ih h⟩

theorem firstFailing_eq_some {l : List (Bool × SubCause)} {c : SubCause} (h : firstFailing l = some c) : (true, c) ∈ l := by
  induction l with
  | nil => cases h
  | cons p l ih =>
    obtain ⟨fails, d⟩ := p
    unfold firstFailing at h
    split at h
    · next hf => cases h; simp [hf]
    · exact List.mem_cons_of_mem _ (ih h)

/-- The validation reports a sub-cause, never code 0 (R151). -/
theorem commandCheck_ne_none {i : Instr} {s : State} {c : SubCause} (h : commandCheck i s = some c) : c ≠ .none := by
  rintro rfl
  cases i with
  | _ => simpa using firstFailing_eq_some h

/-- A range that passes its check lies inside the address space (R157). -/
theorem lt_addrTop_of_rangeFails {cfg : Params} {a n : Nat} (h : rangeFails cfg a n = false) :
    ∀ i < n, a + i < addrTop cfg := by
  intro i hi
  simp only [rangeFails, Bool.and_eq_false_iff, decide_eq_false_iff_not] at h
  omega

theorem bodyOf_portRun {i : Instr} {s : State} (h : commandCheck i s = none) : PortRun (addrTop s.cfg) s (bodyOf i s) := by
  cases i with
  | ldkey => exact loadKey_portRun _ s
  | ldnonce => exact loadNonce_portRun _ s
  | incctr => exact .ok _ (.of_eq rfl rfl) rfl
  | genks => exact (genBlock_portRun _ _ s).bind fun _ _ _ => .ok _ (.of_eq rfl rfl) rfl
  | xorks =>
    have hdst := firstFailing_eq_none h (rangeFails s.cfg s.snap.dst.toNat s.snap.len.toNat, .range) (by simp)
    exact xorBlock_portRun _ s (lt_addrTop_of_rangeFails hdst)
  | xform =>
    have hdst := firstFailing_eq_none h (rangeFails s.cfg s.snap.dst.toNat s.snap.len.toNat, .range) (by simp)
    exact xformBody_portRun _ s (lt_addrTop_of_rangeFails hdst)
  | incbuf =>
    have hbuf := firstFailing_eq_none h (rangeFails s.cfg s.snap.naddr.toNat s.snap.nlen.toNat, .range) (by simp)
    exact incbufLoop_portRun s (lt_addrTop_of_rangeFails hbuf)

/-- Every command writes inside the address space alone, what it logs, and keeps the turn's unanswered request. -/
theorem runOf_wroteBelow (i : Instr) (s : State) :
    WroteBelow (addrTop s.cfg) s (runOf i s).state ∧ (runOf i s).state.silentAt = s.silentAt := by
  rcases runOf_cases i s with ⟨c, -, h⟩ | ⟨hc, h⟩
  · rw [h]; exact ⟨.of_eq rfl rfl, rfl⟩
  · rw [h]; exact ⟨(bodyOf_portRun hc).wrote, (bodyOf_portRun hc).silentAt⟩

/-- A command's error is a sub-cause of its validation, a refused access or a cipher error (R155). -/
theorem runOf_raise {i : Instr} {s t : State} {e : CmdError} (h : runOf i s = .raise e t) :
    (∃ c, c ≠ .none ∧ e = .invalid c) ∨ (∃ a, e = .bus a) ∨ ∃ w, e = .cipher w := by
  rcases runOf_cases i s with ⟨c, hc, hr⟩ | ⟨hc, hr⟩
  · cases hr.symm.trans h
    exact .inl ⟨c, commandCheck_ne_none hc, rfl⟩
  · exact .inr ((bodyOf_portRun hc).raises e t (hr.symm.trans h))

/-- A command waits only where a request stays unanswered; INCCTR, which makes none, never does (R193). -/
theorem runOf_wait {i : Instr} {s t : State} (h : runOf i s = .wait t) : i ≠ .incctr ∧ s.silentAt ≠ none := by
  rcases runOf_cases i s with ⟨c, -, hr⟩ | ⟨hc, hr⟩
  · cases hr.symm.trans h
  · refine ⟨?_, (bodyOf_portRun hc).waits t (hr.symm.trans h)⟩
    rintro rfl
    cases hr.symm.trans h

end Sys2Proof.Machine
end

