-- ==== Sys2Proof/Proofs/CommandRegisters.lean ====
section
/-! PROOFS. What a command leaves in KEY, CTR, KS and SEQ, however it ends, said once per register. -/

namespace Sys2Proof.Machine

/-! ### Runs in sequence -/

/-- What holds of the state a run reaches, and is kept by its continuation, holds of the state both reach. -/
theorem Run.bind_state {α β : Type} {P : State → Prop} {r : Run α} {f : α → State → Run β} (hr : P r.state)
    (hf : ∀ a t, r = .ok a t → P t → P (f a t).state) : P (r.bind f).state := by
  cases r with
  | ok a t => exact hf a t rfl hr
  | raise e t => exact hr
  | wait t => exact hr

/-- A property holds of the state of a run that does not wait. -/
def Run.Settled {α : Type} (P : State → Prop) : Run α → Prop
  | .ok _ s => P s
  | .raise _ s => P s
  | .wait _ => True

theorem Run.Settled.of_state {α : Type} {P : State → Prop} {r : Run α} (h : P r.state) : r.Settled P := by
  cases r with
  | ok a t => exact h
  | raise e t => exact h
  | wait t => trivial

/-- A run that binds settles where its first part raises and where its continuation settles. -/
theorem Run.Settled.bind {α β : Type} {P : State → Prop} {r : Run α} {f : α → State → Run β}
    (hr : ∀ e t, r = .raise e t → P t) (hf : ∀ a t, r = .ok a t → (f a t).Settled P) : (r.bind f).Settled P := by
  cases r with
  | ok a t => exact hf a t rfl
  | raise e t => exact hr e t rfl
  | wait t => trivial

/-! ### The completion record -/

/-- The end of a command, or its wait, writes the completion record, PHASE, SEQ and the model's own waiting flag and draws
alone (R155). -/
theorem finish_frame (r : Run Unit) :
    ∃ d e sb ce ea p q w dr,
      finish r =
        { r.state with
          done := d, err := e, sub := sb, cerr := ce, erraddr := ea, phase := p, seq := q, waiting := w, draws := dr } := by
  cases r with
  | ok a s => exact ⟨_, _, _, _, _, _, _, _, _, rfl⟩
  | raise e s => cases e with
    | _ => exact ⟨_, _, _, _, _, _, _, _, _, rfl⟩
  | wait s => exact ⟨s.done, s.err, s.sub, s.cerr, s.erraddr, s.phase, s.seq, true, s.draws, rfl⟩

/-! ### Which commands write which register -/

/-- What R26, R28, R29, R36 and R38 let a command change from `s` to `t`, register by register. -/
structure WritesNamedRegisters (i : Instr) (s t : State) : Prop where
  key : i ≠ .ldkey → i ≠ .xform → t.key = s.key ∧ t.keyLen = s.keyLen
  ctr : i ≠ .ldnonce → i ≠ .incctr → i ≠ .genks → i ≠ .xform → t.ctr = s.ctr
  ctrValid : i ≠ .ldnonce → i ≠ .xform → t.ctrValid = s.ctrValid
  ks : i ≠ .ldkey → i ≠ .ldnonce → i ≠ .genks → i ≠ .xform → t.ks = s.ks ∧ t.ksValid = s.ksValid
  blkcnt : i ≠ .xform → t.blkcnt = s.blkcnt
  seq : i ≠ .xform → i ≠ .incbuf → t.seq = s.seq

theorem runOf_writesNamedRegisters (i : Instr) (s : State) : WritesNamedRegisters i s (runOf i s).state := by
  cases i with
  | ldkey => obtain ⟨_, _, _, _, _, _, h⟩ := runLdkey_state s; rw [runOf, h]; constructor <;> simp
  | ldnonce => obtain ⟨_, _, _, _, _, _, h⟩ := runLdnonce_state s; rw [runOf, h]; constructor <;> simp
  | incctr => obtain ⟨_, h⟩ := runIncctr_state s; rw [runOf, h]; constructor <;> simp
  | genks => obtain ⟨_, _, _, _, h⟩ := runGenks_state Config.cipherPort s; rw [runOf, h]; constructor <;> simp
  | xorks => obtain ⟨_, _, _, h⟩ := runXorks_state s; rw [runOf, h]; constructor <;> simp
  | xform => constructor <;> simp
  | incbuf => obtain ⟨_, _, _, _, h⟩ := runIncbuf_state s; rw [runOf, h]; constructor <;> simp

/-! ### KEY and KEY_LEN -/

/-- A key length that passes its check (R6, R124). -/
theorem keySizeOk_cases {cfg : Params} {n : Nat} (h : keySizeOk cfg n = true) : n = 16 ∨ n = 24 ∨ n = 32 := by
  obtain ⟨k, -, hk⟩ := List.any_eq_true.mp h
  cases k with
  | _ => simp only [keySizeBytes, beq_iff_eq] at hk; omega

/-- KEY and KEY_LEN are as they were, or hold the KLEN bytes just loaded (R124). -/
def KeyKeptOrLoaded (s t : State) : Prop :=
  (t.key = s.key ∧ t.keyLen = s.keyLen) ∨
    ∃ k : List Byte, k.length = s.snap.klen.toNat ∧ t.key = padTo 32 k ∧ t.keyLen = s.snap.klen.toNat

theorem loadKey_key (s : State) : KeyKeptOrLoaded s (loadKey s).state := by
  refine Run.bind_state ?_ fun k t hk _ => .inr ⟨k, readBytes_length hk, rfl, rfl⟩
  obtain ⟨_, _, h⟩ := readBytes_state s.snap.kaddr.toNat s.snap.klen.toNat s
  rw [h]
  exact .inl ⟨rfl, rfl⟩

theorem xformBody_key (C : CipherPort) (s : State) : KeyKeptOrLoaded s (xformBody C s).state := by
  refine Run.bind_state (loadKey_key (s.xformStarted _)) fun _ t _ ht => Run.bind_state ?_ fun _ u _ hu =>
    Run.bind_state ?_ fun _ _ _ hv => hv
  · obtain ⟨_, _, _, _, _, _, h⟩ := loadNonce_state t
    rw [h]
    exact ht
  · obtain ⟨_, _, _, _, _, _, _, _, h⟩ := xformLoop_state C u.snap.src.toNat u.snap.dst.toNat s.snap.len.toNat
      (blockCount s.snap.len.toNat) 0 u
    rw [h]
    exact hu

/-- A command keeps KEY and KEY_LEN, or loads a key of a legal size. -/
theorem runOf_key (i : Instr) (s : State) :
    ((runOf i s).state.key = s.key ∧ (runOf i s).state.keyLen = s.keyLen) ∨
      keySizeOk s.cfg s.snap.klen.toNat = true ∧ KeyKeptOrLoaded s (runOf i s).state := by
  rcases runOf_cases i s with ⟨c, -, h⟩ | ⟨hc, h⟩
  · rw [h]
    exact .inl ⟨rfl, rfl⟩
  · cases i with
    | ldkey =>
      have hsize := firstFailing_eq_none hc (!keySizeOk s.cfg s.snap.klen.toNat, .badKeyLen) (by simp)
      rw [h]
      exact .inr ⟨by simpa using hsize, loadKey_key s⟩
    | xform =>
      have hsize := firstFailing_eq_none hc (!keySizeOk s.cfg s.snap.klen.toNat, .badKeyLen) (by simp)
      rw [h]
      exact .inr ⟨by simpa using hsize, xformBody_key _ s⟩
    | _ => exact .inl ((runOf_writesNamedRegisters _ s).key (by simp) (by simp))

/-- KEY_LEN is legal and KEY is zero from there on (R23, R124). -/
def KeyLegal (s : State) : Prop :=
  (s.keyLen = 0 ∨ s.keyLen = 16 ∨ s.keyLen = 24 ∨ s.keyLen = 32) ∧
    s.key.toList.drop s.keyLen = List.replicate (32 - s.keyLen) 0

theorem runOf_keyLegal {i : Instr} {s : State} (hs : KeyLegal s) : KeyLegal (runOf i s).state := by
  unfold KeyLegal
  rcases runOf_key i s with ⟨hk, hl⟩ | ⟨hsize, ⟨hk, hl⟩ | ⟨k, hlen, hk, hl⟩⟩
  · rw [hk, hl]
    exact hs
  · rw [hk, hl]
    exact hs
  · have hn := keySizeOk_cases hsize
    rw [hk, hl, padTo_toList_of_le (by omega), ← hlen, List.drop_left]
    exact ⟨by omega, rfl⟩

theorem runOf_keyLen_ne_zero {i : Instr} {s : State} (hs : s.keyLen ≠ 0) : (runOf i s).state.keyLen ≠ 0 := by
  rcases runOf_key i s with ⟨-, hl⟩ | ⟨hsize, ⟨-, hl⟩ | ⟨_, -, -, hl⟩⟩
  · rwa [hl]
  · rwa [hl]
  · have hn := keySizeOk_cases hsize
    rw [hl]
    omega

/-! ### CTR and CTR_VALID -/

/-- CTR_VALID is 1, or CTR and CTR_VALID are as they were (R36). -/
def CtrKeptOrValid (s t : State) : Prop := t.ctrValid = true ∨ (t.ctrValid = s.ctrValid ∧ t.ctr = s.ctr)

theorem loadNonce_ctr (s : State) : CtrKeptOrValid s (loadNonce s).state := by
  refine Run.bind_state ?_ fun _ _ _ _ => .inl rfl
  obtain ⟨_, _, h⟩ := readBytes_state s.snap.naddr.toNat s.snap.nlen.toNat s
  rw [h]
  exact .inr ⟨rfl, rfl⟩

theorem loadNonce_ok_ctrValid {s t : State} (h : loadNonce s = .ok () t) : t.ctrValid = true := by
  obtain ⟨_, _, -, h⟩ := Run.bind_eq_ok h
  cases h
  rfl

theorem xformBody_ctr (C : CipherPort) (s : State) : CtrKeptOrValid s (xformBody C s).state := by
  refine Run.bind_state ?_ fun _ t _ ht => Run.bind_state ?_ fun _ u hu _ => Run.bind_state ?_ fun _ _ _ hv => hv
  · obtain ⟨_, _, _, _, _, _, h⟩ := loadKey_state (s.xformStarted (blockCount s.snap.len.toNat))
    rw [h]
    exact .inr ⟨rfl, rfl⟩
  · rcases loadNonce_ctr t with hn | ⟨hv, hc⟩
    · exact .inl hn
    · unfold CtrKeptOrValid
      rwa [hv, hc]
  · obtain ⟨_, _, _, _, _, _, _, _, h⟩ := xformLoop_state C u.snap.src.toNat u.snap.dst.toNat s.snap.len.toNat
      (blockCount s.snap.len.toNat) 0 u
    have hvalid := loadNonce_ok_ctrValid hu
    rw [h]
    exact .inl hvalid

/-- A command that changes CTR has CTR_VALID 1 from its validation, or sets it. -/
theorem runOf_ctr (i : Instr) (s : State) : CtrKeptOrValid s (runOf i s).state := by
  rcases runOf_cases i s with ⟨c, -, h⟩ | ⟨hc, h⟩
  · rw [h]
    exact .inr ⟨rfl, rfl⟩
  · have hw := runOf_writesNamedRegisters i s
    have hvalid : i ≠ .ldnonce → i ≠ .xform → s.ctrValid = true → CtrKeptOrValid s (runOf i s).state :=
      fun h1 h2 hv => .inl ((hw.ctrValid h1 h2).trans hv)
    cases i with
    | ldnonce => rw [h]; exact loadNonce_ctr s
    | xform => rw [h]; exact xformBody_ctr _ s
    | incctr => exact hvalid (by simp) (by simp) (by simpa using firstFailing_eq_none hc (!s.ctrValid, .noCounter) (by simp))
    | genks => exact hvalid (by simp) (by simp) (by simpa using firstFailing_eq_none hc (!s.ctrValid, .noCounter) (by simp))
    | _ => exact .inr ⟨hw.ctrValid (by simp) (by simp), hw.ctr (by simp) (by simp) (by simp) (by simp)⟩

/-! ### KS and KS_VALID -/

/-- KS_VALID is 1, or KS is zero, or both are as they were (R36). -/
def KsValidZeroOrKept (s t : State) : Prop := t.ksValid = true ∨ t.ks = zeroBlock ∨ (t.ks = s.ks ∧ t.ksValid = s.ksValid)

theorem loadKey_ks (s : State) : KsValidZeroOrKept s (loadKey s).state := by
  refine Run.bind_state ?_ fun _ _ _ _ => .inr (.inl rfl)
  obtain ⟨_, _, h⟩ := readBytes_state s.snap.kaddr.toNat s.snap.klen.toNat s
  rw [h]
  exact .inr (.inr ⟨rfl, rfl⟩)

theorem loadNonce_ks (s : State) : KsValidZeroOrKept s (loadNonce s).state := by
  refine Run.bind_state ?_ fun _ _ _ _ => .inr (.inl rfl)
  obtain ⟨_, _, h⟩ := readBytes_state s.snap.naddr.toNat s.snap.nlen.toNat s
  rw [h]
  exact .inr (.inr ⟨rfl, rfl⟩)

/-- A cipher call that fails leaves KS (R126). -/
theorem genBlock_raise {C : CipherPort} {s t : State} {e : CmdError} (h : genBlock C s = .raise e t) :
    t.ks = s.ks ∧ t.ksValid = s.ksValid := by
  unfold genBlock at h
  dsimp only at h
  repeat' split at h
  all_goals cases h
  exact ⟨rfl, rfl⟩

/-- An error in XFORM's loop drops the keystream (R131). -/
theorem xformLoop_raise_ks {C : CipherPort} {src dst m n j : Nat} {s t : State} {e : CmdError}
    (h : xformLoop C src dst m n j s = .raise e t) : t.ks = zeroBlock := by
  induction n generalizing j s with
  | zero => cases h
  | succ n ih =>
    unfold xformLoop at h
    split at h
    · cases h; rfl
    · cases h
    · exact ih h

theorem xformBody_ks (C : CipherPort) (s : State) : (xformBody C s).Settled (KsValidZeroOrKept s) := by
  have hk := loadKey_ks (s.xformStarted (blockCount s.snap.len.toNat))
  refine .bind (fun e t he => ?_) fun _ t ht => .bind (fun e u hu => ?_) fun _ u _ => .bind (fun e v hv => ?_) fun _ _ _ => ?_
  · rw [he] at hk
    exact hk
  · rw [ht] at hk
    have hn := loadNonce_ks t
    rw [hu] at hn
    rcases hn with hn | hn | ⟨hn, hv⟩
    · exact .inl hn
    · exact .inr (.inl hn)
    · unfold KsValidZeroOrKept
      rw [show u.ks = t.ks from hn, show u.ksValid = t.ksValid from hv]
      exact hk
  · exact .inr (.inl (xformLoop_raise_ks hv))
  · exact .inr (.inl rfl)

/-- Whenever a command ends with KS_VALID 0, KS is zero or untouched. -/
theorem runOf_ks (i : Instr) (s : State) : (runOf i s).Settled (KsValidZeroOrKept s) := by
  rcases runOf_cases i s with ⟨c, -, h⟩ | ⟨-, h⟩
  · rw [h]
    exact .inr (.inr ⟨rfl, rfl⟩)
  · cases i with
    | ldkey => rw [h]; exact .of_state (loadKey_ks s)
    | ldnonce => rw [h]; exact .of_state (loadNonce_ks s)
    | genks => rw [h]; exact .bind (fun _ _ he => .inr (.inr (genBlock_raise he))) fun _ _ _ => .inl rfl
    | xform => rw [h]; exact xformBody_ks _ s
    | _ => exact .of_state (.inr (.inr ((runOf_writesNamedRegisters _ s).ks (by simp) (by simp) (by simp) (by simp))))

/-! ### SEQ -/

/-- SEQ's block count is XFORM's and its indices are those of a block and a byte that there is (R31, R109, R132). -/
structure SeqLegal (s : State) : Prop where
  blocks : s.seq.word = encode .xform → s.seq.nblk = blockCount s.snap.len.toNat ∧ (0 < s.seq.nblk → s.seq.blk < s.seq.nblk)
  byte : s.seq.word = encode .incbuf → 0 < s.snap.nlen.toNat → s.seq.idx < s.snap.nlen.toNat

/-- SEQ is as it was but for the index of one of n bytes. -/
def SeqAtByte (n : Nat) (s t : State) : Prop := ∃ k < n, t.seq = { s.seq with idx := k }

/-- INCBUF's loop leaves SEQ, or holds the index of one of its bytes in it. -/
theorem incbufLoop_seq (a n : Nat) (s : State) :
    (incbufLoop a n s).state.seq = s.seq ∨ SeqAtByte n s (incbufLoop a n s).state := by
  induction n generalizing s with
  | zero => exact .inl rfl
  | succ n ih =>
    refine .inr (Run.bind_state ?_ fun b t _ ht => Run.bind_state ?_ fun _ u _ hu => ?_)
    · obtain ⟨_, _, h⟩ := unitRead_state (a + n) (s.atByte n)
      rw [h]
      exact ⟨n, by omega, rfl⟩
    · obtain ⟨_, _, _, h⟩ := unitWrite_frame (a + n) (b + 1) t
      rw [h]
      exact ht
    · split
      · obtain ⟨k, hk, hs⟩ := hu
        rcases ih u with h | ⟨k', hk', h⟩
        · exact ⟨k, hk, h.trans hs⟩
        · exact ⟨k', by omega, by rw [h, hs]⟩
      · exact hu

theorem xformBlock_seq (C : CipherPort) (src dst m j : Nat) (s : State) :
    (xformBlock C src dst m j s).state.seq = { s.seq with blk := j } := by
  refine Run.bind_state (P := fun t => t.seq = { s.seq with blk := j }) ?_ fun _ t _ ht => ?_
  · obtain ⟨_, _, _, h⟩ := genBlock_state C (s.atBlock j)
    rw [h]
    rfl
  · obtain ⟨_, _, _, h⟩ := xorBlock_state (src + 16 * j) (dst + 16 * j) (blockBytes m j) t
    rw [h]
    exact ht

/-- XFORM's loop leaves SEQ, or holds the index of one of its blocks in it. -/
theorem xformLoop_seq (C : CipherPort) (src dst m n j : Nat) (s : State) :
    (xformLoop C src dst m n j s).state.seq = s.seq ∨
      ∃ k < j + n, (xformLoop C src dst m n j s).state.seq = { s.seq with blk := k } := by
  induction n generalizing j s with
  | zero => exact .inl rfl
  | succ n ih =>
    have hb := xformBlock_seq C src dst m j s
    unfold xformLoop
    split
    · next h => rw [h] at hb; exact .inr ⟨j, by omega, hb⟩
    · next h => rw [h] at hb; exact .inr ⟨j, by omega, hb⟩
    · next t h =>
      rw [h] at hb
      rcases ih (j + 1) t with h' | ⟨k, hk, h'⟩
      · exact .inr ⟨j, by omega, h'.trans hb⟩
      · exact .inr ⟨k, by omega, by rw [h', show t.seq = _ from hb]⟩

/-- SEQ is as it was but for a block count of n and the index of one of n blocks, or the index it had. -/
def SeqAtBlock (n : Nat) (s t : State) : Prop :=
  ∃ b, (b = s.seq.blk ∨ b < n) ∧ t.seq = { s.seq with nblk := n, blk := b }

/-- XFORM past its validation has its block count in SEQ, and the block index it was accepted with or one of its blocks'. -/
theorem xformBody_seq (C : CipherPort) (s : State) :
    SeqAtBlock (blockCount s.snap.len.toNat) s (xformBody C s).state := by
  refine Run.bind_state ?_ fun _ t _ ht => Run.bind_state ?_ fun _ u _ hu => Run.bind_state ?_ fun _ _ _ hv => hv
  · obtain ⟨_, _, _, _, _, _, h⟩ := loadKey_state (s.xformStarted (blockCount s.snap.len.toNat))
    rw [h]
    exact ⟨s.seq.blk, .inl rfl, rfl⟩
  · obtain ⟨_, _, _, _, _, _, h⟩ := loadNonce_state t
    rw [h]
    exact ht
  · obtain ⟨b, hb, hs⟩ := hu
    rcases xformLoop_seq C u.snap.src.toNat u.snap.dst.toNat s.snap.len.toNat (blockCount s.snap.len.toNat) 0 u
      with h | ⟨k, hk, h⟩
    · exact ⟨b, hb, h.trans hs⟩
    · exact ⟨k, .inr (by omega), by rw [h, hs]⟩

theorem runOf_snap (i : Instr) (s : State) : (runOf i s).state.snap = s.snap := by
  obtain ⟨_, _, _, _, _, _, _, _, _, _, _, h⟩ := runOf_state i s
  rw [h]

/-- A state in which SEQ differs from a legal one in XFORM's block count and index alone is legal. -/
theorem SeqAtBlock.seqLegal {s t : State} (h : SeqAtBlock (blockCount s.snap.len.toNat) s t) (hsnap : t.snap = s.snap)
    (hs : SeqLegal s) : t.seq.word = s.seq.word ∧ SeqLegal t := by
  obtain ⟨b, hb, hq⟩ := h
  refine ⟨by rw [hq], fun hw => ?_, fun hw => ?_⟩
  · rw [hq] at hw ⊢
    rw [hsnap]
    obtain ⟨hn, hlt⟩ := hs.blocks hw
    refine ⟨rfl, fun hpos => ?_⟩
    rcases hb with rfl | hb
    · exact hn ▸ hlt (hn ▸ hpos)
    · exact hb
  · rw [hq] at hw ⊢
    rw [hsnap]
    exact hs.byte hw

/-- A state in which SEQ differs from a legal one in the index of a byte of the buffer alone is legal. -/
theorem SeqAtByte.seqLegal {s t : State} (h : SeqAtByte s.snap.nlen.toNat s t) (hsnap : t.snap = s.snap)
    (hs : SeqLegal s) : t.seq.word = s.seq.word ∧ SeqLegal t := by
  obtain ⟨k, hk, hq⟩ := h
  refine ⟨by rw [hq], ?_, ?_⟩
  · rw [hq, hsnap]
    exact hs.blocks
  · rw [hq, hsnap]
    exact fun _ _ => hk

/-- A command keeps SEQ's word, and indices that name a block or a byte. -/
theorem runOf_seq {i : Instr} {s : State} (hs : SeqLegal s) :
    (runOf i s).state.seq.word = s.seq.word ∧ SeqLegal (runOf i s).state := by
  have hkept : ∀ t : State, t.seq = s.seq → t.snap = s.snap → t.seq.word = s.seq.word ∧ SeqLegal t :=
    fun t h h' => ⟨by rw [h], by rw [h, h']; exact hs.blocks, by rw [h, h']; exact hs.byte⟩
  have hsnap := runOf_snap i s
  have hnamed := runOf_writesNamedRegisters i s
  rcases runOf_cases i s with ⟨c, -, h⟩ | ⟨-, h⟩
  · rw [h]
    exact ⟨rfl, hs⟩
  · cases i with
    | xform =>
      rw [h] at hsnap ⊢
      exact (xformBody_seq Config.cipherPort s).seqLegal hsnap hs
    | incbuf =>
      rw [h] at hsnap ⊢
      rcases incbufLoop_seq s.snap.naddr.toNat s.snap.nlen.toNat s with hq | hq
      · exact hkept _ hq hsnap
      · exact hq.seqLegal hsnap hs
    | _ => exact hkept _ (hnamed.seq (by simp) (by simp)) hsnap

end Sys2Proof.Machine
end

