-- ==== Sys2Proof/Proofs/StepInvariant.lean ====
section
/-! PROOFS. Every step keeps the invariant: by the unit's turn, which ends in one of three ways, by the host's moves, and by
the reset input. -/

namespace Sys2Proof.Machine

/-! ### The step, taken apart -/

/-- A step is the unit's turn where no move is pending, else the next move. -/
theorem step_cases {s t : State} (h : step s = .next t) :
    (s.inputs = [] ∧ unitTurn s = .next t) ∨
      ∃ x rest, s.inputs = x :: rest ∧ move x { s with inputs := rest } = .next t := by
  unfold step at h
  split at h
  · next hi => exact .inl ⟨hi, h⟩
  · next x rest hi => exact .inr ⟨x, rest, hi, h⟩

/-- The unit's turn leaves the state, or completes an illegal word, or ends the run of the accepted command. -/
theorem unitTurn_eq_next {s t : State} (h : unitTurn s = .next t) :
    t = s ∨ (s.phase = .busy ∧ s.waiting = false ∧ (t = illegalCommand s ∨ ∃ i, t = finish (runOf i s))) := by
  rcases unitTurn_cases h with rfl | ⟨hb, hw, h⟩
  · exact .inl rfl
  · refine .inr ⟨hb, hw, ?_⟩
    rcases runAccepted_cases s with ⟨hidle, -⟩ | ⟨-, hr⟩ | ⟨-, i, -, hr⟩
    · rw [hb] at hidle
      cases hidle
    · cases hr.symm.trans h
      exact .inl rfl
    · cases hr.symm.trans h
      exact .inr ⟨i, rfl⟩

/-- The end of a run is no event of the ports. -/
theorem finish_wroteBelow (top : Nat) (r : Run Unit) : WroteBelow top r.state (finish r) := by
  obtain ⟨_, _, _, _, _, _, _, _, _, h⟩ := finish_frame r
  rw [h]
  exact .of_eq rfl rfl

theorem unitTurn_wroteBelow {s t : State} (h : unitTurn s = .next t) : WroteBelow (addrTop s.cfg) s t := by
  rcases unitTurn_eq_next h with rfl | ⟨-, -, rfl | ⟨i, rfl⟩⟩
  · exact .of_eq rfl rfl
  · exact finish_wroteBelow _ (.raise .illegal s)
  · exact (runOf_wroteBelow i s).1.trans (finish_wroteBelow _ _)

/-! ### A command's run -/

/-- What holds at every point of a command's run, whatever request stays unanswered: the invariant's part of the memory, KEY,
CTR and SEQ, and a completion record still clear (R44). -/
structure Running (s : State) : Prop where
  memCanonical : s.mem.wf = true
  memInSpace : s.mem.below (addrTop s.cfg) = true
  keyLegal : KeyLegal s
  noCounterZero : s.ctrValid = false → s.ctr = zeroBlock
  seqLegal : SeqLegal s
  snapshot : s.snap = s.ops ∧ s.seq.word = s.cmd
  busy : s.phase = .busy
  notDone : s.done = false
  errNone : s.err = .none
  subNone : s.sub = .none
  cerrZero : s.cerr = 0
  erraddrZero : s.erraddr = 0

theorem State.Inv.running {s : State} (h : s.Inv) (hb : s.phase = .busy) : Running s := by
  have hdone := h.busyNotDone hb
  obtain ⟨herr, hcerr, herraddr⟩ := h.recordClear hdone
  exact
    { memCanonical := h.memCanonical
      memInSpace := h.memInSpace
      keyLegal := ⟨h.keyLenLegal, h.keyPadded⟩
      noCounterZero := h.noCounterZero
      seqLegal := ⟨h.busyBlocks hb, h.busyByte hb⟩
      snapshot := h.busySnapshot hb
      busy := hb
      notDone := hdone
      errNone := herr
      subNone := by simpa [herr] using h.subOnlyInvalid
      cerrZero := hcerr
      erraddrZero := herraddr }

theorem runOf_running {i : Instr} {s : State} (h : Running s) : Running (runOf i s).state := by
  obtain ⟨hwrote, -⟩ := runOf_wroteBelow i s
  obtain ⟨hword, hseq⟩ := runOf_seq (i := i) h.seqLegal
  have hctr := runOf_ctr i s
  have hkey := runOf_keyLegal (i := i) h.keyLegal
  have hwf := hwrote.mem_wf h.memCanonical
  have hbelow := hwrote.mem_below h.memInSpace
  obtain ⟨_, _, _, _, _, _, _, _, _, _, _, hframe⟩ := runOf_state i s
  rw [hframe] at hword hseq hctr hkey hwf hbelow ⊢
  refine { h with
    memCanonical := hwf, memInSpace := hbelow, keyLegal := hkey, seqLegal := hseq
    noCounterZero := fun hf => ?_
    snapshot := ⟨h.snapshot.1, hword.trans h.snapshot.2⟩ }
  rcases hctr with hv | ⟨hv, hc⟩
  · cases hv.symm.trans hf
  · exact hc.trans (h.noCounterZero (hv.symm.trans hf))

/-- A completion without error meets the invariant (R155). -/
theorem completed_inv {s : State} (h : Running s) (hks : s.ksValid = false → s.ks = zeroBlock) (hs : s.silentAt = none) :
    s.completed.Inv where
  memCanonical := h.memCanonical
  memInSpace := h.memInSpace
  busyNotDone := by simp
  busySnapshot := by simp
  busyBlocks := by simp
  busyByte := by simp
  waitingBusy := by simp
  noSilence := hs
  recordClear := by simp
  subOnlyInvalid := by simp
  cerrOnlyCipher := by simp [h.cerrZero]
  erraddrOnlyBus := by simp [h.erraddrZero]
  keyLenLegal := h.keyLegal.1
  keyPadded := h.keyLegal.2
  noCounterZero := h.noCounterZero
  noKeystreamZero := fun _ => hks

/-- A completion with an error meets the invariant (R155). -/
theorem raised_inv {s : State} {e : CmdError} (h : Running s) (he : e ≠ .invalid .none)
    (hks : s.ksValid = false → s.ks = zeroBlock) (hs : s.silentAt = none) : (s.raised e).Inv where
  memCanonical := by simpa using h.memCanonical
  memInSpace := by simpa using h.memInSpace
  busyNotDone := by simp
  busySnapshot := by simp
  busyBlocks := by simp
  busyByte := by simp
  waitingBusy := by simp
  noSilence := by simpa using hs
  recordClear := by simp
  subOnlyInvalid := by cases e <;> simp at he ⊢; exact he
  cerrOnlyCipher := by cases e <;> simp [h.cerrZero]
  erraddrOnlyBus := by cases e <;> simp [h.erraddrZero]
  keyLenLegal := by simpa using h.keyLegal.1
  keyPadded := by simpa using h.keyLegal.2
  noCounterZero := by simpa using h.noCounterZero
  noKeystreamZero := by simpa using hks

/-- A command that waits meets the invariant once its turn is over (R193). -/
theorem stalled_inv {s : State} (h : Running s) : State.Inv { s.stalled with silentAt := none } where
  memCanonical := h.memCanonical
  memInSpace := h.memInSpace
  busyNotDone := fun _ => h.notDone
  busySnapshot := fun _ => h.snapshot
  busyBlocks := fun _ => h.seqLegal.blocks
  busyByte := fun _ => h.seqLegal.byte
  waitingBusy := fun _ => h.busy
  noSilence := rfl
  recordClear := fun _ => ⟨h.errNone, h.cerrZero, h.erraddrZero⟩
  subOnlyInvalid := by simp [h.errNone, h.subNone]
  cerrOnlyCipher := by simp [h.cerrZero]
  erraddrOnlyBus := by simp [h.erraddrZero]
  keyLenLegal := h.keyLegal.1
  keyPadded := h.keyLegal.2
  noCounterZero := h.noCounterZero
  noKeystreamZero := by simp

/-! ### The unit's turn -/

/-- A command whose requests are all answered completes into the invariant. -/
theorem finish_runOf_inv {i : Instr} {s : State} (h : s.Inv) (hb : s.phase = .busy) (hw : s.waiting = false) :
    (finish (runOf i s)).Inv := by
  have hrun := runOf_running (i := i) (h.running hb)
  have hsilent := (runOf_wroteBelow i s).2.trans h.noSilence
  have hks := runOf_ks i s
  have hzero : ∀ t, KsValidZeroOrKept s t → t.ksValid = false → t.ks = zeroBlock := by
    rintro t (hv | hz | ⟨hk, hv⟩) hf
    · cases hv.symm.trans hf
    · exact hz
    · exact hk.trans (h.noKeystreamZero hw (hv.symm.trans hf))
  cases hr : runOf i s with
  | ok a t =>
    rw [hr] at hrun hsilent hks
    exact completed_inv hrun (hzero t hks) hsilent
  | raise e t =>
    have he : e ≠ .invalid .none := by
      rintro rfl
      simpa using runOf_raise hr
    rw [hr] at hrun hsilent hks
    exact raised_inv hrun he (hzero t hks) hsilent
  | wait t => exact absurd h.noSilence (runOf_wait hr).2

theorem unitTurn_inv {s t : State} (hs : s.Inv) (h : unitTurn s = .next t) : t.Inv := by
  rcases unitTurn_eq_next h with rfl | ⟨hb, hw, rfl | ⟨i, rfl⟩⟩
  · exact hs
  · exact raised_inv (e := .illegal) (hs.running hb) (by simp) (hs.noKeystreamZero hw) hs.noSilence
  · exact finish_runOf_inv hs hb hw

/-- Only a run that waits leaves the unit waiting. -/
theorem eq_wait_of_finish_waiting {r : Run Unit} (h : (finish r).waiting = true) : r = .wait r.state := by
  cases r with
  | ok a t => cases h
  | raise e t => simp at h
  | wait t => rfl

theorem unitStall_inv {k : Nat} {s t : State} (hs : s.Inv) (h : unitStall k s = .next t) : t.Inv := by
  obtain ⟨u, hu, hw, rfl⟩ := unitStall_cases h
  rcases unitTurn_eq_next hu with rfl | ⟨hb, -, rfl | ⟨i, rfl⟩⟩
  · exact { hs with noSilence := rfl }
  · cases hw
  · have hrun : Running { s with silentAt := some (s.trace.length + k) } := 
      { hs.running hb with seqLegal := ⟨hs.busyBlocks hb, hs.busyByte hb⟩ }
    rw [eq_wait_of_finish_waiting hw]
    exact stalled_inv (runOf_running hrun)

/-! ### The host's moves -/

/-- The invariant reads neither OVERRUN nor the host's side, and any memory in canonical form and in space will do. -/
theorem State.Inv.hostSide {s : State} (h : s.Inv) {m : Memory} (hm : m.wf = true) (hb : m.below (addrTop s.cfg) = true)
    (o : Bool) (xs : List Input) (fr fw : List Span) (tc : List Nat) (hd : Word) (dr : Nat) :
    State.Inv
      { s with
        mem := m, overrun := o, inputs := xs, fpReads := fr, fpWrites := fw, touched := tc, hostData := hd, draws := dr } :=
  { h with memCanonical := hm, memInSpace := hb }

/-- An operand write to an IDLE unit leaves no snapshot to agree with. -/
theorem State.Inv.idleOps {s : State} (h : s.Inv) (hidle : s.phase ≠ .busy) (o : Operands) : State.Inv { s with ops := o } :=
  { h with busySnapshot := fun hb => absurd hb hidle }

/-- SEQ as it is started names a block and a byte that there is. -/
theorem startSeq_legal (w : Word) (o : Operands) :
    (w = encode .xform →
      (startSeq w o).nblk = blockCount o.len.toNat ∧ (0 < (startSeq w o).nblk → (startSeq w o).blk < (startSeq w o).nblk)) ∧
      (w = encode .incbuf → 0 < o.nlen.toNat → (startSeq w o).idx < o.nlen.toNat) := by
  refine ⟨?_, ?_⟩
  · rintro rfl
    exact ⟨rfl, id⟩
  · rintro rfl hpos
    change o.nlen.toNat - 1 < o.nlen.toNat
    omega

/-- The acceptance of a word by an IDLE unit starts a command in the invariant (R44). -/
theorem accept_inv {s : State} (w : Word) (h : s.Inv) (hw : s.waiting = false) : (accept w s).Inv where
  memCanonical := h.memCanonical
  memInSpace := h.memInSpace
  busyNotDone := by simp
  busySnapshot := by simp
  busyBlocks := fun _ => (startSeq_legal w s.ops).1
  busyByte := fun _ => (startSeq_legal w s.ops).2
  waitingBusy := by simp
  noSilence := h.noSilence
  recordClear := by simp
  subOnlyInvalid := by simp
  cerrOnlyCipher := by simp
  erraddrOnlyBus := by simp
  keyLenLegal := h.keyLenLegal
  keyPadded := h.keyPadded
  noCounterZero := h.noCounterZero
  noKeystreamZero := fun _ => h.noKeystreamZero hw

theorem hostWrite_inv {off : Nat} {v : Word} {s t : State} (hs : s.Inv) (h : hostWrite off v s = .next t) : t.Inv := by
  have hidle : isBusy s = false → s.phase ≠ .busy := by simp [isBusy]
  rcases hostWrite_cases h with ⟨o, rfl⟩ | ⟨hb, rfl⟩ | ⟨hb, o, rfl⟩
  · exact hs.hostSide hs.memCanonical hs.memInSpace ..
  · exact accept_inv v hs (Bool.eq_false_iff.mpr fun hw => hidle hb (hs.waitingBusy hw))
  · exact hs.idleOps (hidle hb) o

theorem hostRead_inv {off : Nat} {s t : State} (hs : s.Inv) (h : hostRead off s = .next t) : t.Inv := by
  obtain ⟨_, _, _, _, _, rfl⟩ := hostRead_cases h
  exact hs.hostSide hs.memCanonical hs.memInSpace ..

theorem hostMemWrite_inv {a : Nat} {v : Byte} {s t : State} (hs : s.Inv) (h : hostMemWrite a v s = .next t) : t.Inv := by
  obtain ⟨ha, w, _, _, rfl⟩ := hostMemWrite_cases h
  exact hs.hostSide (Memory.setByte_wf hs.memCanonical a w) (Memory.setByte_below hs.memInSpace ha w) ..

theorem hostMemRead_inv {a : Nat} {s t : State} (hs : s.Inv) (h : hostMemRead a s = .next t) : t.Inv := by
  obtain ⟨ha, ⟨_, _, rfl⟩ | ⟨-, w, _, _, _, rfl⟩⟩ := hostMemRead_cases h
  · exact hs.hostSide hs.memCanonical hs.memInSpace ..
  · exact hs.hostSide (Memory.setByte_wf hs.memCanonical a w) (Memory.setByte_below hs.memInSpace ha w) ..

/-! ### Reset -/

/-- The reset values meet the invariant over any memory in canonical form and in space (R180). -/
theorem resetRegisters_inv {s : State} (hm : s.mem.wf = true) (hb : s.mem.below (addrTop s.cfg) = true)
    (hs : s.silentAt = none) : (resetRegisters s).Inv where
  memCanonical := hm
  memInSpace := hb
  busyNotDone := by simp
  busySnapshot := by simp
  busyBlocks := by simp
  busyByte := by simp
  waitingBusy := by simp
  noSilence := hs
  recordClear := by simp
  subOnlyInvalid := by simp
  cerrOnlyCipher := by simp
  erraddrOnlyBus := by simp
  keyLenLegal := .inl rfl
  keyPadded := rfl
  noCounterZero := fun _ => rfl
  noKeystreamZero := fun _ _ => rfl

/-- A reset keeps the invariant: the writes it keeps are some of those the aborted command would have made (R181). -/
theorem resetNow_inv {o : Host.Outcome State Fault Refusal} {s : State} (hs : s.Inv)
    (ho : ∀ t, o = .next t → WroteBelow (addrTop s.cfg) s t) : (resetNow o s).Inv := by
  cases o with
  | next t =>
    exact resetRegisters_inv (replayWrites_wf hs.memCanonical _) ((ho t rfl).replayTake_below hs.memInSpace _) hs.noSilence
  | fault f => exact resetRegisters_inv hs.memCanonical hs.memInSpace hs.noSilence
  | refused r => exact resetRegisters_inv hs.memCanonical hs.memInSpace hs.noSilence

/-! ### Every step -/

theorem move_inv {x : Input} {s t : State} (hs : s.Inv) (h : move x s = .next t) : t.Inv := by
  cases x with
  | hostWrite off v => exact hostWrite_inv hs h
  | hostRead off => exact hostRead_inv hs h
  | hostOther off bits => cases h
  | memWrite a v => exact hostMemWrite_inv hs h
  | memRead a => exact hostMemRead_inv hs h
  | unitTurn => exact unitTurn_inv hs h
  | unitStall k => exact unitStall_inv hs h
  | reset =>
    cases h
    exact resetNow_inv hs fun t ht => (unitTurn_wroteBelow ht :)

/-- Settles O57: a step is the unit's turn or a move, and each keeps the invariant. -/
theorem stepKeepsTheInvariant : Obligations.StepKeepsTheInvariant := by
  intro s t hs h
  rcases step_cases h with ⟨-, h⟩ | ⟨x, rest, -, h⟩
  · exact unitTurn_inv hs h
  · exact move_inv (hs.hostSide hs.memCanonical hs.memInSpace ..) h

end Sys2Proof.Machine
end

