-- ==== Sys2Proof/Proofs/CommandFrames.lean ====
section
/-! PROOFS. How a command ends, and what it leaves alone, for all seven commands at once. -/

namespace Sys2Proof.Machine

/-- A command answers the end of its run. -/
theorem exec_eq_next {i : Instr} {s t : State} (h : exec i s = .next t) : t = finish (runOf i s) := by
  cases (exec_runOf i s).symm.trans h
  rfl

/-- Settles O9: a run that goes on completes, one that raises completes with its error, one that waits leaves the record. -/
theorem everyCommandCompletes : Obligations.EveryCommandCompletes := by
  intro i s
  refine ⟨finish (runOf i s), exec_runOf i s, ?_⟩
  obtain ⟨_, _, _, _, _, _, _, _, _, _, _, hframe⟩ := runOf_state i s
  cases hr : runOf i s with
  | ok a t =>
    rw [hr] at hframe
    change t = _ at hframe
    refine .inl ?_
    simp [hframe]
  | raise e t =>
    have he := runOf_raise hr
    rw [hr] at hframe
    change t = _ at hframe
    refine .inl ?_
    rcases he with ⟨c, hc, rfl⟩ | ⟨a, rfl⟩ | ⟨w, rfl⟩
    · simp [hframe, hc]
    · simp [hframe]
    · simp [hframe]
  | wait t =>
    obtain ⟨hi, hs⟩ := runOf_wait hr
    rw [hr] at hframe
    change t = _ at hframe
    refine .inr ?_
    simp [hframe, hi, hs]

/-- Settles O10: neither a command's run nor its end writes anything of the host's side. -/
theorem commandsLeaveTheHostSide : Obligations.CommandsLeaveTheHostSide := by
  intro i s t h
  obtain ⟨_, _, _, _, _, _, _, _, _, hfinish⟩ := finish_frame (runOf i s)
  obtain ⟨_, _, _, _, _, _, _, _, _, _, _, hrun⟩ := runOf_state i s
  rw [exec_eq_next h, hfinish, hrun]
  exact ⟨rfl, rfl, rfl, rfl, rfl, rfl, rfl, rfl, rfl, rfl⟩

/-- Settles O11: what a run leaves in a register, its end leaves there. -/
theorem onlyTheNamedCommandsWriteARegister : Obligations.OnlyTheNamedCommandsWriteARegister := by
  intro i s t h
  have hw := runOf_writesNamedRegisters i s
  obtain ⟨_, _, _, _, _, _, _, _, _, hfinish⟩ := finish_frame (runOf i s)
  rw [exec_eq_next h, hfinish]
  exact ⟨hw.key, hw.ctr, hw.ctrValid, hw.ks, hw.blkcnt⟩

end Sys2Proof.Machine
end

