-- ==== Sys2Proof/Proofs/StepFrames.lean ====
section
/-! PROOFS. What a step leaves alone: the valid bits of the key and the counter but for a reset, and the memory but for the
unit's turn, a reset that aborts it, and the host's access of one byte. -/

namespace Sys2Proof.Machine

/-! ### KEY_VALID and CTR_VALID -/

/-- A loaded key stays loaded, and CTR_VALID stays 1 (R36). -/
def KeepsValid (s t : State) : Prop := (s.keyLen ≠ 0 → t.keyLen ≠ 0) ∧ (s.ctrValid = true → t.ctrValid = true)

theorem KeepsValid.of_eq {s t : State} (hk : t.keyLen = s.keyLen) (hc : t.ctrValid = s.ctrValid) : KeepsValid s t :=
  ⟨by rw [hk]; exact id, by rw [hc]; exact id⟩

theorem finish_keepsValid {s : State} {r : Run Unit} (h : KeepsValid s r.state) : KeepsValid s (finish r) := by
  obtain ⟨_, _, _, _, _, _, _, _, _, hfinish⟩ := finish_frame r
  rw [hfinish]
  exact h

theorem runOf_keepsValid (i : Instr) (s : State) : KeepsValid s (runOf i s).state := by
  refine ⟨runOf_keyLen_ne_zero, fun hv => ?_⟩
  rcases runOf_ctr i s with h | ⟨h, -⟩
  · exact h
  · exact h.trans hv

theorem unitTurn_keepsValid {s t : State} (h : unitTurn s = .next t) : KeepsValid s t := by
  rcases unitTurn_eq_next h with rfl | ⟨-, -, rfl | ⟨i, rfl⟩⟩
  · exact .of_eq rfl rfl
  · exact .of_eq rfl rfl
  · exact finish_keepsValid (runOf_keepsValid i s)

theorem unitStall_keepsValid {k : Nat} {s t : State} (h : unitStall k s = .next t) : KeepsValid s t := by
  obtain ⟨u, hu, -, rfl⟩ := unitStall_cases h
  exact (unitTurn_keepsValid hu :)

/-- Every move but a reset keeps the two valid bits. -/
theorem move_keepsValid {x : Input} {s t : State} (hx : x ≠ .reset) (h : move x s = .next t) : KeepsValid s t := by
  cases x with
  | hostWrite off v =>
    rcases hostWrite_cases h with ⟨_, rfl⟩ | ⟨-, rfl⟩ | ⟨-, _, rfl⟩ <;> exact .of_eq rfl rfl
  | hostRead off =>
    obtain ⟨_, _, _, _, _, rfl⟩ := hostRead_cases h
    exact .of_eq rfl rfl
  | hostOther off bits => cases h
  | memWrite a v =>
    obtain ⟨-, _, _, _, rfl⟩ := hostMemWrite_cases h
    exact .of_eq rfl rfl
  | memRead a =>
    obtain ⟨-, ⟨_, _, rfl⟩ | ⟨-, _, _, _, _, rfl⟩⟩ := hostMemRead_cases h <;> exact .of_eq rfl rfl
  | unitTurn => exact unitTurn_keepsValid h
  | unitStall k => exact unitStall_keepsValid h
  | reset => exact absurd rfl hx

/-- Settles O59: a step is the unit's turn or a move, and each but a reset keeps the two valid bits. -/
theorem onlyResetClearsKeyAndCounterValid : Obligations.OnlyResetClearsKeyAndCounterValid := by
  intro s t h hreset
  rcases step_cases h with ⟨-, h⟩ | ⟨x, rest, hi, h⟩
  · exact unitTurn_keepsValid h
  · have hx : x ≠ .reset := by
      rintro rfl
      exact hreset rest hi
    exact (move_keepsValid hx h :)

/-! ### The data memory -/

/-- The unit is about to run a command (R31, R193). -/
def AboutToRun (s : State) : Prop := s.phase = .busy ∧ s.waiting = false

/-- A turn of a unit that is not about to run a command changes nothing. -/
theorem unitTurn_of_not_aboutToRun {s t : State} (h : unitTurn s = .next t) (hn : ¬AboutToRun s) : t = s := by
  rcases unitTurn_eq_next h with rfl | ⟨hb, hw, -⟩
  · rfl
  · exact absurd ⟨hb, hw⟩ hn

theorem unitStall_of_not_aboutToRun {k : Nat} {s t : State} (h : unitStall k s = .next t) (hn : ¬AboutToRun s) :
    t.mem = s.mem := by
  obtain ⟨u, hu, -, rfl⟩ := unitStall_cases h
  rw [unitTurn_of_not_aboutToRun hu hn]

/-- A reset that aborts no command leaves the memory (R180). -/
theorem resetNow_of_not_aboutToRun {s : State} (hn : ¬AboutToRun s) :
    (resetNow (unitTurn { s with inputs := [] }) s).mem = s.mem := by
  obtain ⟨t, ht⟩ := unitTurn_next { s with inputs := [] }
  obtain rfl := unitTurn_of_not_aboutToRun ht hn
  rw [ht]
  simp [resetNow, replayWrites]

/-- A byte that a write of one byte changes is that byte. -/
theorem eq_of_byteAt_setByte_ne {m : Memory} {a b : Nat} {v : Byte} (h : (m.setByte a v).byteAt b ≠ m.byteAt b) : a = b := by
  by_contra hne
  exact h (Memory.byteAt_setByte_ne m v fun hb => hne hb.symm)

theorem hostWrite_mem {off : Nat} {v : Word} {s t : State} (h : hostWrite off v s = .next t) : t.mem = s.mem := by
  rcases hostWrite_cases h with ⟨_, rfl⟩ | ⟨-, rfl⟩ | ⟨-, _, rfl⟩ <;> rfl

theorem hostRead_mem {off : Nat} {s t : State} (h : hostRead off s = .next t) : t.mem = s.mem := by
  obtain ⟨_, _, _, _, _, rfl⟩ := hostRead_cases h
  rfl

/-- A move that changes a byte is the unit's turn or a reset while a command is about to run, or the host's access of that
byte, a write or a race (R51, R63, R181). -/
theorem move_changes_byte {x : Input} {s t : State} {b : Nat} (h : move x s = .next t)
    (hb : t.mem.byteAt b ≠ s.mem.byteAt b) :
    (AboutToRun s ∧ (x = .unitTurn ∨ (∃ k, x = .unitStall k) ∨ x = .reset)) ∨ (∃ v, x = .memWrite b v) ∨
      (x = .memRead b ∧ spansHave s.fpWrites b = true) := by
  have hrun : (¬AboutToRun s → t.mem = s.mem) → AboutToRun s := fun hm => by
    by_contra hn
    exact hb (by rw [hm hn])
  cases x with
  | hostWrite off v => exact absurd (by rw [hostWrite_mem h]) hb
  | hostRead off => exact absurd (by rw [hostRead_mem h]) hb
  | hostOther off bits => cases h
  | memWrite a v =>
    obtain ⟨-, w, _, _, rfl⟩ := hostMemWrite_cases h
    obtain rfl := eq_of_byteAt_setByte_ne hb
    exact .inr (.inl ⟨v, rfl⟩)
  | memRead a =>
    obtain ⟨-, ⟨_, _, rfl⟩ | ⟨hw, w, _, _, _, rfl⟩⟩ := hostMemRead_cases h
    · exact absurd rfl hb
    · obtain rfl := eq_of_byteAt_setByte_ne hb
      exact .inr (.inr ⟨rfl, hw⟩)
  | unitTurn => exact .inl ⟨hrun fun hn => by rw [unitTurn_of_not_aboutToRun h hn], .inl rfl⟩
  | unitStall k => exact .inl ⟨hrun (unitStall_of_not_aboutToRun h), .inr (.inl ⟨k, rfl⟩)⟩
  | reset =>
    cases h
    exact .inl ⟨hrun resetNow_of_not_aboutToRun, .inr (.inr rfl)⟩

/-- Settles O60: a step is the unit's turn or a move, and a turn that changes memory runs a command. -/
theorem memoryChangesOnlyByItsWriters : Obligations.MemoryChangesOnlyByItsWriters := by
  intro s t b h hb
  rcases step_cases h with ⟨hi, h⟩ | ⟨x, rest, hi, h⟩
  · rcases unitTurn_eq_next h with rfl | ⟨hp, hw, -⟩
    · exact absurd rfl hb
    · exact .inl ⟨hp, hw, .inl hi⟩
  · rcases move_changes_byte h hb with ⟨⟨hp, hw⟩, rfl | ⟨k, rfl⟩ | rfl⟩ | ⟨v, rfl⟩ | ⟨rfl, hw⟩
    · exact .inl ⟨hp, hw, .inr ⟨0, rest, .inl hi⟩⟩
    · exact .inl ⟨hp, hw, .inr ⟨k, rest, .inr (.inl hi)⟩⟩
    · exact .inl ⟨hp, hw, .inr ⟨0, rest, .inr (.inr hi)⟩⟩
    · exact .inr (.inl ⟨v, rest, hi⟩)
    · exact .inr (.inr ⟨rest, hi, hw⟩)

end Sys2Proof.Machine
end

