-- ==== Sys2Proof/Proofs/Acceptance.lean ====
section
/-! PROOFS. The acceptance of a word, the footprint it opens, and the turn that runs the command. -/

namespace Sys2Proof.Machine

/-- A command's word decodes to the command (R71, R72). -/
theorem decode_encode (i : Instr) : decode (encode i) = .ok i := by cases i <;> rfl

/-! ### The turn runs the command -/

/-- The turn of a unit that is BUSY and does not wait runs the command in SEQ. -/
theorem unitTurn_eq_exec {s : State} {i : Instr} (hb : s.phase = .busy) (hw : s.waiting = false)
    (hd : decode s.seq.word = .ok i) : unitTurn s = exec i s := by
  simp [unitTurn, runAccepted, hb, hw, hd]

theorem step_of_no_move {s : State} (h : s.inputs = []) : step s = unitTurn s := by simp [step, h]

theorem step_of_move {s : State} {x : Input} {rest : List Input} (h : s.inputs = x :: rest) :
    step s = move x { s with inputs := rest } := by simp [step, h]

/-- Settles O4: both steps are the unit's turn. -/
theorem stepRunsTheDecodedCommand : Obligations.StepRunsTheDecodedCommand := by
  intro s i hb hd hw
  refine ⟨fun hi => ?_, fun rest hi => ?_⟩
  · rw [step_of_no_move hi, unitTurn_eq_exec hb hw hd]
  · rw [step_of_move hi, move, unitTurn_eq_exec (s := { s with inputs := rest }) hb hw hd]

/-- Settles O5: the acceptance leaves the unit BUSY with the command's word and no move pending. -/
theorem fetchWordRunsTheCommand : Obligations.FetchWordRunsTheCommand := by
  intro s i
  have hword : BitVec.ofNat 32 ((encode i).toNat % 2 ^ 32) = encode i := by
    rw [Nat.mod_eq_of_lt (encode i).isLt, BitVec.ofNat_toNat, BitVec.setWidth_eq]
  rw [State.withFetchWord, hword, step_of_no_move (by rfl)]
  exact unitTurn_eq_exec rfl rfl (decode_encode i)

/-! ### The footprint of an accepted word -/

/-- An illegal word decodes to no command (R73). -/
theorem decode_of_not_wf {w : Word} (h : (fieldsOf w).wf = false) : ∃ e, decode w = .error e := by
  unfold decode
  dsimp only
  split
  · exact ⟨_, rfl⟩
  · next hrsv =>
    have hop : (fieldsOf w).opMapped = false := by
      simpa [CmdWord.wf, CmdWord.rsvZero, not_not.mp hrsv] using h
    have hnone : instrOfOp (fieldsOf w).op = none := by
      simp only [CmdWord.opMapped, Bool.and_eq_false_iff, decide_eq_false_iff_not] at hop
      unfold instrOfOp
      split
      case h_8 => rfl
      all_goals omega
    rw [hnone]
    exact ⟨_, rfl⟩

theorem runningCommand_congr {s t : State} (h : ∀ i, commandCheck i t = commandCheck i s) (w : Word) :
    runningCommand w t = runningCommand w s := by
  unfold runningCommand
  simp only [h]

/-- An acceptance adds to the window what the command, its operands now in the snapshot, reads and writes (R58, R62). -/
theorem accept_footprint (w : Word) (s : State) :
    (accept w s).fpReads = s.fpReads ++ footprintReads w { s with snap := s.ops } ∧
      (accept w s).fpWrites = s.fpWrites ++ footprintWrites w { s with snap := s.ops } := by
  unfold accept footprintReads footprintWrites
  dsimp only
  rw [runningCommand_congr (s := { s with snap := s.ops }) (fun i => by cases i <;> rfl) w]
  cases runningCommand w { s with snap := s.ops } with
  | none => exact ⟨rfl, rfl⟩
  | some i => cases i <;> exact ⟨rfl, rfl⟩

theorem runningCommand_of_not_wf {w : Word} (h : (fieldsOf w).wf = false) (s : State) : runningCommand w s = none := by
  obtain ⟨e, he⟩ := decode_of_not_wf h
  simp [runningCommand, he]

theorem runningCommand_encode (i : Instr) (s : State) :
    runningCommand (encode i) s = if commandCheck i s = none then some i else none := by
  simp [runningCommand, decode_encode]

/-- A word that runs no command opens nothing. -/
theorem footprints_of_none {w : Word} {s : State} (h : runningCommand w s = none) :
    footprintReads w s = [] ∧ footprintWrites w s = [] := by
  simp [footprintReads, footprintWrites, h]

/-- A command that passes its validation opens its nominal spans. -/
theorem footprints_encode {i : Instr} {s : State} (h : commandCheck i s = none) :
    footprintReads (encode i) s = nominalReads (incbufRaced s) i s ∧
      footprintWrites (encode i) s = nominalWrites (incbufRaced s) i s := by
  simp [footprintReads, footprintWrites, runningCommand_encode, h]

/-- INCBUF's suffix ends where its buffer ends, and starts no earlier (R58). -/
theorem incbufSuffix_bounds (free : Nat → Bool) (s : State) :
    s.snap.naddr.toNat ≤ (incbufSuffix free s).base ∧
      (incbufSuffix free s).base + (incbufSuffix free s).len = s.snap.naddr.toNat + s.snap.nlen.toNat := by
  have hle := carryReach_le s.cfg s.mem free s.snap.naddr.toNat s.snap.nlen.toNat
  simp only [incbufSuffix]
  omega

/-- A CMD write to an IDLE unit is a launch (R37). -/
theorem hostWrite_cmd_idle {s : State} (w : Word) (h : s.phase = .idle) : hostWrite 0x00 w s = launch w s := by
  simp [hostWrite, offsetOk, show regAt 0 = some .cmd from rfl, isBusy, h]

/-- Settles O6: the step is the launch; the registers are the acceptance's, the window's gain is the footprint. -/
theorem cmdWriteIsAccepted : Obligations.CmdWriteIsAccepted := by
  intro s w rest hidle hi u o adds suffix
  have hstep : step s = launch w { s with inputs := rest } := by
    rw [step_of_move hi, move, hostWrite_cmd_idle w (s := { s with inputs := rest }) hidle]
  refine ⟨fun hm => by rw [hstep, launch, if_pos hm], fun hm => ?_⟩
  have hadds : ∀ rs ws, footprintReads w u = rs ∧ footprintWrites w u = ws →
      adds (accept w { s with inputs := rest }) rs ws := by
    rintro rs ws ⟨rfl, rfl⟩
    exact accept_footprint w { s with inputs := rest }
  have hseq := startSeq_legal w s.ops
  refine ⟨accept w { s with inputs := rest }, by rw [hstep, launch, if_neg (by simpa using hm)], rfl, rfl, rfl, rfl, rfl, rfl,
    rfl, rfl, rfl, ?_, ?_, rfl, rfl, rfl, rfl, rfl, rfl, ⟨rfl, rfl, rfl, rfl, rfl, rfl, rfl, rfl, rfl⟩, rfl, rfl, rfl, ?_,
    ?_, ?_⟩
  · rintro rfl
    exact ⟨rfl, rfl⟩
  · rintro rfl
    rfl
  · exact fun hw => hadds _ _ (footprints_of_none (runningCommand_of_not_wf hw u))
  · rintro i rfl hc
    exact hadds _ _ (footprints_of_none (by rw [runningCommand_encode, if_neg hc]))
  · rintro i rfl hc
    have hspans := hadds _ _ (footprints_encode hc)
    cases i with
    | incbuf => exact ⟨hspans, incbufSuffix_bounds (incbufRaced u) u⟩
    | _ => exact hspans

end Sys2Proof.Machine
end

