-- ==== Sys2Proof/Proofs/Status.lean ====
section
/-! PROOFS. STATUS bit by bit (R32), as it reads while IDLE and while BUSY (R43). -/

namespace Sys2Proof.Machine

/-! ### Fields in their places -/

theorem isBusy_of_idle {s : State} (h : s.phase = .idle) : isBusy s = false := by simp [isBusy, h]

theorem isBusy_of_busy {s : State} (h : s.phase = .busy) : isBusy s = true := by simp [isBusy, h]

/-- A one-bit field has its bit in its place and no other. -/
theorem getLsbD_bitAt {pos : Nat} (b : Bool) (h : pos < 32) (i : Nat) : (bitAt b pos).getLsbD i = (b && decide (i = pos)) := by
  cases b with
  | false => simp [bitAt]
  | true =>
    simp only [bitAt, if_true, BitVec.getLsbD_ofNat, Nat.testBit_two_pow, Bool.true_and]
    by_cases hi : i = pos
    · simp [hi, h]
    · simp [hi, Ne.symm hi]

/-- A field of n bits from bit p on holds its value's bits, and no bit outside them. -/
theorem getLsbD_field {v p n : Nat} (hv : v < 2 ^ n) (hp : p + n ≤ 32) (i : Nat) :
    (BitVec.ofNat 32 (v * 2 ^ p)).getLsbD i = (decide (p ≤ i ∧ i < p + n) && v.testBit (i - p)) := by
  rw [BitVec.getLsbD_ofNat, Nat.testBit_mul_two_pow]
  by_cases hi : p ≤ i ∧ i < p + n
  · simp [hi, show i < 32 by omega]
  · by_cases hpi : p ≤ i
    · have hbit : v.testBit (i - p) = false :=
        Nat.testBit_lt_two_pow (Nat.lt_of_lt_of_le hv (Nat.pow_le_pow_right (by omega) (by omega)))
      simp [hbit]
    · simp [hpi]

theorem errCode_lt (e : ErrCode) : errCode e < 2 ^ 4 := by cases e <;> decide

theorem subCode_lt (c : SubCause) : subCode c < 2 ^ 8 := by cases c <;> decide

theorem getLsbD_statusLow (s : State) (i : Nat) :
    (statusLow s).getLsbD i =
      (isBusy s && decide (i = 0) || s.done && decide (i = 1) || s.overrun && decide (i = 2)) := by
  simp [statusLow, getLsbD_bitAt]

theorem getLsbD_statusResult (s : State) (i : Nat) :
    (statusResult s).getLsbD i =
      (decide (4 ≤ i ∧ i < 8) && (errCode s.err).testBit (i - 4) ||
        decide (8 ≤ i ∧ i < 16) && (subCode s.sub).testBit (i - 8) ||
        keyValid s && decide (i = 16) || s.ctrValid && decide (i = 17) || s.ksValid && decide (i = 18)) := by
  simp only [statusResult, BitVec.getLsbD_or, getLsbD_bitAt _ (show 16 < 32 by decide),
    getLsbD_bitAt _ (show 17 < 32 by decide), getLsbD_bitAt _ (show 18 < 32 by decide),
    getLsbD_field (errCode_lt s.err) (show 4 + 4 ≤ 32 by decide),
    getLsbD_field (subCode_lt s.sub) (show 8 + 8 ≤ 32 by decide), Nat.reduceAdd]

theorem getLsbD_statusWord (s : State) (i : Nat) :
    (statusWord s).getLsbD i = ((statusLow s).getLsbD i || (statusResult s).getLsbD i) := BitVec.getLsbD_or

/-- Bits 3:0 hold nothing of the result fields. -/
theorem getLsbD_statusResult_of_lt (s : State) {i : Nat} (h : i < 4) : (statusResult s).getLsbD i = false := by
  rw [getLsbD_statusResult]
  simp
  omega

/-- Bits 31:3 hold nothing of BUSY, DONE and OVERRUN. -/
theorem getLsbD_statusLow_of_le (s : State) {i : Nat} (h : 3 ≤ i) : (statusLow s).getLsbD i = false := by
  rw [getLsbD_statusLow]
  simp
  omega

/-- Bits 31:19 are reserved. -/
theorem getLsbD_statusResult_of_le (s : State) {i : Nat} (h : 19 ≤ i) : (statusResult s).getLsbD i = false := by
  rw [getLsbD_statusResult]
  simp
  omega

theorem statusWord_err (s : State) : (statusWord s).extractLsb' 4 4 = BitVec.ofNat 4 (errCode s.err) := by
  refine BitVec.eq_of_getLsbD_eq fun i hi => ?_
  have hsub : ¬(8 ≤ 4 + i) := by omega
  have hvalid : 4 + i ≠ 16 ∧ 4 + i ≠ 17 ∧ 4 + i ≠ 18 := by omega
  rw [BitVec.getLsbD_extractLsb', getLsbD_statusWord, getLsbD_statusLow_of_le s (by omega), getLsbD_statusResult,
    BitVec.getLsbD_ofNat]
  simp [hi, hsub, hvalid, show 4 + i < 8 by omega]

theorem statusWord_sub (s : State) : (statusWord s).extractLsb' 8 8 = BitVec.ofNat 8 (subCode s.sub) := by
  refine BitVec.eq_of_getLsbD_eq fun i hi => ?_
  have herr : ¬(8 + i < 8) := by omega
  have hvalid : 8 + i ≠ 16 ∧ 8 + i ≠ 17 ∧ 8 + i ≠ 18 := by omega
  rw [BitVec.getLsbD_extractLsb', getLsbD_statusWord, getLsbD_statusLow_of_le s (by omega), getLsbD_statusResult,
    BitVec.getLsbD_ofNat]
  simp [hi, herr, hvalid, show 8 + i < 16 by omega]

theorem statusWord_reserved (s : State) : (statusWord s).extractLsb' 19 13 = 0 := by
  refine BitVec.eq_of_getLsbD_eq fun i hi => ?_
  rw [BitVec.getLsbD_extractLsb', getLsbD_statusWord, getLsbD_statusLow_of_le s (by omega),
    getLsbD_statusResult_of_le s (by omega)]
  simp

/-- Settles O42: every one-bit field by `getLsbD_statusWord`, ERR, SUB and the reserved bits as fields. -/
theorem statusFieldsInPlace : Obligations.StatusFieldsInPlace := by
  intro s
  have herr : ((statusWord s).extractLsb' 4 4).toNat = errCode s.err := by
    rw [statusWord_err, BitVec.toNat_ofNat, Nat.mod_eq_of_lt (errCode_lt s.err)]
  have hsub : ((statusWord s).extractLsb' 8 8).toNat = subCode s.sub := by
    rw [statusWord_sub, BitVec.toNat_ofNat, Nat.mod_eq_of_lt (subCode_lt s.sub)]
  refine ⟨?_, ?_, ?_, ?_, herr, hsub, ?_, ?_, ?_, statusWord_reserved s, rfl, rfl⟩
  all_goals
    rw [getLsbD_statusWord, getLsbD_statusLow, getLsbD_statusResult]
    simp [keyValid, bne, beq_eq_decide]

/-! ### STATUS while BUSY -/

/-- The mask of the fields that are unspecified while BUSY: bits 18:4 (R43). -/
theorem getLsbD_resultMask (i : Nat) : (0x7FFF0 : Word).getLsbD i = decide (4 ≤ i ∧ i < 19) := by
  by_cases hi : i < 32
  · exact (by decide : ∀ k : Fin 32, (0x7FFF0 : Word).getLsbD k = decide (4 ≤ k.val ∧ k.val < 19)) ⟨i, hi⟩
  · rw [BitVec.getLsbD_of_ge _ _ (by omega)]
    simp
    omega

theorem getLsbD_statusWhileBusy (s : State) (d : Word) (i : Nat) :
    (statusWhileBusy s d).getLsbD i = ((statusLow s).getLsbD i || d.getLsbD i && decide (4 ≤ i ∧ i < 19)) := by
  rw [statusWhileBusy, BitVec.getLsbD_or, BitVec.getLsbD_and, getLsbD_resultMask]

/-- Bits 3:0 are exact while BUSY (R43). -/
theorem statusWhileBusy_low (s : State) (d : Word) :
    (statusWhileBusy s d).extractLsb' 0 4 = (statusWord s).extractLsb' 0 4 := by
  refine BitVec.eq_of_getLsbD_eq fun i hi => ?_
  rw [BitVec.getLsbD_extractLsb', BitVec.getLsbD_extractLsb', getLsbD_statusWhileBusy, getLsbD_statusWord,
    getLsbD_statusResult_of_lt s (by omega)]
  simp [show ¬(4 ≤ i) by omega]

/-- Bits 31:19 are 0 while BUSY (R32, R43). -/
theorem statusWhileBusy_reserved (s : State) (d : Word) : (statusWhileBusy s d).extractLsb' 19 13 = 0 := by
  refine BitVec.eq_of_getLsbD_eq fun i hi => ?_
  rw [BitVec.getLsbD_extractLsb', getLsbD_statusWhileBusy, getLsbD_statusLow_of_le s (by omega)]
  simp

end Sys2Proof.Machine
end

