-- ==== Sys2Proof/Proofs/RegisterWindow.lean ====
section
/-! PROOFS. What a host write and a host read do, by the kind of the register (R22, R34, R41 to R43), and the packing of the
counter's words (R27). -/

namespace Sys2Proof.Machine

/-! ### Writes -/

theorem hostWrite_status (s : State) (v : Word) : hostWrite (regOffset .status) v s = .next (writeStatus v s) := rfl

theorem hostWrite_cmd_busy {s : State} (v : Word) (h : s.phase = .busy) :
    hostWrite (regOffset .cmd) v s = .next { s with overrun := true } := by
  rw [hostWrite, offsetOk_regOffset, regAt_regOffset, isBusy_of_busy h]
  rfl

theorem hostWrite_operand {r : Reg} (hr : isOperand r = true) (v : Word) (s : State) :
    hostWrite (regOffset r) v s =
      if isBusy s then .next { s with overrun := true } else .next { s with ops := setOperand r v s.ops } := by
  cases r with
  | src | dst | len | naddr | nlen | kaddr | klen => rfl
  | cmd | status | blkcnt | cerr | erraddr | ctr0 | ctr1 | ctr2 | ctr3 => cases hr

theorem hostWrite_result {r : Reg} (hr : isResult r = true) (v : Word) (s : State) :
    hostWrite (regOffset r) v s = .next s := by
  cases r with
  | blkcnt | cerr | erraddr | ctr0 | ctr1 | ctr2 | ctr3 => rfl
  | cmd | status | src | dst | len | naddr | nlen | kaddr | klen => cases hr

/-- Settles O43: bit 2 decides between OVERRUN 0 and the state as it is. -/
theorem statusWriteClearsOverrunAlone : Obligations.StatusWriteClearsOverrunAlone := by
  intro s v
  refine (hostWrite_status s v).trans ?_
  unfold writeStatus
  split
  · rfl
  · rfl

/-- Settles O44: the two kinds of register whose write a BUSY unit counts as an overrun. -/
theorem busyWritesSetOverrunAlone : Obligations.BusyWritesSetOverrunAlone := by
  rintro s r v hb (rfl | hr)
  · exact hostWrite_cmd_busy v hb
  · rw [hostWrite_operand hr, isBusy_of_busy hb, if_pos rfl]

/-- An operand register set reads back, and every other register reads as before. -/
theorem regValue_setOperand (r r' : Reg) (v : Word) (s : State) :
    regValue r' { s with ops := setOperand r v s.ops } = if r' = r ∧ isOperand r = true then v else regValue r' s := by
  cases r <;> cases r' <;> rfl

/-- Settles O45: the write sets the operand, and `regValue_setOperand` reads it. -/
theorem operandWritesTakeEffect : Obligations.OperandWritesTakeEffect := by
  intro s r v hidle hr
  refine ⟨{ s with ops := setOperand r v s.ops }, ?_, ?_, fun r' hne => ?_, rfl⟩
  · rw [hostWrite_operand hr, isBusy_of_idle hidle]
    rfl
  · rw [regValue_setOperand, if_pos ⟨rfl, hr⟩]
  · rw [regValue_setOperand, if_neg fun h => hne h.1]

/-! ### Unmapped offsets -/

theorem regOffset_lt (r : Reg) : regOffset r < 0x40 := by cases r <;> decide

/-- No register lies from 0x40 up (R22). -/
theorem regAt_unmapped {off : Nat} (h : 0x40 ≤ off) : regAt off = none := by
  refine List.find?_eq_none.mpr fun r _ => ?_
  have hr := regOffset_lt r
  simp only [beq_iff_eq]
  omega

/-- Settles O46: a read-only register by `hostWrite_result`, an unmapped offset by `regAt_unmapped`. -/
theorem readOnlyAndUnmappedOffsets : Obligations.ReadOnlyAndUnmappedOffsets := by
  intro s v
  refine ⟨fun r hr => hostWrite_result ?_ v s, fun off hlo hhi hal => ?_⟩
  · have hall : ∀ r ∈ [Reg.blkcnt, .cerr, .erraddr, .ctr0, .ctr1, .ctr2, .ctr3], isResult r = true := by decide
    exact hall r hr
  · have hok : offsetOk off = true := by
      simp only [offsetOk, Bool.and_eq_true, beq_iff_eq, decide_eq_true_eq]
      omega
    simp [hostWrite, hostRead, hok, regAt_unmapped hlo]

/-! ### Reads -/

theorem hostRead_status_idle {s : State} (h : s.phase = .idle) :
    hostRead (regOffset .status) s = .next { s.synced with hostData := statusWord s } := by
  rw [hostRead, offsetOk_regOffset, regAt_regOffset, isBusy_of_idle h]
  rfl

theorem hostRead_status_busy {s : State} (h : s.phase = .busy) :
    hostRead (regOffset .status) s =
      .next { s with hostData := statusWhileBusy s (Config.freeWord s.draws), draws := s.draws + 1 } := by
  rw [hostRead, offsetOk_regOffset, regAt_regOffset, isBusy_of_busy h]
  rfl

/-- A register other than STATUS reads exactly, but for a result register while BUSY, which reads as a free word (R43). -/
theorem hostRead_register {r : Reg} (hr : r ≠ .status) (s : State) :
    hostRead (regOffset r) s =
      if isBusy s && isResult r then .next { s with hostData := Config.freeWord s.draws, draws := s.draws + 1 }
      else .next { s with hostData := regValue r s } := by
  cases r with
  | status => exact absurd rfl hr
  | _ => rfl

/-- Settles O47: STATUS by its own read, every other register by `hostRead_register`. -/
theorem idleReadsAreExact : Obligations.IdleReadsAreExact := by
  intro s r hidle
  by_cases hr : r = .status
  · subst hr
    exact ⟨_, hostRead_status_idle hidle, rfl, fun h => absurd rfl h, fun _ => rfl⟩
  · refine ⟨{ s with hostData := regValue r s }, ?_, rfl, fun _ => rfl, fun h => absurd h hr⟩
    rw [hostRead_register hr, isBusy_of_idle hidle]
    rfl

/-- CMD and the operand registers are no result registers (R43). -/
theorem isResult_of_cmd_or_operand {r : Reg} (h : r = .cmd ∨ isOperand r = true) : isResult r = false := by
  cases r with
  | cmd | src | dst | len | naddr | nlen | kaddr | klen => rfl
  | status | blkcnt | cerr | erraddr | ctr0 | ctr1 | ctr2 | ctr3 => simp [isOperand] at h

/-- Settles O48: STATUS by its fields while BUSY, a result register by its free word, the others by their value. -/
theorem busyReadsAreExactWhereStated : Obligations.BusyReadsAreExactWhereStated := by
  intro s r hb
  by_cases hr : r = .status
  · subst hr
    refine ⟨_, hostRead_status_busy hb, rfl, ?_, fun _ => ⟨statusWhileBusy_low s _, statusWhileBusy_reserved s _⟩⟩
    rintro (h | h) <;> cases h
  · have hread := hostRead_register hr s
    rw [isBusy_of_busy hb, Bool.true_and] at hread
    cases hres : isResult r with
    | true =>
      rw [hres] at hread
      refine ⟨_, hread, rfl, fun h => ?_, fun h => absurd h hr⟩
      cases hres.symm.trans (isResult_of_cmd_or_operand h)
    | false =>
      rw [hres] at hread
      exact ⟨_, hread, rfl, fun _ => rfl, fun h => absurd h hr⟩

/-! ### The counter's words -/

/-- Four bytes of a sequence, named. -/
theorem take_four_drop {l : List Byte} {i : Nat} (h : i + 3 < l.length) :
    (l.drop i).take 4 = [l[i], l[i + 1], l[i + 2], l[i + 3]] := by
  rw [List.drop_eq_getElem_cons (by omega), List.drop_eq_getElem_cons (by omega), List.drop_eq_getElem_cons (by omega),
    List.drop_eq_getElem_cons (by omega)]
  rfl

/-- A word of the counter is the value of its four bytes: nothing is cut off (R27). -/
theorem counterWord_toNat (c : Block) (k : Nat) : (counterWord c k).toNat = valBe ((c.toList.drop (4 * k)).take 4) := by
  refine (BitVec.toNat_ofNat _ _).trans (Nat.mod_eq_of_lt ?_)
  calc valBe ((c.toList.drop (4 * k)).take 4) < 256 ^ ((c.toList.drop (4 * k)).take 4).length := valBe_lt _
    _ ≤ 256 ^ 4 := Nat.pow_le_pow_right (by decide) (List.length_take_le ..)

/-- The value of a sequence is that of its first n bytes and of the rest, each in its place (R8). -/
theorem valBe_take_drop (n : Nat) (l : List Byte) :
    valBe l = valBe (l.take n) * 256 ^ (l.length - n) + valBe (l.drop n) := by
  conv_lhs => rw [← List.take_append_drop n l, valBe_append, List.length_drop]

/-- Settles O49: each word is its four bytes; the 16 bytes are taken apart four at a time. -/
theorem counterWordsPackBigEndian : Obligations.CounterWordsPackBigEndian := by
  intro s
  refine ⟨fun k hk => ?_, ?_⟩
  · rw [counterWord_toNat, take_four_drop (by simp; omega)]
    simp only [valBe, Vector.getElem_toList, List.length_cons, List.length_nil]
    ring
  · simp only [regValue, counterWord_toNat]
    rw [valBe_take_drop 4 s.ctr.toList, valBe_take_drop 4 (s.ctr.toList.drop 4),
      valBe_take_drop 4 ((s.ctr.toList.drop 4).drop 4)]
    simp only [List.drop_drop, List.length_drop, Vector.length_toList]
    rw [List.take_of_length_le (l := s.ctr.toList.drop (4 * 3)) (by simp)]
    norm_num
    ring

end Sys2Proof.Machine
end

