-- ==== Sys2Proof/Proofs/HostAccesses.lean ====
section
/-! PROOFS. The host's own accesses: the register accesses that are refused (R54), and an access of one data byte, ordinary
outside the open window's footprint and a race on it (R51, R63). -/

namespace Sys2Proof.Machine

/-! ### Refused register accesses -/

theorem offsetOk_eq_false {off : Nat} (h : off % 4 ≠ 0 ∨ 0x100 ≤ off) : offsetOk off = false := by
  simp only [offsetOk, Bool.and_eq_false_iff, beq_eq_false_iff_ne, decide_eq_false_iff_not]
  omega

theorem hostWrite_refused {off : Nat} (h : offsetOk off = false) (v : Word) (s : State) :
    hostWrite off v s = .refused (.registerAccess off) := by simp [hostWrite, h]

theorem hostRead_refused {off : Nat} (h : offsetOk off = false) (s : State) :
    hostRead off s = .refused (.registerAccess off) := by simp [hostRead, h]

/-- Settles O50: the offset check fails, and an access of another width has no other meaning. -/
theorem otherRegisterAccessesAreRefused : Obligations.OtherRegisterAccessesAreRefused := by
  intro s off bits v
  refine ⟨fun hoff => ?_, rfl⟩
  have hbad := offsetOk_eq_false hoff
  exact ⟨hostWrite_refused hbad v s, hostRead_refused hbad s⟩

/-! ### One data byte, case by case -/

/-- A byte that no command of the window reads or writes takes the host's value (R51). -/
theorem hostMemWrite_ordinary {a : Nat} {s : State} (ha : a < addrTop s.cfg) (hr : spansHave s.fpReads a = false)
    (hw : spansHave s.fpWrites a = false) (v : Byte) :
    hostMemWrite a v s = .next { s with mem := s.mem.setByte a v } := by simp [hostMemWrite, ha, hr, hw]

/-- A footprint byte takes the next free value, whatever the host writes (R63). -/
theorem hostMemWrite_racing {a : Nat} {s : State} (ha : a < addrTop s.cfg)
    (hf : spansHave s.fpReads a = true ∨ spansHave s.fpWrites a = true) (v : Byte) :
    hostMemWrite a v s =
      .next { s.touch a with mem := s.mem.setByte a (Config.freeByte s.draws), draws := s.draws + 1 } := by
  simp [hostMemWrite, ha, hf]

/-- A byte that no command writes, and on which there is no race if one reads it, gives the host its value (R51). -/
theorem hostMemRead_ordinary {a : Nat} {s : State} (ha : a < addrTop s.cfg) (hw : spansHave s.fpWrites a = false)
    (h : spansHave s.fpReads a = false ∨ racedFrom (aheadNow s) s a = false) :
    hostMemRead a s = .next { s with hostData := (s.mem.byteAt a).setWidth 32 } := by
  have hrace : (spansHave s.fpReads a && racedFrom (aheadNow s) s a) = false := Bool.and_eq_false_iff.mpr h
  simp [hostMemRead, ha, hw, hrace]

/-- A byte that a command writes gives the host one free value and takes another (R63). -/
theorem hostMemRead_written {a : Nat} {s : State} (ha : a < addrTop s.cfg) (hw : spansHave s.fpWrites a = true) :
    hostMemRead a s =
      .next
        { s.touch a with
          hostData := (Config.freeByte s.draws).setWidth 32
          mem := s.mem.setByte a (Config.freeByte (s.draws + 1))
          draws := s.draws + 2 } := by
  simp [hostMemRead, ha, hw]

/-- A byte that the commands only read and the host writes in the window gives the host a free value (R63). -/
theorem hostMemRead_raced {a : Nat} {s : State} (ha : a < addrTop s.cfg) (hr : spansHave s.fpReads a = true)
    (hw : spansHave s.fpWrites a = false) (h : racedFrom (aheadNow s) s a = true) :
    hostMemRead a s = .next { s with hostData := (Config.freeByte s.draws).setWidth 32, draws := s.draws + 1 } := by
  simp [hostMemRead, ha, hr, hw, h]

/-- A byte the host has touched in the window is raced for every command of the window (R63). -/
theorem raced_of_mem_touched {s : State} {a : Nat} (h : a ∈ s.touched) : raced s a = true := by
  simp [raced, racedFrom, h]

/-! ### Ordinary and racing accesses -/

/-- Settles O51: each access takes its ordinary branch, and a write of one byte reads back and leaves the others. -/
theorem hostMemoryAccessesOutsideTheFootprint : Obligations.HostMemoryAccessesOutsideTheFootprint := by
  intro s a v ha hm hw
  refine ⟨hostMemRead_ordinary ha hw, fun hr => ⟨_, hostMemWrite_ordinary ha hr hw v, ?_, fun b hb => ?_, rfl⟩⟩
  · exact Memory.byteAt_setByte_eq hm a v
  · exact Memory.byteAt_setByte_ne s.mem v hb

/-- Settles O52: each access takes its racing branch; the byte it sets takes the free value, and is now touched. -/
theorem racingHostAccessesAreFree : Obligations.RacingHostAccessesAreFree := by
  intro s a v ha hm
  have hset : ∀ w, (s.mem.setByte a w).byteAt a = w ∧ ∀ b, b ≠ a → (s.mem.setByte a w).byteAt b = s.mem.byteAt b :=
    fun w => ⟨Memory.byteAt_setByte_eq hm a w, fun b hb => Memory.byteAt_setByte_ne s.mem w hb⟩
  have htouched : a ∈ (s.touch a).touched := List.mem_cons_self
  refine ⟨fun hf => ?write, fun hw => ?readWritten, hostMemRead_raced ha⟩
  case write =>
    obtain ⟨hat, hne⟩ := hset (Config.freeByte s.draws)
    exact ⟨_, hostMemWrite_racing ha hf v, hat, hne, raced_of_mem_touched htouched, rfl⟩
  case readWritten =>
    obtain ⟨hat, hne⟩ := hset (Config.freeByte (s.draws + 1))
    exact ⟨_, hostMemRead_written ha hw, rfl, hat, hne, raced_of_mem_touched htouched, rfl⟩

end Sys2Proof.Machine
end

