-- ==== Sys2Proof/Proofs/CommandsUnderRaces.lean ====
section
/-! PROOFS. What a command stores, and what it reads and loads, whatever the host races on (R58, R63): only the raced bytes
are free. -/

namespace Sys2Proof.Machine

/-! ### Stores stay in the destination -/

theorem spanHas_eq_false {p : Span} {a : Nat} : spanHas p a = false ↔ a < p.base ∨ p.base + p.len ≤ a := by
  simp only [spanHas, Bool.and_eq_false_iff, decide_eq_false_iff_not]
  omega

/-- The completion record, and waiting, leave the memory where the run left it. -/
@[simp] theorem finish_mem (r : Run Unit) : (finish r).mem = r.state.mem := by
  obtain ⟨_, _, _, _, _, _, _, _, _, h⟩ := finish_frame r
  rw [h]

/-- A command's run leaves every byte it may not store to, however it ends (R58). -/
theorem runOf_mem_of_not_mayStoreTo {i : Instr} {s : State} {a : Nat} (h : mayStoreTo i s a = false) :
    (runOf i s).state.mem.byteAt a = s.mem.byteAt a := by
  cases i with
  | ldkey => obtain ⟨_, _, _, _, _, _, hr⟩ := runLdkey_state s; rw [runOf, hr]
  | ldnonce => obtain ⟨_, _, _, _, _, _, hr⟩ := runLdnonce_state s; rw [runOf, hr]
  | incctr => obtain ⟨_, hr⟩ := runIncctr_state s; rw [runOf, hr]
  | genks => obtain ⟨_, _, _, _, hr⟩ := runGenks_state Config.cipherPort s; rw [runOf, hr]
  | xorks => exact runXorks_mem_ne s (spanHas_eq_false.mp h)
  | xform => exact runXform_mem_ne Config.cipherPort s (spanHas_eq_false.mp h)
  | incbuf => exact runIncbuf_mem_suffix s h

/-- Settles O12: the run leaves the byte, and so does the run's end. -/
theorem commandsStoreOnlyToTheirDestination : Obligations.CommandsStoreOnlyToTheirDestination := by
  intro i s t a h hstore
  rw [exec_eq_next h, finish_mem]
  exact runOf_mem_of_not_mayStoreTo hstore

/-! ### Bytes that agree where nothing is free -/

/-- Two byte sequences for the addresses from `a` on, of one length, that agree at every address `free` does not hold of. -/
structure AgreeUnlessFree (free : Nat → Bool) (a : Nat) (bs cs : List Byte) : Prop where
  length_eq : bs.length = cs.length
  getElem_eq : ∀ i (hb : i < bs.length) (hc : i < cs.length), free (a + i) = false → bs[i] = cs[i]

theorem AgreeUnlessFree.nil (free : Nat → Bool) (a : Nat) : AgreeUnlessFree free a [] [] := ⟨rfl, by simp⟩

theorem AgreeUnlessFree.cons {free : Nat → Bool} {a : Nat} {b c : Byte} {bs cs : List Byte}
    (hhead : free a = false → b = c) (htail : AgreeUnlessFree free (a + 1) bs cs) :
    AgreeUnlessFree free a (b :: bs) (c :: cs) := by
  refine ⟨by simp [htail.length_eq], fun i hb hc hi => ?_⟩
  cases i with
  | zero => exact hhead hi
  | succ i =>
    simp only [List.length_cons, Nat.add_lt_add_iff_right] at hb hc
    exact htail.getElem_eq i hb hc (by rwa [show a + 1 + i = a + (i + 1) by omega])

/-! ### The memory port under races -/

/-- A read that is admitted and answered goes on, with the byte unless it is raced (R63). -/
theorem unitRead_goesOn {a n : Nat} {s : State} (hm : answered s (n + 1)) (ha : admits s.cfg a = true) :
    ∃ v d, unitRead a s = .ok v { s with trace := s.trace ++ [.read a v], draws := d } ∧
      (raced s a = false → v = s.mem.byteAt a) := by
  cases hr : raced s a with
  | true => exact ⟨_, _, unitRead_raced hm ha hr, by simp⟩
  | false => exact ⟨_, s.draws, unitRead_ok hm ha hr, fun _ => rfl⟩

/-- A raced byte takes the next free byte, whatever is written (R63). -/
theorem unitWrite_raced {a n : Nat} {s : State} (v : Byte) (hm : answered s (n + 1)) (ha : admits s.cfg a = true)
    (hr : raced s a = true) :
    unitWrite a v s =
      .ok ()
        { s with
          mem := s.mem.setByte a (Config.freeByte s.draws)
          trace := s.trace ++ [.write a (Config.freeByte s.draws)]
          draws := s.draws + 1 } := by
  simp [unitWrite, ha, hr, answersNext_of_answered hm]

/-- A write that is admitted and answered goes on, and stores its value unless the byte is raced (R63). -/
theorem unitWrite_goesOn {a n : Nat} {s : State} (v : Byte) (hm : answered s (n + 1)) (ha : admits s.cfg a = true) :
    ∃ w d, unitWrite a v s =
        .ok () { s with mem := s.mem.setByte a w, trace := s.trace ++ [.write a w], draws := d } ∧
      (raced s a = false → w = v) := by
  cases hr : raced s a with
  | true => exact ⟨_, _, unitWrite_raced v hm ha hr, by simp⟩
  | false => exact ⟨v, s.draws, unitWrite_ok v hm ha hr, fun _ => rfl⟩

/-- A range that is admitted and answered is read in full, each byte but the raced ones as it is (R63). -/
theorem readBytes_goesOn {a n : Nat} {s : State} (ha : admitsRange s.cfg a n) (hm : answered s n) :
    ∃ bs tr d, readBytes a n s = .ok bs { s with trace := tr, draws := d } ∧ tr.length = s.trace.length + n ∧
      AgreeUnlessFree (raced s) a bs (s.mem.bytes a n) := by
  induction n generalizing a s with
  | zero => exact ⟨[], s.trace, s.draws, rfl, rfl, .nil _ a⟩
  | succ n ih =>
    obtain ⟨v, d, hread, hv⟩ := unitRead_goesOn hm (by simpa using ha 0 (by omega))
    obtain ⟨bs, tr, d', hrest, hlen, hbs⟩ := ih (s := { s with trace := s.trace ++ [.read a v], draws := d })
      (admitsRange_tail ha) (answered_of hm rfl (by simp; omega))
    refine ⟨v :: bs, tr, d', ?_, by rw [hlen]; simp; omega, .cons hv hbs⟩
    rw [readBytes, hread, Run.bind_ok, hrest, Run.bind_ok]

/-- A range that is admitted and answered is written in full, each byte but the raced ones as given (R63). -/
theorem writeBytes_goesOn {a : Nat} {bs : List Byte} {s : State} (ha : admitsRange s.cfg a bs.length)
    (hm : answered s bs.length) :
    ∃ ws tr d, writeBytes a bs s = .ok () { s with mem := s.mem.setBytes a ws, trace := tr, draws := d } ∧
      AgreeUnlessFree (raced s) a ws bs := by
  induction bs generalizing a s with
  | nil => exact ⟨[], s.trace, s.draws, rfl, .nil _ a⟩
  | cons b bs ih =>
    obtain ⟨w, d, hwrite, hw⟩ := unitWrite_goesOn b hm (by simpa using ha 0 (by simp))
    obtain ⟨ws, tr, d', hrest, hws⟩ :=
      ih (s := { s with mem := s.mem.setByte a w, trace := s.trace ++ [.write a w], draws := d })
        (admitsRange_tail ha) (answered_of hm rfl (by simp; omega))
    refine ⟨w :: ws, tr, d', ?_, .cons hw hws⟩
    rw [writeBytes, hwrite, Run.bind_ok, hrest, Memory.setBytes]

/-! ### Loads into a padded register -/

theorem padTo_getElem {n i : Nat} (bs : List Byte) (hn : i < n) (hb : i < bs.length) : (padTo n bs)[i] = bs[i] := by
  rw [← Vector.getElem_toList (by simpa using hn)]
  simp [List.getElem_append_left hb]

theorem padTo_getElem_zero {n i : Nat} (bs : List Byte) (hn : i < n) (hb : bs.length ≤ i) : (padTo n bs)[i] = 0 := by
  rw [← Vector.getElem_toList (by simpa using hn)]
  simp [List.getElem_append_right hb]

/-- A register loaded with the n bytes at `a` is exact at every byte not free, and zero from byte n on. -/
theorem AgreeUnlessFree.padTo_exact {free : Nat → Bool} {a n w : Nat} {m : Memory} {bs : List Byte}
    (h : AgreeUnlessFree free a bs (m.bytes a n)) :
    (∀ i, (hi : i < w) → i < n → free (a + i) = false → (padTo w bs)[i] = m.byteAt (a + i)) ∧
      ∀ i, (hi : i < w) → n ≤ i → (padTo w bs)[i] = 0 := by
  have hlen : bs.length = n := by simpa using h.length_eq
  refine ⟨fun i hi hin hfree => ?_, fun i hi hin => padTo_getElem_zero bs hi (by omega)⟩
  rw [padTo_getElem bs hi (by omega), h.getElem_eq i (by omega) (by simpa using hin) hfree, Memory.bytes_getElem]

theorem loadNonce_goesOn {s : State} (ha : admitsRange s.cfg s.snap.naddr.toNat s.snap.nlen.toNat)
    (hm : answered s s.snap.nlen.toNat) :
    ∃ bs tr d,
      loadNonce s =
          .ok ()
            { s with
              ctr := initCounter bs, ctrValid := true, ks := zeroBlock, ksValid := false, trace := tr, draws := d } ∧
        AgreeUnlessFree (raced s) s.snap.naddr.toNat bs (nonceBytes s) := by
  obtain ⟨bs, tr, d, hread, -, hbs⟩ := readBytes_goesOn ha hm
  exact ⟨bs, tr, d, by rw [loadNonce, hread, Run.bind_ok], hbs⟩

theorem loadKey_goesOn {s : State} (ha : admitsRange s.cfg s.snap.kaddr.toNat s.snap.klen.toNat)
    (hm : answered s s.snap.klen.toNat) :
    ∃ bs tr d,
      loadKey s =
          .ok ()
            { s with
              key := padTo 32 bs, keyLen := s.snap.klen.toNat, ks := zeroBlock, ksValid := false, trace := tr
              draws := d } ∧
        AgreeUnlessFree (raced s) s.snap.kaddr.toNat bs (keyBytes s) := by
  obtain ⟨bs, tr, d, hread, -, hbs⟩ := readBytes_goesOn ha hm
  exact ⟨bs, tr, d, by rw [loadKey, hread, Run.bind_ok], hbs⟩

/-! ### The XOR of a block -/

/-- The XOR of a block, admitted and answered, goes on and stores one byte per destination address; each is exact unless its
source or its destination byte is raced (R63, R128). -/
theorem xorBlock_goesOn {a d q : Nat} {s : State} (h16 : q ≤ 16) (ha : admitsRange s.cfg a q)
    (hd : admitsRange s.cfg d q) (hm : answered s (2 * q)) :
    ∃ ws tr dr, xorBlock a d q s = .ok () { s with mem := s.mem.setBytes d ws, trace := tr, draws := dr } ∧
      ws.length = q ∧
        ∀ i, (h : i < 16) → (hw : i < ws.length) → raced s (a + i) = false → raced s (d + i) = false →
          ws[i] = s.mem.byteAt (a + i) ^^^ s.ks[i] := by
  obtain ⟨x, tr, dr, hread, htr, hx⟩ := readBytes_goesOn ha (answered_of hm rfl (by omega))
  have hxlen : x.length = q := by simpa using hx.length_eq
  have hout : (xorBytes x s.ks.toList).length = q := by simp [hxlen, h16]
  obtain ⟨ws, tr', dr', hwrite, hws⟩ :=
    writeBytes_goesOn (a := d) (bs := xorBytes x s.ks.toList) (s := { s with trace := tr, draws := dr })
      (by rwa [hout]) (answered_of hm rfl (by simp only [hout, htr]; omega))
  refine ⟨ws, tr', dr', by rw [xorBlock, hread, Run.bind_ok, hwrite], hws.length_eq.trans hout, ?_⟩
  intro i h hw hsrc hdst
  have hq : i < q := by rw [← hout, ← hws.length_eq]; exact hw
  calc ws[i] = (xorBytes x s.ks.toList)[i] := hws.getElem_eq i hw (by omega) hdst
    _ = x[i] ^^^ s.ks[i] := by rw [xorBytes_getElem, Vector.getElem_toList]
    _ = s.mem.byteAt (a + i) ^^^ s.ks[i] := by
      rw [hx.getElem_eq i (by omega) (by simpa using hq) hsrc, Memory.bytes_getElem]

/-! ### Commands that go on -/

/-- A command whose validation passes and whose body goes on completes without error (R155). -/
theorem exec_completed {i : Instr} {s t : State} (hc : commandCheck i s = none) (h : bodyOf i s = .ok () t) :
    exec i s = .next t.completed := by
  rcases runOf_cases i s with ⟨c, hsome, -⟩ | ⟨-, hrun⟩
  · rw [hc] at hsome
    cases hsome
  · rw [exec_runOf, hrun, h, finish_ok]

/-- XORKS whose validation passes XORs at most one block (R127). -/
theorem len_le_of_xorksCheck {s : State} (h : commandCheck .xorks s = none) : s.snap.len.toNat ≤ 16 := by
  have hlen := firstFailing_eq_none h (decide (s.snap.len.toNat < 1) || decide (16 < s.snap.len.toNat), .badXorLen)
    (by simp)
  simp only [Bool.or_eq_false_iff, decide_eq_false_iff_not] at hlen
  omega

/-- Settles O32: each command's accesses go on, and what they read or store is exact where nothing is raced. -/
theorem racedBytesAloneAreFree : Obligations.RacedBytesAloneAreFree := by
  intro s
  refine ⟨fun hc ha hm => ?ldnonce, fun hc ha hm => ?ldkey, fun hc hsrc hdst hwf hm => ?xorks⟩
  case ldnonce =>
    obtain ⟨bs, tr, d, hload, hbs⟩ := loadNonce_goesOn ha hm
    exact ⟨_, exec_completed hc hload, rfl, rfl, rfl, rfl, hbs.padTo_exact⟩
  case ldkey =>
    obtain ⟨bs, tr, d, hload, hbs⟩ := loadKey_goesOn ha hm
    exact ⟨_, exec_completed hc hload, rfl, rfl, rfl, rfl, hbs.padTo_exact⟩
  case xorks =>
    obtain ⟨ws, tr, d, hxor, hlen, hws⟩ := xorBlock_goesOn (len_le_of_xorksCheck hc) hsrc hdst hm
    refine ⟨_, exec_completed hc hxor, rfl, rfl, rfl, fun i h hi h1 h2 => ?_, fun b hb => ?_⟩
    · exact (Memory.byteAt_setBytes hwf _ ws (by omega)).trans (hws i h (by omega) h1 h2)
    · exact Memory.byteAt_setBytes_ne s.mem ws (by rwa [hlen])

end Sys2Proof.Machine
end

