-- ==== Sys2Proof/Proofs/Encoding.lean ====
section
/-! PROOFS. A word is its two fields, the decoder is the inverse of the encoder (R70 to R75), and an illegal word takes two
steps (R73, R154). -/

namespace Sys2Proof.Machine

/-! ### A word is its fields (R70) -/

theorem wordOf_fieldsOf (w : Word) : wordOf (fieldsOf w) = w :=
  (BitVec.extractLsb'_append_extractLsb'_eq_extractLsb' rfl).trans BitVec.extractLsb'_eq_self

theorem fieldsOf_wordOf (c : CmdWord) : fieldsOf (wordOf c) = c := by
  obtain ⟨rsv, op⟩ := c
  have hrsv : (rsv ++ op).extractLsb' 8 24 = rsv := BitVec.extractLsb'_append_eq_left
  have hop : (rsv ++ op).extractLsb' 0 8 = op := BitVec.extractLsb'_append_eq_right
  simp [fieldsOf, wordOf, hrsv, hop]

theorem fieldsOf_eq_iff {w : Word} {c : CmdWord} : fieldsOf w = c ↔ w = wordOf c :=
  ⟨fun h => h ▸ (wordOf_fieldsOf w).symm, fun h => h ▸ fieldsOf_wordOf c⟩

/-! ### The opcode map (R71) -/

theorem instrOfOp_eq_some_iff {op : Byte} {i : Instr} : instrOfOp op = some i ↔ op = i.opcode := by
  refine ⟨fun h => ?_, fun h => by subst h; cases i <;> rfl⟩
  unfold instrOfOp at h
  split at h
  case h_8 => cases h
  all_goals
    next hop =>
      cases h
      exact BitVec.eq_of_toNat_eq hop

theorem instrOfOp_ne_none_of_opMapped {c : CmdWord} (h : c.opMapped = true) : instrOfOp c.op ≠ none := by
  obtain ⟨hlo, hhi⟩ : 1 ≤ c.op.toNat ∧ c.op.toNat ≤ 7 := by simpa [CmdWord.opMapped] using h
  unfold instrOfOp
  interval_cases c.op.toNat <;> exact Option.some_ne_none _

/-- A word's fields are well formed exactly when they are some command's (R71, R73). -/
theorem cmdWord_wf_iff {c : CmdWord} : c.wf = true ↔ ∃ i : Instr, c = ⟨0, i.opcode⟩ := by
  constructor
  · intro h
    obtain ⟨hrsv, hop⟩ : c.rsv = 0 ∧ c.opMapped = true := by simpa [CmdWord.wf, CmdWord.rsvZero] using h
    obtain ⟨i, hi⟩ := Option.ne_none_iff_exists'.mp (instrOfOp_ne_none_of_opMapped hop)
    exact ⟨i, by rw [← hrsv, ← instrOfOp_eq_some_iff.mp hi]⟩
  · rintro ⟨i, rfl⟩
    cases i <;> rfl

/-! ### The decoder, by its fields (R72) -/

theorem decode_of_rsv_ne_zero {w : Word} (h : (fieldsOf w).rsv ≠ 0) :
    decode w = .error (.reservedBits (fieldsOf w).rsv) := if_pos h

theorem decode_of_op_unmapped {w : Word} (hrsv : (fieldsOf w).rsv = 0) (hop : instrOfOp (fieldsOf w).op = none) :
    decode w = .error (.unmappedOp (fieldsOf w).op) := by
  simp [decode, hrsv, hop]

/-- A word that decodes to a command has the command's fields. -/
theorem fieldsOf_of_decode {w : Word} {i : Instr} (h : decode w = .ok i) : fieldsOf w = ⟨0, i.opcode⟩ := by
  have hwf : (fieldsOf w).wf = true := by
    by_contra hne
    obtain ⟨e, he⟩ := decode_of_not_wf (Bool.eq_false_iff.mpr hne)
    cases he.symm.trans h
  obtain ⟨j, hj⟩ := cmdWord_wf_iff.mp hwf
  rw [fieldsOf_eq_iff.mp hj] at h
  cases (decode_encode j).symm.trans h
  exact hj

/-- The decoder is the encoder's inverse (R75). -/
theorem decode_eq_ok_iff {w : Word} {i : Instr} : decode w = .ok i ↔ w = encode i :=
  ⟨fun h => fieldsOf_eq_iff.mp (fieldsOf_of_decode h), fun h => h ▸ decode_encode i⟩

/-- The decoder rejects exactly the words of R73. -/
theorem exists_decode_eq_error_iff {w : Word} : (∃ e, decode w = .error e) ↔ (fieldsOf w).wf = false := by
  refine ⟨?_, decode_of_not_wf⟩
  rintro ⟨e, he⟩
  by_contra hwf
  obtain ⟨i, hi⟩ := cmdWord_wf_iff.mp (Bool.eq_true_of_not_eq_false hwf)
  cases he.symm.trans (decode_eq_ok_iff.mpr (fieldsOf_eq_iff.mp hi))

/-- Settles O3: the decoder is the encoder's inverse, and rejects what is not well formed. -/
theorem everyWordIsOneCommandOrIllegal : Obligations.EveryWordIsOneCommandOrIllegal :=
  fun _ => ⟨fun _ => decode_eq_ok_iff, exists_decode_eq_error_iff⟩

/-- Settles O2: a command's word has the command's fields, and decodes to it. -/
theorem encodedCommandDecodesBack : Obligations.EncodedCommandDecodesBack :=
  fun i _ => ⟨decode_encode i, fieldsOf_wordOf _⟩

/-- Settles O1: seven words are the commands', three have an unmapped OP, and two have reserved bits. -/
theorem opcodeMapWordsDecode : Obligations.OpcodeMapWordsDecode :=
  ⟨decode_encode .ldkey, decode_encode .ldnonce, decode_encode .incctr, decode_encode .genks, decode_encode .xorks,
    decode_encode .xform, decode_encode .incbuf, decode_of_op_unmapped rfl rfl, decode_of_op_unmapped rfl rfl,
    decode_of_op_unmapped rfl rfl, decode_of_rsv_ne_zero (by decide), decode_of_rsv_ne_zero (by decide)⟩

/-! ### The two steps of an illegal word -/

/-- A word that runs no command meets no device region, for it has no footprint (R58, R59). -/
theorem meetsDevice_of_not_wf {w : Word} (h : (fieldsOf w).wf = false) (s : State) : meetsDevice w s = false := by
  obtain ⟨hr, hw⟩ := footprints_of_none (runningCommand_of_not_wf h s)
  simp [meetsDevice, hr, hw]

/-- An illegal word is accepted like any other (R37). -/
theorem step_accepts_illegal_word {s : State} {w : Word} {rest : List Input} (h : (fieldsOf w).wf = false)
    (hidle : s.phase = .idle) (hi : s.inputs = .hostWrite 0x00 w :: rest) :
    step s = .next (accept w { s with inputs := rest }) := by
  rw [step_of_move hi, move, hostWrite_cmd_idle w (s := { s with inputs := rest }) hidle, launch,
    meetsDevice_of_not_wf h]
  rfl

/-- The turn of a unit that is BUSY with an illegal word completes with IllegalCommand (R154). -/
theorem unitTurn_of_not_wf {s : State} (hb : s.phase = .busy) (hw : s.waiting = false)
    (h : (fieldsOf s.seq.word).wf = false) : unitTurn s = .next (illegalCommand s) := by
  obtain ⟨e, he⟩ := decode_of_not_wf h
  simp [unitTurn, runAccepted, hb, hw, he]

/-- Settles O7: the write is the acceptance, and the turn after it raises IllegalCommand. -/
theorem illegalWordCompletesWithIllegalCommand : Obligations.IllegalWordCompletesWithIllegalCommand := by
  intro s w hw hidle hi
  have hturn : step (launched w s) = .next (illegalCommand (launched w s)) :=
    (step_of_no_move rfl).trans (unitTurn_of_not_wf (s := launched w s) rfl rfl hw)
  exact ⟨launched w s, illegalCommand (launched w s), step_accepts_illegal_word hw hidle hi, rfl, hturn, rfl, rfl, rfl, rfl,
    rfl, rfl, rfl, rfl, rfl, ⟨rfl, rfl, rfl, rfl, rfl, rfl, rfl, rfl, rfl⟩⟩

end Sys2Proof.Machine
end

