-- ==== Sys2Proof/Proofs/Increment.lean ====
section
/-! PROOFS. What the increment does to the last byte, and to the big-endian value (R100 to R102, R110). -/

namespace Sys2Proof.Machine

/-! ### The byte that wraps -/

theorem byte_add_one_eq_zero_iff {b : Byte} : b + 1 = 0 ↔ b = 0xff := add_eq_zero_iff_eq_neg

theorem byte_add_one_toNat {b : Byte} (h : b + 1 ≠ 0) : (b + 1).toNat = b.toNat + 1 := by bv_omega

/-! ### IncBytes, byte by byte from the last -/

theorem incBytes_append_singleton (bs : List Byte) (b : Byte) :
    incBytes (bs ++ [b]) = if b + 1 = 0 then incBytes bs ++ [0] else bs ++ [b + 1] := by
  simp only [incBytes, List.reverse_append, List.reverse_singleton, List.singleton_append, incFromLow]
  split <;> simp

theorem trailingFF_append_singleton (bs : List Byte) (b : Byte) :
    trailingFF (bs ++ [b]) = if b + 1 = 0 then trailingFF bs + 1 else 0 := by
  simp only [trailingFF, List.reverse_append, List.reverse_singleton, List.singleton_append, List.takeWhile_cons,
    beq_iff_eq, byte_add_one_eq_zero_iff]
  split <;> simp

/-- How many bytes an increment reaches: the trailing 0xFF bytes and, where there is one, the byte before them (R110). -/
def reachedBytes (bs : List Byte) : Nat := if trailingFF bs < bs.length then trailingFF bs + 1 else bs.length

theorem reachedBytes_append_singleton (bs : List Byte) (b : Byte) :
    reachedBytes (bs ++ [b]) = if b + 1 = 0 then reachedBytes bs + 1 else 1 := by
  simp only [reachedBytes, trailingFF_append_singleton, List.length_append, List.length_singleton]
  split_ifs <;> omega

theorem reachedBytes_le (bs : List Byte) : reachedBytes bs ≤ bs.length := by
  unfold reachedBytes
  split <;> omega

theorem reachedBytes_le_trailingFF_add_one (bs : List Byte) : reachedBytes bs ≤ trailingFF bs + 1 := by
  unfold reachedBytes
  split <;> omega

/-! ### The big-endian value -/

theorem valBe_append_singleton (bs : List Byte) (b : Byte) : valBe (bs ++ [b]) = valBe bs * 256 + b.toNat := by
  simp [valBe_append, valBe]

theorem valBe_replicate_zero (n : Nat) : valBe (List.replicate n 0) = 0 := by
  induction n with
  | zero => rfl
  | succ n ih => rw [List.replicate_succ, valBe, ih]; exact Nat.zero_mul _

/-- Byte sequences of one length and one value are equal (R8). -/
theorem eq_of_valBe_eq {bs cs : List Byte} (hlen : bs.length = cs.length) (h : valBe bs = valBe cs) : bs = cs := by
  rw [← beBytes_valBe bs, ← beBytes_valBe cs, hlen, h]

/-- The increment adds one and wraps silently, on any length (R101). -/
theorem valBe_incBytes (bs : List Byte) : valBe (incBytes bs) = (valBe bs + 1) % 256 ^ bs.length := by
  induction bs using List.reverseRecOn with
  | nil => rfl
  | append_singleton bs b ih =>
    rw [incBytes_append_singleton, List.length_append, List.length_singleton, pow_succ]
    split
    · next hwrap =>
      have hb : b.toNat = 255 := by rw [byte_add_one_eq_zero_iff.mp hwrap]; rfl
      have hcarry : valBe bs * 256 + 255 + 1 = (valBe bs + 1) * 256 := by ring
      rw [valBe_append_singleton, valBe_append_singleton, ih, hb, hcarry, Nat.mul_mod_mul_right]
      exact Nat.add_zero _
    · next hstop =>
      have hlt := valBe_lt (bs ++ [b + 1])
      rw [valBe_append_singleton, byte_add_one_toNat hstop, List.length_append, List.length_singleton, pow_succ] at hlt
      rw [valBe_append_singleton, valBe_append_singleton, byte_add_one_toNat hstop, Nat.add_assoc,
        Nat.mod_eq_of_lt hlt]

theorem valBe_inc128 (c : Block) : valBe (inc128 c).toList = (valBe c.toList + 1) % 2 ^ 128 := by
  rw [inc128_toList, valBe_incBytes, Vector.length_toList]
  norm_num

/-- Settles O15: by induction on the bytes from the last one on; Inc128 is IncBytes on 16 of them. -/
theorem incrementAddsOneModulo : Obligations.IncrementAddsOneModulo :=
  ⟨fun bs => ⟨incBytes_length bs, valBe_incBytes bs⟩, valBe_inc128⟩

/-! ### InitCounter -/

theorem initCounter_toList {nonce : List Byte} (h : nonce.length ≤ 16) :
    (initCounter nonce).toList = nonce ++ List.replicate (16 - nonce.length) 0 := padTo_toList_of_le h

theorem valBe_initCounter {nonce : List Byte} (h : nonce.length ≤ 16) :
    valBe (initCounter nonce).toList = valBe nonce * 256 ^ (16 - nonce.length) := by
  rw [initCounter_toList h, valBe_append, valBe_replicate_zero, List.length_replicate, Nat.add_zero]

/-- On a nonce of a whole block the increment comes before or after InitCounter (R111). -/
theorem initCounter_incBytes {nonce : List Byte} (h : nonce.length = 16) :
    initCounter (incBytes nonce) = inc128 (initCounter nonce) := by
  rw [inc128, initCounter, initCounter, padTo_toList_of_eq h]

/-- Settles O17: padding adds zeros below the nonce, which have no value. -/
theorem initCounterIsTheNonceLeftAligned : Obligations.InitCounterIsTheNonceLeftAligned := by
  intro nonce hlen
  have hle : nonce.length ≤ 16 := by omega
  exact ⟨initCounter_toList hle, valBe_initCounter hle⟩

end Sys2Proof.Machine
end

