-- ==== Sys2Proof/Proofs/CounterRegister.lean ====
section
/-! PROOFS. The counter register: LDNONCE, which loads it, and INCCTR, which adds one to it (R103 to R107). -/

namespace Sys2Proof.Machine

/-- A command whose validation passes and whose body raises an error completes with that error's record (R155). -/
theorem exec_raised {i : Instr} {s t : State} {e : CmdError} (hc : commandCheck i s = none)
    (h : bodyOf i s = .raise e t) : exec i s = .next (t.raised e) := by
  rcases runOf_cases i s with ⟨c, hsome, -⟩ | ⟨-, hrun⟩
  · rw [hc] at hsome
    cases hsome
  · rw [exec_runOf, hrun, h, finish_raise]

/-! ### LDNONCE -/

/-- LDNONCE's completion, the races looked at on its source alone (R103). -/
theorem exec_ldnonce_completed {s : State} (hc : commandCheck .ldnonce s = none)
    (ha : admitsRange s.cfg s.snap.naddr.toNat s.snap.nlen.toNat)
    (hq : unraced s s.snap.naddr.toNat s.snap.nlen.toNat) (hm : answered s s.snap.nlen.toNat) :
    exec .ldnonce s =
      .next
        (State.completed
          { s with
            ctr := initCounter (nonceBytes s)
            ctrValid := true
            ks := zeroBlock
            ksValid := false
            trace := s.trace ++ readEvents s.mem s.snap.naddr.toNat s.snap.nlen.toNat }) :=
  exec_completed hc (loadNonce_ok ha hq hm)

/-- Settles O18: the nonce load goes on. -/
theorem ldnonceLoadsTheCounter : Obligations.LdnonceLoadsTheCounter :=
  fun _ hc ha hq hm => exec_ldnonce_completed hc ha (raceFree_ldnonce hq) hm

/-- Settles O19: the nonce load raises at the first refused byte. -/
theorem ldnonceStopsAtARefusedByte : Obligations.LdnonceStopsAtARefusedByte := by
  intro s i hc hi ha hr hq hm
  have hbefore : unraced s s.snap.naddr.toNat i := unraced_sub (raceFree_ldnonce hq) (by omega) (by omega)
  exact exec_raised hc (loadNonce_refused hi ha hr hbefore hm)

/-! ### INCCTR -/

theorem exec_incctr_completed {s : State} (h : s.ctrValid = true) :
    exec .incctr s = .next (State.completed { s with ctr := inc128 s.ctr }) :=
  exec_completed (by simp [commandCheck, incctrCheck, firstFailing, h]) rfl

/-- Settles O20: the increment is Inc128. -/
theorem incctrAddsOneToTheCounter : Obligations.IncctrAddsOneToTheCounter :=
  fun s h => ⟨_, exec_incctr_completed h, rfl, valBe_inc128 s.ctr⟩

theorem execTimes_succ {i : Instr} {s t : State} (h : exec i s = .next t) (k : Nat) :
    execTimes i (k + 1) s = execTimes i k t := by
  rw [execTimes, h]

/-- Settles O21: by induction on k, each command leaving CTR_VALID at 1. -/
theorem incctrRepeatedAddsK : Obligations.IncctrRepeatedAddsK := by
  intro k
  induction k with
  | zero =>
    intro s _
    have hlt := valBe_lt s.ctr.toList
    rw [Vector.length_toList] at hlt
    exact ⟨s, rfl, (Nat.mod_eq_of_lt (by omega)).symm⟩
  | succ k ih =>
    intro s h
    obtain ⟨t, hrun, hval⟩ := ih (State.completed { s with ctr := inc128 s.ctr }) h
    refine ⟨t, (execTimes_succ (exec_incctr_completed h) k).trans hrun, ?_⟩
    rw [hval, State.completed_ctr, valBe_inc128, Nat.mod_add_mod, Nat.add_assoc, Nat.add_comm 1 k]

/-- Settles O22: an increment that fits below the nonce gives the nonce and then k, which is one value on 16 bytes. -/
theorem incrementsKeepTheNonceBytes : Obligations.IncrementsKeepTheNonceBytes := by
  intro k s nonce hlen hvalid hctr
  obtain ⟨t, hrun, hval⟩ := incctrRepeatedAddsK k s hvalid
  rw [hctr, valBe_initCounter (by omega)] at hval
  refine ⟨t, hrun, hval, fun hk => ?_⟩
  have hbytes : (nonce ++ beBytes (16 - nonce.length) k).length = 16 := by
    rw [List.length_append, beBytes_length]
    omega
  have hvalue : valBe (nonce ++ beBytes (16 - nonce.length) k) = valBe nonce * 256 ^ (16 - nonce.length) + k := by
    rw [valBe_append, beBytes_length, valBe_beBytes, Nat.mod_eq_of_lt hk]
  have hfits := valBe_lt (nonce ++ beBytes (16 - nonce.length) k)
  rw [hvalue, hbytes] at hfits
  have hcounter : t.ctr.toList = nonce ++ beBytes (16 - nonce.length) k := by
    refine eq_of_valBe_eq (by rw [hbytes, Vector.length_toList]) ?_
    rw [hval, hvalue, Nat.mod_eq_of_lt (by omega)]
  rw [hcounter, List.take_left]

end Sys2Proof.Machine
end

