-- ==== Sys2Proof/Proofs/Incbuf.lean ====
section
/-! PROOFS. INCBUF's loop where it goes on to its end and where it meets a refused byte (R109, R110), and INCBUF beside
INCCTR (R111). -/

namespace Sys2Proof.Machine

/-! ### The buffer from its last byte -/

theorem Memory.bytes_succ_last (m : Memory) (a n : Nat) : m.bytes a (n + 1) = m.bytes a n ++ [m.byteAt (a + n)] :=
  Memory.bytes_append m a n 1

/-- The events of the increment of the last r bytes of a buffer of n: a read and a write of each, the last one first
(R110). -/
def incrementEvents (m : Memory) (a n r : Nat) : List Event :=
  (List.range r).flatMap fun k =>
    [.read (a + (n - 1 - k)) (m.byteAt (a + (n - 1 - k))), .write (a + (n - 1 - k)) (m.byteAt (a + (n - 1 - k)) + 1)]

@[simp] theorem incrementEvents_length (m : Memory) (a n r : Nat) : (incrementEvents m a n r).length = 2 * r := by
  simp [incrementEvents, Nat.mul_comm]

theorem incrementEvents_succ (m : Memory) (a n r : Nat) :
    incrementEvents m a (n + 1) (r + 1) =
      [.read (a + n) (m.byteAt (a + n)), .write (a + n) (m.byteAt (a + n) + 1)] ++ incrementEvents m a n r := by
  have hindex : ∀ k, n + 1 - 1 - k.succ = n - 1 - k := by omega
  rw [incrementEvents, List.range_succ_eq_map, List.flatMap_cons, List.flatMap_map]
  exact congrArg ([_, _] ++ ·) (List.flatMap_congr fun k _ => by rw [hindex])

/-! ### The loop -/

/-- After one round of INCBUF's loop: byte n of the buffer is one higher (R109). -/
def State.incbufRound (s : State) (a n : Nat) : State :=
  { s with
    mem := s.mem.setByte (a + n) (s.mem.byteAt (a + n) + 1)
    trace := s.trace ++ [.read (a + n) (s.mem.byteAt (a + n)), .write (a + n) (s.mem.byteAt (a + n) + 1)]
    seq := { s.seq with idx := n } }

/-- A round whose byte is admitted, answered and not raced goes on to the next byte if this one wraps, and else ends the
loop. -/
theorem incbufLoop_round {a n k : Nat} {s : State} (hm : answered s (k + 2)) (ha : admits s.cfg (a + n) = true)
    (hq : raced s (a + n) = false) :
    incbufLoop a (n + 1) s =
      if s.mem.byteAt (a + n) + 1 = 0 then incbufLoop a n (s.incbufRound a n) else .ok () (s.incbufRound a n) :=
  incbufLoop_succ hm ha hq

theorem incbufRound_mem_wf {s : State} (h : s.mem.wf = true) (a n : Nat) : (s.incbufRound a n).mem.wf = true :=
  Memory.setByte_wf h _ _

theorem incbufRound_byteAt {s : State} (h : s.mem.wf = true) (a n : Nat) :
    (s.incbufRound a n).mem.byteAt (a + n) = s.mem.byteAt (a + n) + 1 := Memory.byteAt_setByte_eq h _ _

theorem incbufRound_byteAt_ne (s : State) {a n b : Nat} (h : b ≠ a + n) :
    (s.incbufRound a n).mem.byteAt b = s.mem.byteAt b := Memory.byteAt_setByte_ne _ _ h

theorem incbufRound_bytes (s : State) (a n : Nat) : (s.incbufRound a n).mem.bytes a n = s.mem.bytes a n :=
  Memory.bytes_congr fun _ _ => incbufRound_byteAt_ne s (by omega)

/-- A round has taken two of the answered requests. -/
theorem incbufRound_answered {s : State} {k : Nat} (h : answered s (k + 2)) (a n : Nat) :
    answered (s.incbufRound a n) k :=
  answered_of h rfl (by simp only [State.incbufRound, List.length_append, List.length_cons, List.length_nil]; omega)

/-- A round's two events are the first of the increment's (R110). -/
theorem incbufRound_trace (s : State) (a n r : Nat) (hr : r ≤ n) :
    (s.incbufRound a n).trace ++ incrementEvents (s.incbufRound a n).mem a n r =
      s.trace ++ incrementEvents s.mem a (n + 1) (r + 1) := by
  have hbelow : incrementEvents (s.incbufRound a n).mem a n r = incrementEvents s.mem a n r :=
    List.flatMap_congr fun k hk => by
      have := List.mem_range.mp hk
      rw [incbufRound_byteAt_ne s (by omega)]
  rw [hbelow, incrementEvents_succ, ← List.append_assoc]
  rfl

/-- INCBUF's loop, the bytes it reaches admitted, answered and not raced, goes on to its end: the buffer is incremented, by a
read and a write of each reached byte. -/
theorem incbufLoop_ok {a n : Nat} {s : State} (hwf : s.mem.wf = true)
    (hport : ∀ i < n, n ≤ i + reachedBytes (s.mem.bytes a n) → admits s.cfg (a + i) = true ∧ raced s (a + i) = false)
    (hm : answered s (2 * reachedBytes (s.mem.bytes a n))) :
    ∃ m q,
      incbufLoop a n s =
          .ok ()
            { s with
              mem := m, seq := q, trace := s.trace ++ incrementEvents s.mem a n (reachedBytes (s.mem.bytes a n)) } ∧
        m.bytes a n = incBytes (s.mem.bytes a n) := by
  induction n generalizing s with
  | zero => exact ⟨s.mem, s.seq, by simp [incbufLoop, incrementEvents, reachedBytes, Memory.bytes], rfl⟩
  | succ n ih =>
    rw [Memory.bytes_succ_last, reachedBytes_append_singleton] at hport hm ⊢
    rw [incBytes_append_singleton]
    obtain ⟨hadm, hq⟩ := hport n (by omega) (by split <;> omega)
    by_cases hwrap : s.mem.byteAt (a + n) + 1 = 0
    · simp only [if_pos hwrap] at hport hm ⊢
      have hbelow := incbufRound_bytes s a n
      obtain ⟨m, q, hloop, hbytes⟩ := ih (s := s.incbufRound a n) (incbufRound_mem_wf hwf a n)
        (fun i hi hr => hport i (by omega) (by rw [hbelow] at hr; omega))
        (by rw [hbelow]; exact incbufRound_answered hm a n)
      have hlast : m.byteAt (a + n) = 0 := by
        have hframe := incbufLoop_mem_ne a n (s.incbufRound a n) (b := a + n) (.inr (by omega))
        rw [hloop, incbufRound_byteAt hwf, hwrap] at hframe
        exact hframe
      have hreach : reachedBytes (s.mem.bytes a n) ≤ n := by simpa using reachedBytes_le (s.mem.bytes a n)
      refine ⟨m, q, ?_, by rw [Memory.bytes_succ_last, hbytes, hbelow, hlast]⟩
      rw [incbufLoop_round hm hadm hq, if_pos hwrap, hloop, hbelow, incbufRound_trace s a n _ hreach]
      rfl
    · simp only [if_neg hwrap] at hm ⊢
      refine ⟨(s.incbufRound a n).mem, { s.seq with idx := n }, ?_, ?_⟩
      · rw [incbufLoop_round (k := 0) hm hadm hq, if_neg hwrap]
        rfl
      · rw [Memory.bytes_succ_last, incbufRound_bytes, incbufRound_byteAt hwf]

/-- INCBUF's loop on a buffer whose last k bytes are 0xFF, admitted and not raced, and whose byte i before them is refused:
BusError there, those k bytes wrapped and no other byte changed. -/
theorem incbufLoop_refused_after_carry {a i k : Nat} {s : State} (hwf : s.mem.wf = true)
    (hport : ∀ j, i < j → j < i + 1 + k →
      s.mem.byteAt (a + j) = 0xff ∧ admits s.cfg (a + j) = true ∧ raced s (a + j) = false)
    (href : admits s.cfg (a + i) = false) (hm : answered s (2 * k + 1)) :
    ∃ t,
      incbufLoop a (i + 1 + k) s = .raise (.bus (a + i)) t ∧
        ∀ b, t.mem.byteAt b = if a + i < b ∧ b < a + (i + 1 + k) then 0 else s.mem.byteAt b := by
  induction k generalizing s with
  | zero => exact ⟨s.atByte i, incbufLoop_refused hm href, fun b => by rw [if_neg (by omega)]; rfl⟩
  | succ k ih =>
    obtain ⟨hff, hadm, hq⟩ := hport (i + 1 + k) (by omega) (by omega)
    have hwrap : s.mem.byteAt (a + (i + 1 + k)) + 1 = 0 := byte_add_one_eq_zero_iff.mpr hff
    have htwo : answered s (2 * k + 1 + 2) := answered_of hm rfl (by omega)
    have hport' : ∀ j, i < j → j < i + 1 + k →
        (s.incbufRound a (i + 1 + k)).mem.byteAt (a + j) = 0xff ∧ admits s.cfg (a + j) = true ∧
          raced (s.incbufRound a (i + 1 + k)) (a + j) = false := by
      intro j h1 h2
      obtain ⟨hffj, hadmj, hqj⟩ := hport j h1 (by omega)
      exact ⟨(incbufRound_byteAt_ne s (by omega)).trans hffj, hadmj, hqj⟩
    obtain ⟨t, hloop, hbytes⟩ := ih (incbufRound_mem_wf hwf a _) hport' href (incbufRound_answered htwo a _)
    refine ⟨t, ?_, fun b => (hbytes b).trans ?_⟩
    · rw [← hloop, ← Nat.add_assoc, incbufLoop_round htwo hadm hq, if_pos hwrap]
    · by_cases hb : b = a + (i + 1 + k)
      · rw [hb, if_neg (by omega), if_pos (by omega), incbufRound_byteAt hwf, hwrap]
      · rw [incbufRound_byteAt_ne s hb]
        exact if_congr (by omega) rfl rfl

/-! ### The command -/

theorem reachedBytes_bytes (m : Memory) (a n : Nat) :
    reachedBytes (m.bytes a n) = if trailingFF (m.bytes a n) < n then trailingFF (m.bytes a n) + 1 else n := by
  rw [reachedBytes, Memory.bytes_length]

/-- INCBUF's completion: a memory with the buffer incremented and the rest as it was, the events, and no register (R109,
R110). -/
theorem exec_incbuf_completed {s : State} (hc : commandCheck .incbuf s = none) (hwf : s.mem.wf = true)
    (hport : ∀ i, s.snap.nlen.toNat - (trailingFF (nonceBytes s) + 1) ≤ i → i < s.snap.nlen.toNat →
      admits s.cfg (s.snap.naddr.toNat + i) = true ∧ raced s (s.snap.naddr.toNat + i) = false)
    (hm : answered s (2 * reachedBytes (nonceBytes s))) :
    ∃ m,
      exec .incbuf s =
          .next
            (State.completed
              { s with
                mem := m
                trace := s.trace ++
                  incrementEvents s.mem s.snap.naddr.toNat s.snap.nlen.toNat (reachedBytes (nonceBytes s)) }) ∧
        m.bytes s.snap.naddr.toNat s.snap.nlen.toNat = incBytes (nonceBytes s) ∧
        ∀ b, b < s.snap.naddr.toNat ∨ s.snap.naddr.toNat + s.snap.nlen.toNat ≤ b → m.byteAt b = s.mem.byteAt b := by
  have hreached : ∀ i < s.snap.nlen.toNat, s.snap.nlen.toNat ≤ i + reachedBytes (nonceBytes s) →
      admits s.cfg (s.snap.naddr.toNat + i) = true ∧ raced s (s.snap.naddr.toNat + i) = false := by
    intro i hi hr
    refine hport i ?_ hi
    have := reachedBytes_le_trailingFF_add_one (nonceBytes s)
    omega
  obtain ⟨m, q, hloop, hbytes⟩ := incbufLoop_ok hwf hreached hm
  have hexec := exec_completed (i := .incbuf) hc hloop
  refine ⟨m, hexec, hbytes, fun b hb => ?_⟩
  have hframe := incbufLoop_mem_ne s.snap.naddr.toNat s.snap.nlen.toNat s hb
  rwa [hloop] at hframe

/-- Settles O23: the completion's memory, which the loop increments. -/
theorem incbufIncrementsTheBuffer : Obligations.IncbufIncrementsTheBuffer := by
  intro s a n ff hc hwf hport hm
  obtain ⟨m, hexec, hbytes, hframe⟩ := exec_incbuf_completed hc hwf hport (by rwa [nonceBytes, reachedBytes_bytes])
  exact ⟨_, hexec, rfl, hbytes, hframe⟩

/-- Settles O24: the completion's events, one pair for each byte reached. -/
theorem incbufEvents : Obligations.IncbufEvents := by
  intro s a n ff hc hwf hport hm
  obtain ⟨m, hexec, -, -⟩ := exec_incbuf_completed hc hwf hport (by rwa [nonceBytes, reachedBytes_bytes])
  rw [nonceBytes, reachedBytes_bytes] at hexec
  exact ⟨_, hexec, rfl⟩

/-- Settles O25: the loop raises at byte i, with the bytes above it wrapped. -/
theorem incbufStopsAtARefusedByte : Obligations.IncbufStopsAtARefusedByte := by
  intro s i a n hc hwf hi hport href hm
  obtain ⟨k, hk⟩ : ∃ k, n = i + 1 + k := ⟨n - (i + 1), by omega⟩
  rw [hk, Nat.add_sub_cancel_left] at hm
  obtain ⟨t, hloop, hbytes⟩ := incbufLoop_refused_after_carry (k := k) hwf (by rwa [← hk]) href hm
  rw [← hk] at hloop hbytes
  refine ⟨_, exec_raised (i := .incbuf) hc hloop, rfl, rfl, fun j h1 h2 => ?_, fun b hb => ?_⟩
  · rw [State.raised_mem, hbytes, if_pos (by omega)]
  · rw [State.raised_mem, hbytes, if_neg (by omega)]

/-! ### INCBUF and LDNONCE, LDNONCE and INCCTR -/

/-- LDNONCE checks all that INCBUF checks (R103, R109). -/
theorem incbufCheck_of_ldnonceCheck {s : State} (h : commandCheck .ldnonce s = none) :
    commandCheck .incbuf s = none := by
  have hrange := firstFailing_eq_none h (rangeFails s.cfg s.snap.naddr.toNat s.snap.nlen.toNat, .range) (by simp)
  simpa [commandCheck, incbufCheck, firstFailing] using hrange

/-- Settles O26: both pairs increment the nonce's 16 bytes, one before and one after loading them. -/
theorem incbufThenLdnonceIsLdnonceThenIncctr : Obligations.IncbufThenLdnonceIsLdnonceThenIncctr := by
  intro s hlen hc ha hrace hwf hm
  have hn : s.snap.nlen.toNat = 16 := by rw [hlen]; rfl
  have hq := raceFree_ldnonce hrace
  have hnonce : (nonceBytes s).length = 16 := by rw [nonceBytes, Memory.bytes_length, hn]
  have hreach : reachedBytes (nonceBytes s) ≤ 16 := hnonce ▸ reachedBytes_le (nonceBytes s)
  rw [← hn] at ha
  obtain ⟨m, hincbuf, hbytes, -⟩ := exec_incbuf_completed (incbufCheck_of_ldnonceCheck hc) hwf
    (fun i _ hi => ⟨ha i hi, hq i hi⟩) (answered_of hm rfl (by omega))
  have hload := exec_ldnonce_completed hc ha hq (answered_of hm rfl (by omega))
  refine ⟨_, _, _, _, hincbuf, exec_ldnonce_completed hc ha hq (answered_of hm rfl ?_), hload,
    exec_incctr_completed rfl, ?_, rfl, rfl⟩
  · simp only [State.completed_trace, State.completed_snap, List.length_append, incrementEvents_length]
    omega
  · calc initCounter (m.bytes s.snap.naddr.toNat s.snap.nlen.toNat)
        = initCounter (incBytes (nonceBytes s)) := by rw [hbytes]
      _ = inc128 (initCounter (nonceBytes s)) := initCounter_incBytes hnonce

end Sys2Proof.Machine
end

