-- ==== Sys2Proof/Proofs/KeystreamPrimitives.lean ====
section
/-! PROOFS. The keystream engine's primitive commands: LDKEY, GENKS and XORKS (R124 to R128). -/

namespace Sys2Proof.Machine

/-! ### LDKEY -/

/-- A key that passes LDKEY's validation has one of three lengths (R6). -/
theorem klen_of_ldkeyCheck {s : State} (h : commandCheck .ldkey s = none) :
    s.snap.klen.toNat = 16 ∨ s.snap.klen.toNat = 24 ∨ s.snap.klen.toNat = 32 := by
  have hsize := firstFailing_eq_none h (!keySizeOk s.cfg s.snap.klen.toNat, .badKeyLen) (by simp)
  exact keySizeOk_cases (by simpa using hsize)

/-- Such a key fits KEY (R28). -/
theorem klen_le_of_ldkeyCheck {s : State} (h : commandCheck .ldkey s = none) : s.snap.klen.toNat ≤ 32 := by
  have := klen_of_ldkeyCheck h
  omega

/-- Settles O27: the key load goes on, and the key fits its register. -/
theorem ldkeyLoadsTheKey : Obligations.LdkeyLoadsTheKey := by
  intro s hc ha hq hm
  have hfits : (keyBytes s).length ≤ 32 := by
    rw [keyBytes, Memory.bytes_length]
    exact klen_le_of_ldkeyCheck hc
  refine ⟨_, exec_completed hc (loadKey_ok ha (raceFree_ldkey hq) hm), rfl, (padTo_toList_of_le hfits).trans ?_⟩
  rw [keyBytes, Memory.bytes_length]

/-- Settles O28: the key load raises at the first refused byte. -/
theorem ldkeyStopsAtARefusedByte : Obligations.LdkeyStopsAtARefusedByte := by
  intro s i hc hi ha hr hq hm
  have hbefore : unraced s s.snap.kaddr.toNat i := unraced_sub (raceFree_ldkey hq) (by omega) (by omega)
  exact exec_raised hc (loadKey_refused hi ha hr hbefore hm)

/-! ### GENKS -/

/-- GENKS with a counter and a key is one keystream block, then KS_VALID (R126). -/
theorem runGenks_eq (C : CipherPort) {s : State} (hctr : s.ctrValid = true) (hkey : s.keyLen ≠ 0) :
    runGenks C s = (genBlock C s).bind fun _ t => .ok () { t with ksValid := true } := by
  have hcheck : genksCheck s = none := by simp [genksCheck, firstFailing, hctr, hkey]
  rw [runGenks, hcheck, validated_none]

/-- Settles O29: the cipher's answer is the block, or the error that GENKS raises. -/
theorem genksMakesOneBlock : Obligations.GenksMakesOneBlock := by
  intro s hctr hkey hm
  rw [exec_genks, runGenks_eq _ hctr hkey]
  cases henc : Config.blockEncrypt (s.key.toList.take s.keyLen) s.ctr with
  | ok c =>
    rw [genBlock_ok (C := Config.cipherPort) hm henc]
    exact ⟨_, rfl, rfl, valBe_inc128 s.ctr, rfl⟩
  | err e =>
    rw [genBlock_err (C := Config.cipherPort) hm henc]
    exact ⟨_, rfl, rfl, rfl⟩

/-! ### XORKS -/

theorem xorBytes_bytes_getElem (m : Memory) (a q : Nat) (ks : Block) {i : Nat}
    (h : i < (xorBytes (m.bytes a q) ks.toList).length) :
    (xorBytes (m.bytes a q) ks.toList)[i] = m.byteAt (a + i) ^^^ ks[i]'(by simp at h; omega) := by
  rw [xorBytes_getElem, Memory.bytes_getElem, Vector.getElem_toList]

theorem xorBytes_bytes_length (m : Memory) (a : Nat) {q : Nat} (h16 : q ≤ 16) (ks : Block) :
    (xorBytes (m.bytes a q) ks.toList).length = q := by
  rw [xorBytes_length, Memory.bytes_length, Vector.length_toList]
  omega

/-- A block whose source byte i is the first refused: nothing is written (R127, R152). -/
theorem xorBlock_refusedRead {a d q i : Nat} {s : State} (hi : i < q) (ha : admitsRange s.cfg a i)
    (hr : admits s.cfg (a + i) = false) (hq : unraced s a q) (hm : answered s (i + 1)) :
    xorBlock a d q s = .raise (.bus (a + i)) { s with trace := s.trace ++ readEvents s.mem a i } := by
  rw [xorBlock, readBytes_refused hi ha hr (unraced_sub hq (by omega) (by omega)) hm, Run.bind_raise]

/-- A block whose destination byte i is the first refused: its first i bytes are written (R127, R152). -/
theorem xorBlock_refusedWrite {a d q i : Nat} {s : State} (h16 : q ≤ 16) (hi : i < q) (ha : admitsRange s.cfg a q)
    (hd : admitsRange s.cfg d i) (hr : admits s.cfg (d + i) = false) (hqa : unraced s a q) (hqd : unraced s d q)
    (hm : answered s (q + i + 1)) :
    xorBlock a d q s =
      .raise (.bus (d + i))
        { s with
          mem := s.mem.setBytes d ((xorBytes (s.mem.bytes a q) s.ks.toList).take i)
          trace := s.trace ++ readEvents s.mem a q ++
            writeEvents d ((xorBytes (s.mem.bytes a q) s.ks.toList).take i) } := by
  have hlen := xorBytes_bytes_length s.mem a h16 s.ks
  rw [xorBlock, readBytes_ok ha hqa (answered_of hm rfl (by omega)), Run.bind_ok]
  exact writeBytes_refused (s := { s with trace := s.trace ++ readEvents s.mem a q }) (by rwa [hlen]) hd hr
    (unraced_congr rfl rfl rfl rfl (unraced_sub hqd (by omega) (by omega))) (answered_of hm rfl (by simp; omega))

/-- Settles O30: the block is read, then written, and reads back as it was written. -/
theorem xorksXorsTheBlock : Obligations.XorksXorsTheBlock := by
  intro s q a d hc ha hd hrace hwf hm
  obtain ⟨hqa, hqd⟩ := raceFree_xorks hrace
  have h16 := len_le_of_xorksCheck hc
  have hlen := xorBytes_bytes_length s.mem a h16 s.ks
  have hexec := exec_completed (i := .xorks) hc (xorBlock_ok h16 ha hd hqa hqd hm)
  refine ⟨_, hexec, rfl, fun i h hi => ?_, fun b hb => ?_, ?_⟩
  · exact (Memory.byteAt_setBytes hwf d _ (by rwa [hlen])).trans (xorBytes_bytes_getElem ..)
  · exact Memory.byteAt_setBytes_ne s.mem _ (by rwa [hlen])
  · have hback := Memory.bytes_setBytes hwf d (xorBytes (s.mem.bytes a q) s.ks.toList)
    rw [hlen] at hback
    exact congrArg (s.trace ++ readEvents s.mem a q ++ writeEvents d ·) hback.symm

/-- Settles O31: the reads raise before any write, the writes after the bytes before the refused one. -/
theorem xorksStopsAtARefusedByte : Obligations.XorksStopsAtARefusedByte := by
  intro s i q a d hc hrace hwf hi
  obtain ⟨hqa, hqd⟩ := raceFree_xorks hrace
  have h16 := len_le_of_xorksCheck hc
  refine ⟨fun ha hr hm => ?read, fun ha hd hr hm => ?write⟩
  case read => exact ⟨_, exec_raised (i := .xorks) hc (xorBlock_refusedRead hi ha hr hqa hm), rfl, rfl, rfl, rfl, rfl⟩
  case write =>
    have hlen : ((xorBytes (s.mem.bytes a q) s.ks.toList).take i).length = i := by
      rw [List.length_take, xorBytes_bytes_length s.mem a h16 s.ks]
      omega
    have hexec := exec_raised (i := .xorks) hc (xorBlock_refusedWrite h16 hi ha hd hr hqa hqd hm)
    refine ⟨_, hexec, rfl, rfl, fun k h hk => ?_, fun b hb => ?_, rfl, rfl⟩
    · refine (Memory.byteAt_setBytes hwf d _ (by rwa [hlen])).trans ?_
      rw [List.getElem_take, xorBytes_bytes_getElem]
    · exact Memory.byteAt_setBytes_ne s.mem _ (by rwa [hlen])

end Sys2Proof.Machine
end

