-- ==== Sys2Proof/Proofs/KeystreamBlocks.lean ====
section
/-! PROOFS. The message's blocks, the counter block as a number, and the keystream block by block (R121 to R123). -/

namespace Sys2Proof.Machine

/-! ### The blocks of a message -/

theorem blockBytes_pos {m j : Nat} (h : j < blockCount m) : 1 ≤ blockBytes m j ∧ 16 * j + blockBytes m j ≤ m := by
  unfold blockCount at h
  unfold blockBytes
  omega

theorem blockBytes_eq_of_not_last {m j : Nat} (h : j + 1 < blockCount m) : blockBytes m j = 16 := by
  unfold blockCount at h
  unfold blockBytes
  omega

theorem blockBytes_last {m j : Nat} (h : j + 1 = blockCount m) : blockBytes m j = m - 16 * (blockCount m - 1) := by
  unfold blockCount at h ⊢
  unfold blockBytes
  omega

/-- Settles O33: a block that is not the last is full, and the last has what is left. -/
theorem blocksCoverTheMessage : Obligations.BlocksCoverTheMessage := by
  refine ⟨⟨rfl, rfl, rfl, rfl, rfl⟩, fun m j hj => ?_⟩
  obtain ⟨hpos, hin⟩ := blockBytes_pos hj
  exact ⟨blockBytes_eq_of_not_last, blockBytes_last, hpos, blockBytes_le m j, hin⟩

/-- How many message bytes lie before block j. -/
def bytesBefore (m j : Nat) : Nat := min m (16 * j)

theorem bytesBefore_succ (m j : Nat) : bytesBefore m (j + 1) = bytesBefore m j + blockBytes m j := by
  unfold bytesBefore blockBytes
  omega

theorem bytesBefore_mono (m : Nat) {j k : Nat} (h : j ≤ k) : bytesBefore m j ≤ bytesBefore m k := by
  unfold bytesBefore
  omega

theorem bytesBefore_blockCount (m : Nat) : bytesBefore m (blockCount m) = m := by
  unfold bytesBefore blockCount
  omega

theorem bytesBefore_le (m j : Nat) : bytesBefore m j ≤ m := Nat.min_le_left ..

/-- Every block before one of the message's is full. -/
theorem bytesBefore_eq {m j : Nat} (h : j < blockCount m) : bytesBefore m j = 16 * j := by
  unfold blockCount at h
  unfold bytesBefore
  omega

/-! ### The counter block -/

theorem valBe_counterBlock (v : Nat) : valBe (counterBlock v).toList = v % 2 ^ 128 := by
  rw [counterBlock, padTo_toList_of_eq (beBytes_length 16 _), valBe_beBytes]
  exact Nat.mod_mod v (2 ^ 128)

theorem counterBlock_valBe (c : Block) : counterBlock (valBe c.toList) = c := by
  refine block_ext (eq_of_valBe_eq (by simp) ?_)
  have hlt := valBe_lt c.toList
  rw [Vector.length_toList] at hlt
  rw [valBe_counterBlock, Nat.mod_eq_of_lt (by omega)]

/-- Inc128 is the next counter value (R100, R123). -/
theorem inc128_counterBlock (v : Nat) : inc128 (counterBlock v) = counterBlock (v + 1) := by
  refine block_ext (eq_of_valBe_eq (by simp) ?_)
  rw [valBe_inc128, valBe_counterBlock, valBe_counterBlock, Nat.mod_add_mod]

theorem counterBlock_firstCounter (s : State) : counterBlock (firstCounter s) = initCounter (nonceBytes s) :=
  counterBlock_valBe _

/-! ### The keystream -/

/-- The blocks are the cipher's answers on the counter values from v on. -/
def CipherAnswers (C : CipherPort) (k : List Byte) : Nat → List Block → Prop
  | _, [] => True
  | v, b :: bs => C.encrypt k (counterBlock v) = .ok b ∧ CipherAnswers C k (v + 1) bs

theorem CipherAnswers.append_iff {C : CipherPort} {k : List Byte} {v : Nat} {bs cs : List Block} :
    CipherAnswers C k v (bs ++ cs) ↔ CipherAnswers C k v bs ∧ CipherAnswers C k (v + bs.length) cs := by
  induction bs generalizing v with
  | nil => simp [CipherAnswers]
  | cons b bs ih =>
    simp only [List.cons_append, CipherAnswers, ih, List.length_cons, and_assoc, Nat.add_assoc, Nat.add_comm 1]

theorem keystream_succ_ok {C : CipherPort} {k : List Byte} {v : Nat} {b : Block} (n : Nat)
    (h : C.encrypt k (counterBlock v) = .ok b) :
    keystream C k v (n + 1) = (b :: (keystream C k (v + 1) n).1, (keystream C k (v + 1) n).2) := by
  rw [keystream, h]

theorem keystream_succ_err {C : CipherPort} {k : List Byte} {v : Nat} {e : CipherErr} (n : Nat)
    (h : C.encrypt k (counterBlock v) = .err e) : keystream C k v (n + 1) = ([], some e) := by
  rw [keystream, h]

theorem keystream_answers (C : CipherPort) (k : List Byte) (v n : Nat) : CipherAnswers C k v (keystream C k v n).1 := by
  induction n generalizing v with
  | zero => trivial
  | succ n ih =>
    cases h : C.encrypt k (counterBlock v) with
    | ok b => rw [keystream_succ_ok n h]; exact ⟨h, ih (v + 1)⟩
    | err e => rw [keystream_succ_err n h]; trivial

/-- A keystream has all its blocks, or ends at the block on whose counter value the cipher gave an error. -/
theorem keystream_cases (C : CipherPort) (k : List Byte) (v n : Nat) :
    ((keystream C k v n).2 = none ∧ (keystream C k v n).1.length = n) ∨
      ∃ e, (keystream C k v n).2 = some e ∧ (keystream C k v n).1.length < n ∧
        C.encrypt k (counterBlock (v + (keystream C k v n).1.length)) = .err e := by
  induction n generalizing v with
  | zero => exact .inl ⟨rfl, rfl⟩
  | succ n ih =>
    cases h : C.encrypt k (counterBlock v) with
    | ok b =>
      rw [keystream_succ_ok n h]
      rcases ih (v + 1) with ⟨hnone, hlen⟩ | ⟨e, hsome, hlen, herr⟩
      · exact .inl ⟨hnone, by simp [hlen]⟩
      · refine .inr ⟨e, hsome, by simpa using hlen, ?_⟩
        rwa [List.length_cons, ← Nat.add_assoc, Nat.add_right_comm]
    | err e =>
      rw [keystream_succ_err n h]
      exact .inr ⟨e, rfl, Nat.succ_pos n, h⟩

/-- Blocks that the cipher answered are the keystream. -/
theorem CipherAnswers.keystream_eq {C : CipherPort} {k : List Byte} {v : Nat} {bs : List Block}
    (h : CipherAnswers C k v bs) : keystream C k v bs.length = (bs, none) := by
  induction bs generalizing v with
  | nil => rfl
  | cons b bs ih =>
    obtain ⟨hb, hrest⟩ := h
    rw [List.length_cons, keystream_succ_ok _ hb, ih hrest]

theorem keystreamBytes_cons (b : Block) (bs : List Block) :
    keystreamBytes (b :: bs) = b.toList ++ keystreamBytes bs := List.flatMap_cons

theorem keystreamBytes_length (bs : List Block) : (keystreamBytes bs).length = 16 * bs.length := by
  induction bs with
  | nil => rfl
  | cons b bs ih =>
    rw [keystreamBytes_cons, List.length_append, Vector.length_toList, ih, List.length_cons]
    omega

end Sys2Proof.Machine
end

