-- ==== Sys2Proof/Proofs/XformBlocks.lean ====
section
/-! PROOFS. XFORM by rounds, one for each block: the rounds that go on, and the loads, the cipher call or the access at which
XFORM stops (R131, R132). -/

namespace Sys2Proof.Machine

/-! ### One block's ports -/

/-- The ports let the first n bytes of a message through: each is admitted, and the host races on none (R52, R63). -/
structure MessagePorts (s : State) (src dst n : Nat) : Prop where
  srcAdmitted : admitsRange s.cfg src n
  dstAdmitted : admitsRange s.cfg dst n
  srcUnraced : unraced s src n
  dstUnraced : unraced s dst n

theorem MessagePorts.mono {s : State} {src dst n k : Nat} (h : MessagePorts s src dst n) (hk : k ≤ n) :
    MessagePorts s src dst k where
  srcAdmitted := fun i hi => h.srcAdmitted i (by omega)
  dstAdmitted := fun i hi => h.dstAdmitted i (by omega)
  srcUnraced := fun i hi => h.srcUnraced i (by omega)
  dstUnraced := fun i hi => h.dstUnraced i (by omega)

/-- Block j of an m-byte message is a range of its own. -/
theorem MessagePorts.block {s : State} {src dst m j : Nat} (h : MessagePorts s src dst (bytesBefore m (j + 1))) :
    MessagePorts s (src + 16 * j) (dst + 16 * j) (blockBytes m j) := by
  have hin : ∀ i < blockBytes m j, 16 * j + i < bytesBefore m (j + 1) := by
    unfold blockBytes bytesBefore
    omega
  constructor
  · exact fun i hi => by rw [Nat.add_assoc]; exact h.srcAdmitted _ (hin i hi)
  · exact fun i hi => by rw [Nat.add_assoc]; exact h.dstAdmitted _ (hin i hi)
  · exact fun i hi => by rw [Nat.add_assoc]; exact h.srcUnraced _ (hin i hi)
  · exact fun i hi => by rw [Nat.add_assoc]; exact h.dstUnraced _ (hin i hi)

theorem unraced_block {s : State} {a m : Nat} (h : unraced s a m) (j : Nat) :
    unraced s (a + 16 * j) (blockBytes m j) := by
  intro i hi
  unfold blockBytes at hi
  rw [Nat.add_assoc]
  exact h _ (by omega)

/-! ### One round -/

/-- After XFORM's round of block j, whose keystream block is `b` (R131). -/
def State.xformRound (s : State) (src dst m j : Nat) (b : Block) : State :=
  let out := xorBytes (s.mem.bytes (src + 16 * j) (blockBytes m j)) b.toList
  { s with
    mem := s.mem.setBytes (dst + 16 * j) out
    ks := b
    ctr := inc128 s.ctr
    seq := { s.seq with blk := j }
    trace := s.trace ++ [.cipher (loadedKey s) s.ctr] ++ readEvents s.mem (src + 16 * j) (blockBytes m j) ++
      writeEvents (dst + 16 * j) out }

theorem MessagePorts.xformRound {s : State} {src dst n : Nat} (h : MessagePorts s src dst n) (m j : Nat) (b : Block) :
    MessagePorts (s.xformRound src dst m j b) src dst n :=
  ⟨h.srcAdmitted, h.dstAdmitted, h.srcUnraced, h.dstUnraced⟩

/-- A round leaves the next counter value. -/
theorem xformRound_ctr {s : State} {v : Nat} (h : s.ctr = counterBlock v) (src dst m j : Nat) (b : Block) :
    (s.xformRound src dst m j b).ctr = counterBlock (v + 1) := by
  rw [← inc128_counterBlock, ← h]
  rfl

/-- A round has made one cipher call, and two accesses for each byte of its block. -/
theorem xformRound_answered {s : State} {m j k : Nat} (h : answered s (1 + 2 * blockBytes m j + k)) (src dst : Nat)
    (b : Block) : answered (s.xformRound src dst m j b) k := by
  have hout := xorBytes_bytes_length s.mem (src + 16 * j) (blockBytes_le m j) b
  refine answered_of h rfl ?_
  simp only [State.xformRound, List.length_append, List.length_singleton, readEvents_length, writeEvents_length, hout]
  omega

/-- A block that goes on without a race is a round, with the cipher's answer (R131). -/
theorem xformBlock_eq_ok {C : CipherPort} {s t : State} {src dst m j : Nat}
    (hsrc : unraced s (src + 16 * j) (blockBytes m j)) (hdst : unraced s (dst + 16 * j) (blockBytes m j))
    (h : xformBlock C src dst m j s = .ok () t) :
    ∃ b, C.encrypt (loadedKey s) s.ctr = .ok b ∧ t = s.xformRound src dst m j b := by
  obtain ⟨_, u, hgen, hxor⟩ := Run.bind_eq_ok h
  obtain ⟨b, henc, rfl⟩ := genBlock_eq_ok hgen
  exact ⟨b, henc, xorBlock_eq_ok (blockBytes_le m j) (by exact hsrc) (by exact hdst) hxor⟩

/-- A block on whose counter value the cipher gives an error makes the call and no more (R131, R153). -/
theorem xformBlock_cipherError {C : CipherPort} {s : State} {j : Nat} {e : CipherErr}
    (henc : C.encrypt (loadedKey s) s.ctr = .err e) (hm : answered s 1) (src dst m : Nat) :
    xformBlock C src dst m j s =
      .raise (.cipher (C.encode e)) { s.atBlock j with trace := s.trace ++ [.cipher (loadedKey s) s.ctr] } := by
  rw [xformBlock, genBlock_err (s := s.atBlock j) (n := 0) (answered_of hm rfl (by simp)) henc, Run.bind_raise]
  rfl

/-- After the cipher call of block j, which gives `b`: the counter is the next one, and no byte is read yet (R131). -/
def State.xformCalled (s : State) (j : Nat) (b : Block) : State :=
  { s.atBlock j with ks := b, ctr := inc128 s.ctr, trace := s.trace ++ [.cipher (loadedKey s) s.ctr] }

theorem xformBlock_called {C : CipherPort} {s : State} {j n : Nat} {b : Block}
    (henc : C.encrypt (loadedKey s) s.ctr = .ok b) (hm : answered s (n + 1)) (src dst m : Nat) :
    xformBlock C src dst m j s = xorBlock (src + 16 * j) (dst + 16 * j) (blockBytes m j) (s.xformCalled j b) := by
  rw [xformBlock, genBlock_ok (s := s.atBlock j) (n := n) (answered_of hm rfl (by simp)) henc, Run.bind_ok]
  rfl

theorem xformCalled_answered {s : State} {n : Nat} (hm : answered s (n + 1)) (j : Nat) (b : Block) :
    answered (s.xformCalled j b) n :=
  answered_of hm rfl (by simp only [State.xformCalled, List.length_append, List.length_singleton]; omega)

/-- A block whose bytes are admitted, answered and not raced is a round (R131). -/
theorem xformBlock_ok {C : CipherPort} {s : State} {src dst m j : Nat} {b : Block}
    (henc : C.encrypt (loadedKey s) s.ctr = .ok b) (hp : MessagePorts s src dst (bytesBefore m (j + 1)))
    (hm : answered s (1 + 2 * blockBytes m j)) :
    xformBlock C src dst m j s = .ok () (s.xformRound src dst m j b) := by
  have hb := hp.block
  have hcall : answered s (2 * blockBytes m j + 1) := answered_of hm rfl (by omega)
  rw [xformBlock_called henc hcall]
  exact xorBlock_ok (blockBytes_le m j) hb.srcAdmitted hb.dstAdmitted hb.srcUnraced hb.dstUnraced
    (xformCalled_answered hcall j b)

/-! ### The loop -/

theorem xformLoop_of_ok {C : CipherPort} {s t : State} {src dst m j : Nat} (left : Nat)
    (h : xformBlock C src dst m j s = .ok () t) :
    xformLoop C src dst m (left + 1) j s = xformLoop C src dst m left (j + 1) t := by
  rw [xformLoop, h]

theorem xformLoop_of_raise {C : CipherPort} {s t : State} {e : CmdError} {src dst m j : Nat} (left : Nat)
    (h : xformBlock C src dst m j s = .raise e t) :
    xformLoop C src dst m (left + 1) j s = .raise e (t.keystreamDropped j) := by
  rw [xformLoop, h]

/-- A loop that goes on has gone on past its first block. -/
theorem xformLoop_succ_eq_ok {C : CipherPort} {s t : State} {src dst m left j : Nat}
    (h : xformLoop C src dst m (left + 1) j s = .ok () t) :
    ∃ u, xformBlock C src dst m j s = .ok () u ∧ xformLoop C src dst m left (j + 1) u = .ok () t := by
  unfold xformLoop at h
  split at h
  · cases h
  · cases h
  · next u hu => exact ⟨u, hu, h⟩

/-- After XFORM's rounds from block j on, with their keystream blocks (R131). -/
def State.xformRounds (src dst m : Nat) : List Block → Nat → State → State
  | [], _, s => s
  | b :: bs, j, s => State.xformRounds src dst m bs (j + 1) (s.xformRound src dst m j b)

/-- A block's events are its cipher call, its reads and its writes. -/
theorem blockEvents_length (k : List Byte) (src dst m v : Nat) (bs : List Block) (j : Nat) (mem : Memory) :
    (blockEvents k src dst m v bs j mem).length + 2 * bytesBefore m j =
      bs.length + 2 * bytesBefore m (j + bs.length) := by
  induction bs generalizing v j mem with
  | nil => rfl
  | cons b bs ih =>
    have hout := xorBytes_bytes_length mem (src + 16 * j) (blockBytes_le m j) b
    have hrest := ih (v + 1) (j + 1)
      (mem.setBytes (dst + 16 * j) (xorBytes (mem.bytes (src + 16 * j) (blockBytes m j)) b.toList))
    rw [bytesBefore_succ, Nat.add_assoc, Nat.add_comm 1] at hrest
    simp only [blockEvents, List.length_append, List.length_cons, readEvents_length, writeEvents_length, hout]
    omega

/-- What rounds leave: the blocks applied to the memory, the counter past them, and their events; KS and SEQ aside, no other
field changes. -/
theorem xformRounds_eq {s : State} {v : Nat} (hctr : s.ctr = counterBlock v) (src dst m : Nat) (bs : List Block) (j : Nat) :
    ∃ ks q,
      State.xformRounds src dst m bs j s =
        { s with
          mem := applyBlocks src dst m bs j s.mem
          ks := ks
          ctr := counterBlock (v + bs.length)
          seq := q
          trace := s.trace ++ blockEvents (loadedKey s) src dst m v bs j s.mem } := by
  induction bs generalizing s v j with
  | nil => exact ⟨s.ks, s.seq, by simp [State.xformRounds, applyBlocks, blockEvents, ← hctr]⟩
  | cons b bs ih =>
    have hnext := xformRound_ctr hctr src dst m j b
    obtain ⟨ks, q, h⟩ := ih hnext (j + 1)
    refine ⟨ks, q, ?_⟩
    rw [State.xformRounds, h, List.length_cons, Nat.add_comm bs.length, ← Nat.add_assoc]
    simp [State.xformRound, applyBlocks, blockEvents, loadedKey, hctr]

/-- Rounds have made a cipher call for each block, and two accesses for each byte. -/
theorem xformRounds_answered {s : State} {v m j n k : Nat} (hctr : s.ctr = counterBlock v) {bs : List Block}
    (h : answered s n) (hn : bs.length + 2 * bytesBefore m (j + bs.length) + k ≤ n + 2 * bytesBefore m j)
    (src dst : Nat) : answered (State.xformRounds src dst m bs j s) k := by
  have hlen := blockEvents_length (loadedKey s) src dst m v bs j s.mem
  obtain ⟨ks, q, hrounds⟩ := xformRounds_eq hctr src dst m bs j
  rw [hrounds]
  exact answered_of h rfl (by rw [List.length_append]; omega)

/-- The loop goes on round by round over blocks that the cipher answered and the ports let through. -/
theorem xformLoop_rounds {C : CipherPort} {s : State} {v src dst m j n : Nat} {bs : List Block} (left : Nat)
    (hctr : s.ctr = counterBlock v) (hans : CipherAnswers C (loadedKey s) v bs)
    (hp : MessagePorts s src dst (bytesBefore m (j + bs.length)))
    (hm : answered s n) (hn : bs.length + 2 * bytesBefore m (j + bs.length) ≤ n + 2 * bytesBefore m j) :
    xformLoop C src dst m (bs.length + left) j s =
      xformLoop C src dst m left (j + bs.length) (State.xformRounds src dst m bs j s) := by
  induction bs generalizing s v j n with
  | nil => rw [List.length_nil, Nat.zero_add]; rfl
  | cons b bs ih =>
    obtain ⟨henc, hrest⟩ := hans
    rw [← hctr] at henc
    have hlast : j + (b :: bs).length = j + 1 + bs.length := by rw [List.length_cons]; omega
    rw [hlast] at hp hn ⊢
    have hmono := bytesBefore_mono m (Nat.le_add_right (j + 1) bs.length)
    have hsucc := bytesBefore_succ m j
    rw [List.length_cons] at hn ⊢
    have hblock := xformBlock_ok henc (hp.mono hmono) (answered_of hm rfl (by omega))
    have hnext := xformRound_ctr hctr src dst m j b
    rw [Nat.add_right_comm, xformLoop_of_ok _ hblock]
    exact ih hnext hrest (hp.xformRound m j b)
      (xformRound_answered (k := n - (1 + 2 * blockBytes m j)) (answered_of hm rfl (by omega)) src dst b) (by omega)

/-- A loop that goes on without a race has gone on over the cipher's answers (R131). -/
theorem xformLoop_eq_ok {C : CipherPort} {s t : State} {v src dst m n j : Nat} (hctr : s.ctr = counterBlock v)
    (hsrc : unraced s src m) (hdst : unraced s dst m) (h : xformLoop C src dst m n j s = .ok () t) :
    ∃ bs, bs.length = n ∧ CipherAnswers C (loadedKey s) v bs ∧ t = State.xformRounds src dst m bs j s := by
  induction n generalizing s v j with
  | zero =>
    cases h
    exact ⟨[], rfl, trivial, rfl⟩
  | succ n ih =>
    obtain ⟨u, hblock, hloop⟩ := xformLoop_succ_eq_ok h
    obtain ⟨b, henc, rfl⟩ := xformBlock_eq_ok (unraced_block hsrc j) (unraced_block hdst j) hblock
    have hnext := xformRound_ctr hctr src dst m j b
    obtain ⟨bs, hlen, hans, rfl⟩ := ih hnext (by exact hsrc) (by exact hdst) hloop
    exact ⟨b :: bs, by rw [List.length_cons, hlen], ⟨by rwa [← hctr], hans⟩, rfl⟩

end Sys2Proof.Machine
end

