-- ==== Sys2Proof/Proofs/XformCommand.lean ====
section
/-! PROOFS. XFORM from its validation on: its completion whatever the cipher answers, and where a refused byte stops it
(R131). -/

namespace Sys2Proof.Machine

/-! ### The loads -/

/-- What XFORM checks of its key, LDKEY checks (R159). -/
theorem ldkeyCheck_of_xformCheck {s : State} (h : commandCheck .xform s = none) :
    commandCheck .ldkey s = none := by
  have hall := firstFailing_eq_none h
  have hsize := hall (!keySizeOk s.cfg s.snap.klen.toNat, .badKeyLen) (by simp)
  have hrange := hall (rangeFails s.cfg s.snap.kaddr.toNat s.snap.klen.toNat, .range) (by simp)
  simp only at hsize hrange
  simp [commandCheck, ldkeyCheck, firstFailing, hsize, hrange]

theorem klen_le_of_xformCheck {s : State} (h : commandCheck .xform s = none) : s.snap.klen.toNat ≤ 32 :=
  klen_le_of_ldkeyCheck (ldkeyCheck_of_xformCheck h)

/-- The ports let XFORM's two loads through: each byte is admitted, and the host races on none (R52, R63). -/
structure LoadPorts (s : State) : Prop where
  keyAdmitted : admitsRange s.cfg s.snap.kaddr.toNat s.snap.klen.toNat
  nonceAdmitted : admitsRange s.cfg s.snap.naddr.toNat s.snap.nlen.toNat
  keyUnraced : unraced s s.snap.kaddr.toNat s.snap.klen.toNat
  nonceUnraced : unraced s s.snap.naddr.toNat s.snap.nlen.toNat

/-- XFORM with its key loaded (R131). -/
def State.xformKeyed (s : State) : State :=
  { s.xformStarted (blockCount s.snap.len.toNat) with
    key := padTo 32 (keyBytes s)
    keyLen := s.snap.klen.toNat
    ks := zeroBlock
    ksValid := false
    trace := s.trace ++ readEvents s.mem s.snap.kaddr.toNat s.snap.klen.toNat }

/-- XFORM with its key and its nonce loaded, before its first block (R131). -/
def State.xformLoaded (s : State) : State :=
  { s.xformKeyed with
    ctr := initCounter (nonceBytes s)
    ctrValid := true
    trace := s.xformKeyed.trace ++ readEvents s.mem s.snap.naddr.toNat s.snap.nlen.toNat }

theorem xformKeyed_answered {s : State} {k : Nat} (h : answered s (s.snap.klen.toNat + k)) : answered s.xformKeyed k :=
  answered_of h rfl (by simp only [State.xformKeyed, List.length_append, readEvents_length]; omega)

/-- The key that the cipher gets is the key loaded. -/
theorem xformLoaded_loadedKey {s : State} (h : s.snap.klen.toNat ≤ 32) : loadedKey s.xformLoaded = keyBytes s := by
  have hlen : (keyBytes s).length = s.snap.klen.toNat := Memory.bytes_length ..
  calc loadedKey s.xformLoaded = (padTo 32 (keyBytes s)).toList.take s.snap.klen.toNat := rfl
    _ = keyBytes s := by rw [padTo_toList_of_le (by omega), ← hlen, List.take_left]

theorem xformLoaded_ctr (s : State) : s.xformLoaded.ctr = counterBlock (firstCounter s) :=
  (counterBlock_firstCounter s).symm

theorem xformLoaded_answered {s : State} {k : Nat} (h : answered s (s.snap.klen.toNat + (s.snap.nlen.toNat + k))) :
    answered s.xformLoaded k :=
  answered_of (xformKeyed_answered h) rfl
    (by simp only [State.xformLoaded, List.length_append, readEvents_length]; omega)

/-- XFORM is its key load, its nonce load, its loop, then BLKCNT and the end of KS (R131). -/
theorem xformBody_eq (C : CipherPort) (s : State) :
    xformBody C s =
      (loadKey (s.xformStarted (blockCount s.snap.len.toNat))).bind fun _ t => (loadNonce t).bind fun _ u =>
        (xformLoop C u.snap.src.toNat u.snap.dst.toNat s.snap.len.toNat (blockCount s.snap.len.toNat) 0 u).bind
          fun _ v => .ok () (v.keystreamDropped (blockCount s.snap.len.toNat)) := rfl

theorem loadKey_xformStarted {s : State} (ha : admitsRange s.cfg s.snap.kaddr.toNat s.snap.klen.toNat)
    (hq : unraced s s.snap.kaddr.toNat s.snap.klen.toNat) (hm : answered s s.snap.klen.toNat) :
    loadKey (s.xformStarted (blockCount s.snap.len.toNat)) = .ok () s.xformKeyed :=
  loadKey_ok (s := s.xformStarted _) ha hq hm

theorem loadNonce_xformKeyed {s : State} (ha : admitsRange s.cfg s.snap.naddr.toNat s.snap.nlen.toNat)
    (hq : unraced s s.snap.naddr.toNat s.snap.nlen.toNat) (hm : answered s.xformKeyed s.snap.nlen.toNat) :
    loadNonce s.xformKeyed = .ok () s.xformLoaded :=
  loadNonce_ok (s := s.xformKeyed) ha hq hm

/-- The loop of an XFORM whose operands are in the snapshot, from its first block on (R131). -/
def xformBlocks (C : CipherPort) (s : State) : Run Unit :=
  xformLoop C s.snap.src.toNat s.snap.dst.toNat s.snap.len.toNat (blockCount s.snap.len.toNat) 0 s.xformLoaded

/-- XFORM whose loads go on is its loop, then BLKCNT and the end of KS (R131). -/
theorem xformBody_loaded (C : CipherPort) {s : State} (hl : LoadPorts s)
    (hm : answered s (s.snap.klen.toNat + s.snap.nlen.toNat)) :
    xformBody C s =
      (xformBlocks C s).bind fun _ u => .ok () (u.keystreamDropped (blockCount s.snap.len.toNat)) := by
  rw [xformBody_eq, loadKey_xformStarted hl.keyAdmitted hl.keyUnraced (answered_of hm rfl (by omega)), Run.bind_ok,
    loadNonce_xformKeyed hl.nonceAdmitted hl.nonceUnraced (xformKeyed_answered hm), Run.bind_ok]
  rfl

/-! ### The rounds of a command -/

/-- XFORM after the rounds of its first blocks, with their keystream blocks (R131). -/
def State.xformAfter (s : State) (bs : List Block) : State :=
  State.xformRounds s.snap.src.toNat s.snap.dst.toNat s.snap.len.toNat bs 0 s.xformLoaded

/-- What those rounds leave, the key having been loaded. -/
theorem xformAfter_eq {s : State} (hfit : s.snap.klen.toNat ≤ 32) (bs : List Block) :
    ∃ ks q,
      s.xformAfter bs =
        { s.xformLoaded with
          mem := applyBlocks s.snap.src.toNat s.snap.dst.toNat s.snap.len.toNat bs 0 s.mem
          ks := ks
          ctr := counterBlock (firstCounter s + bs.length)
          seq := q
          trace := s.xformLoaded.trace ++
            blockEvents (keyBytes s) s.snap.src.toNat s.snap.dst.toNat s.snap.len.toNat (firstCounter s) bs 0 s.mem } := by
  rw [← xformLoaded_loadedKey hfit]
  exact xformRounds_eq (xformLoaded_ctr s) _ _ _ bs 0

theorem xformAfter_loadedKey {s : State} (hfit : s.snap.klen.toNat ≤ 32) (bs : List Block) :
    loadedKey (s.xformAfter bs) = keyBytes s := by
  obtain ⟨ks, q, h⟩ := xformAfter_eq hfit bs
  rw [h]
  exact xformLoaded_loadedKey hfit

theorem xformAfter_ctr {s : State} (hfit : s.snap.klen.toNat ≤ 32) (bs : List Block) :
    (s.xformAfter bs).ctr = counterBlock (firstCounter s + bs.length) := by
  obtain ⟨ks, q, h⟩ := xformAfter_eq hfit bs
  rw [h]

/-- How many requests an XFORM has made after the rounds of its first p blocks. -/
def xformRequests (s : State) (p : Nat) : Nat :=
  s.snap.klen.toNat + (s.snap.nlen.toNat + (p + 2 * bytesBefore s.snap.len.toNat p))

theorem xformAfter_answered {s : State} {bs : List Block} {k : Nat} (h : answered s (xformRequests s bs.length + k)) :
    answered (s.xformAfter bs) k := by
  have hloaded : answered s.xformLoaded (bs.length + 2 * bytesBefore s.snap.len.toNat bs.length + k) :=
    xformLoaded_answered (answered_of h rfl (by unfold xformRequests; omega))
  exact xformRounds_answered (xformLoaded_ctr s) hloaded (by rw [Nat.zero_add]; omega) _ _

/-- The loads of an XFORM and the rounds of its first blocks go on, with their keystream blocks. -/
structure RoundsGoOn (C : CipherPort) (s : State) (bs : List Block) : Prop where
  keyFits : s.snap.klen.toNat ≤ 32
  loads : LoadPorts s
  message : MessagePorts s s.snap.src.toNat s.snap.dst.toNat (bytesBefore s.snap.len.toNat bs.length)
  answers : CipherAnswers C (keyBytes s) (firstCounter s) bs
  requests : answered s (xformRequests s bs.length)

theorem MessagePorts.xformLoaded {s : State} {src dst n : Nat} (h : MessagePorts s src dst n) :
    MessagePorts s.xformLoaded src dst n :=
  ⟨h.srcAdmitted, h.dstAdmitted, h.srcUnraced, h.dstUnraced⟩

/-- XFORM whose loads and first blocks go on goes on with the block after them. -/
theorem RoundsGoOn.body_eq {C : CipherPort} {s : State} {bs : List Block} (h : RoundsGoOn C s bs) (left : Nat)
    (hcount : blockCount s.snap.len.toNat = bs.length + left) :
    xformBody C s =
      (xformLoop C s.snap.src.toNat s.snap.dst.toNat s.snap.len.toNat left bs.length (s.xformAfter bs)).bind
        fun _ u => .ok () (u.keystreamDropped (blockCount s.snap.len.toNat)) := by
  have hans := h.answers
  rw [← xformLoaded_loadedKey h.keyFits] at hans
  have hport := h.message.xformLoaded
  rw [← Nat.zero_add bs.length] at hport
  have hloop := xformLoop_rounds left (xformLoaded_ctr s) hans hport (xformLoaded_answered h.requests)
    (by rw [Nat.zero_add]; omega)
  rw [xformBody_loaded C h.loads (answered_of h.requests rfl (by unfold xformRequests; omega)), xformBlocks, hcount, hloop,
    Nat.zero_add]
  rfl

/-- XFORM whose block after the first ones raises an error ends there, with those blocks done (R131). -/
theorem RoundsGoOn.body_raise {C : CipherPort} {s t : State} {e : CmdError} {bs : List Block}
    (h : RoundsGoOn C s bs) (hlt : bs.length < blockCount s.snap.len.toNat)
    (hblock : xformBlock C s.snap.src.toNat s.snap.dst.toNat s.snap.len.toNat bs.length (s.xformAfter bs) = .raise e t) :
    xformBody C s = .raise e (t.keystreamDropped bs.length) := by
  obtain ⟨left, hcount⟩ : ∃ left, blockCount s.snap.len.toNat = bs.length + (left + 1) :=
    ⟨blockCount s.snap.len.toNat - bs.length - 1, by omega⟩
  rw [h.body_eq _ hcount, xformLoop_of_raise left hblock, Run.bind_raise]

/-! ### A command that goes on -/

/-- An XFORM that goes on has passed its validation and gone on through its loads and its loop (R131). -/
theorem runXform_stages {C : CipherPort} {s t : State} (h : runXform C s = .ok () t) :
    commandCheck .xform s = none ∧
      ∃ x y z,
        loadKey (s.xformStarted (blockCount s.snap.len.toNat)) = .ok () x ∧ loadNonce x = .ok () y ∧
          xformLoop C y.snap.src.toNat y.snap.dst.toNat s.snap.len.toNat (blockCount s.snap.len.toNat) 0 y = .ok () z ∧
          t = z.keystreamDropped (blockCount s.snap.len.toNat) := by
  rcases validated_cases (xformCheck s) (xformBody C) s with ⟨c, -, hrun⟩ | ⟨hc, hrun⟩
  · cases hrun.symm.trans h
  · obtain ⟨_, x, hkey, hrest⟩ := Run.bind_eq_ok (hrun.symm.trans h)
    obtain ⟨_, y, hnonce, hend⟩ := Run.bind_eq_ok hrest
    obtain ⟨_, z, hloop, hz⟩ := Run.bind_eq_ok hend
    cases hz
    exact ⟨hc, x, y, z, hkey, hnonce, hloop, rfl⟩

/-- Without a race in its loads, that loop starts from the key and the nonce in memory (R131). -/
theorem runXform_eq_ok {C : CipherPort} {s t : State} (hqk : unraced s s.snap.kaddr.toNat s.snap.klen.toNat)
    (hqn : unraced s s.snap.naddr.toNat s.snap.nlen.toNat) (h : runXform C s = .ok () t) :
    commandCheck .xform s = none ∧
      ∃ u, xformBlocks C s = .ok () u ∧ t = u.keystreamDropped (blockCount s.snap.len.toNat) := by
  obtain ⟨hc, x, y, z, hkey, hnonce, hloop, ht⟩ := runXform_stages h
  obtain ⟨_, _, hkread, hx⟩ := Run.bind_eq_ok hkey
  obtain ⟨rfl, rfl⟩ := readBytes_eq_ok (by exact hqk) hkread
  cases hx
  obtain ⟨_, _, hnread, hy⟩ := Run.bind_eq_ok hnonce
  obtain ⟨rfl, rfl⟩ := readBytes_eq_ok (by exact hqn) hnread
  cases hy
  exact ⟨hc, z, hloop, ht⟩

/-! ### XFORM's end, whatever the cipher answers -/

theorem failedCall_of_none {ks : List Block × Option CipherErr} (h : ks.2 = none) (k : List Byte) (v : Nat) :
    failedCall k v ks = [] := by
  rw [failedCall, h]

theorem failedCall_of_some {ks : List Block × Option CipherErr} {e : CipherErr} (h : ks.2 = some e) (k : List Byte)
    (v : Nat) : failedCall k v ks = [.cipher k (counterBlock (v + ks.1.length))] := by
  rw [failedCall, h]

/-- Settles O34: the rounds are the keystream's blocks; the loop ends after them, or in the call that failed. -/
theorem xformTransformsTheMessage : Obligations.XformTransformsTheMessage := by
  intro s
  dsimp only
  intro hc hrace hk hn hsrc hdst hm
  obtain ⟨hqk, hqn, hqs, hqd⟩ := raceFree_xform hrace
  have hfit := klen_le_of_xformCheck hc
  have hin := bytesBefore_le s.snap.len.toNat (xformKeystream Config.cipherPort s).1.length
  have hgo : answered s (xformRequests s (xformKeystream Config.cipherPort s).1.length) →
      RoundsGoOn Config.cipherPort s (xformKeystream Config.cipherPort s).1 :=
    fun h => ⟨hfit, ⟨hk, hn, hqk, hqn⟩, MessagePorts.mono ⟨hsrc, hdst, hqs, hqd⟩ hin, keystream_answers .., h⟩
  obtain ⟨_, _, hafter⟩ := xformAfter_eq hfit (xformKeystream Config.cipherPort s).1
  have hcases := keystream_cases Config.cipherPort (keyBytes s) (firstCounter s) (blockCount s.snap.len.toNat)
  rw [← xformKeystream] at hcases
  rcases hcases with ⟨hnone, hlen⟩ | ⟨e, hsome, hlen, herr⟩
  · have hbody := (hgo (answered_of hm rfl (by unfold xformRequests; omega))).body_eq 0 hlen.symm
    rw [hafter] at hbody
    rw [exec_completed (i := .xform) hc hbody, hnone, failedCall_of_none hnone, hlen, List.append_nil]
    rfl
  · have hcall : answered s (xformRequests s (xformKeystream Config.cipherPort s).1.length + 1) :=
      answered_of hm rfl (by unfold xformRequests; omega)
    rw [← xformAfter_loadedKey hfit (xformKeystream Config.cipherPort s).1, ← xformAfter_ctr hfit] at herr
    have hbody := (hgo (answered_of hcall rfl (by omega))).body_raise hlen
      (xformBlock_cipherError herr (xformAfter_answered hcall) ..)
    rw [xformAfter_loadedKey hfit, xformAfter_ctr hfit, hafter] at hbody
    rw [exec_raised (i := .xform) hc hbody, hsome, failedCall_of_some hsome]
    rfl

/-! ### Where a refused byte stops XFORM -/

theorem xformBody_of_loadKey_raise (C : CipherPort) {s t : State} {e : CmdError}
    (h : loadKey (s.xformStarted (blockCount s.snap.len.toNat)) = .raise e t) : xformBody C s = .raise e t := by
  rw [xformBody_eq, h, Run.bind_raise]

theorem xformBody_of_loadNonce_raise (C : CipherPort) {s t : State} {e : CmdError}
    (hk : loadKey (s.xformStarted (blockCount s.snap.len.toNat)) = .ok () s.xformKeyed)
    (h : loadNonce s.xformKeyed = .raise e t) : xformBody C s = .raise e t := by
  rw [xformBody_eq, hk, Run.bind_ok, h, Run.bind_raise]

/-- Settles O35: the first load raises before any register changes, the second with the key loaded. -/
theorem xformStopsAtARefusedLoad : Obligations.XformStopsAtARefusedLoad := by
  intro s i
  dsimp only
  intro hc hrace
  obtain ⟨hqk, hqn, -, -⟩ := raceFree_xform hrace
  refine ⟨fun hi ha hr hm => ?key, fun hk hi ha hr hm => ?nonce⟩
  case key =>
    have hq : unraced s s.snap.kaddr.toNat i := unraced_sub hqk (by omega) (by omega)
    have hload := loadKey_refused (s := s.xformStarted (blockCount s.snap.len.toNat)) hi ha hr hq hm
    exact (exec_raised (i := .xform) hc (xformBody_of_loadKey_raise _ hload) :)
  case nonce =>
    have hq : unraced s s.snap.naddr.toNat i := unraced_sub hqn (by omega) (by omega)
    have hload := loadNonce_refused (s := s.xformKeyed) hi ha hr hq (xformKeyed_answered hm)
    have hkey := loadKey_xformStarted hk hqk (answered_of hm rfl (by omega))
    exact (exec_raised (i := .xform) hc (xformBody_of_loadNonce_raise _ hkey hload) :)

/-- What the cipher call of the block after the first ones leaves of XFORM: those blocks are written, their calls and
accesses and this call are made, and the counter is past this block's (R131). -/
structure BlockCalled (s : State) (bs : List Block) (b : Block) (t : State) : Prop where
  cfg : t.cfg = s.cfg
  unraced : ∀ {a n}, unraced s a n → unraced t a n
  key : t.key = padTo 32 (keyBytes s)
  keyLen : t.keyLen = s.snap.klen.toNat
  ctr : t.ctr = counterBlock (firstCounter s + bs.length + 1)
  ctrValid : t.ctrValid = true
  ks : t.ks = b
  mem : t.mem = applyBlocks s.snap.src.toNat s.snap.dst.toNat s.snap.len.toNat bs 0 s.mem
  trace : t.trace = s.trace ++ readEvents s.mem s.snap.kaddr.toNat s.snap.klen.toNat ++
    readEvents s.mem s.snap.naddr.toNat s.snap.nlen.toNat ++
    blockEvents (keyBytes s) s.snap.src.toNat s.snap.dst.toNat s.snap.len.toNat (firstCounter s) bs 0 s.mem ++
    [.cipher (keyBytes s) (counterBlock (firstCounter s + bs.length))]

theorem xformCalled_blockCalled {s : State} (hfit : s.snap.klen.toNat ≤ 32) (bs : List Block) (b : Block) :
    BlockCalled s bs b ((s.xformAfter bs).xformCalled bs.length b) := by
  obtain ⟨ks, q, h⟩ := xformAfter_eq hfit bs
  rw [State.xformCalled, xformAfter_loadedKey hfit, xformAfter_ctr hfit, inc128_counterBlock, h]
  exact ⟨rfl, fun hq => hq, rfl, rfl, rfl, rfl, rfl, rfl, rfl⟩

/-- XFORM whose first blocks go on makes the cipher call of the next one, and ends where that block's accesses raise an
error (R131). -/
theorem RoundsGoOn.blockCalled {C : CipherPort} {s : State} {bs : List Block} {b : Block} {n : Nat}
    (h : RoundsGoOn C s bs) (hc : commandCheck .xform s = none) (hlt : bs.length < blockCount s.snap.len.toNat)
    (henc : C.encrypt (keyBytes s) (counterBlock (firstCounter s + bs.length)) = .ok b)
    (hm : answered s (xformRequests s bs.length + (n + 1))) :
    ∃ t, BlockCalled s bs b t ∧ answered t n ∧
      ∀ e u, xorBlock (s.snap.src.toNat + 16 * bs.length) (s.snap.dst.toNat + 16 * bs.length)
          (blockBytes s.snap.len.toNat bs.length) t = .raise e u →
        runXform C s = .raise e (u.keystreamDropped bs.length) := by
  rw [← xformAfter_loadedKey h.keyFits bs, ← xformAfter_ctr h.keyFits] at henc
  have hcheck : xformCheck s = none := hc
  refine ⟨_, xformCalled_blockCalled h.keyFits bs b, xformCalled_answered (xformAfter_answered hm) _ _, fun e u hxor => ?_⟩
  rw [runXform, hcheck, validated_none]
  refine h.body_raise hlt ?_
  rw [xformBlock_called henc (xformAfter_answered hm), hxor]

/-- Settles O36: the rounds of the blocks before j and block j's cipher call go on, and its reads or its writes raise. -/
theorem xformStopsAtARefusedBlockByte : Obligations.XformStopsAtARefusedBlockByte := by
  intro C s j i
  dsimp only
  intro hc hrace hk hn hj hi hlen hsrc hdst
  obtain ⟨hqk, hqn, hqs, hqd⟩ := raceFree_xform hrace
  have hans := keystream_answers C (keyBytes s) (firstCounter s) (j + 1)
  obtain ⟨bs, b, hks⟩ : ∃ bs b, (keystream C (keyBytes s) (firstCounter s) (j + 1)).1 = bs ++ [b] :=
    (List.eq_nil_or_concat' _).resolve_left fun h => by simp [h] at hlen
  obtain rfl : bs.length = j := by simpa [hks] using hlen
  have hlast : (bs ++ [b]).getD bs.length zeroBlock = b := by simp
  rw [hks] at hans
  obtain ⟨hans, henc, -⟩ := CipherAnswers.append_iff.mp hans
  simp only [hks, List.take_left, hlast]
  have hbefore := bytesBefore_eq hj
  have hin := bytesBefore_le s.snap.len.toNat bs.length
  have hports : MessagePorts s s.snap.src.toNat s.snap.dst.toNat (bytesBefore s.snap.len.toNat bs.length) :=
    ⟨by rwa [hbefore], by rwa [hbefore], unraced_sub hqs (by omega) (by omega), unraced_sub hqd (by omega) (by omega)⟩
  have hrequests : xformRequests s bs.length = s.snap.klen.toNat + s.snap.nlen.toNat + 33 * bs.length := by
    unfold xformRequests
    omega
  have hgo : answered s (xformRequests s bs.length) → RoundsGoOn C s bs :=
    fun h => ⟨klen_le_of_xformCheck hc, ⟨hk, hn, hqk, hqn⟩, hports, hans, h⟩
  refine ⟨fun ha hr hm => ?read, fun ha hd hr hm => ?write⟩
  case read =>
    obtain ⟨t, ht, hmt, hrun⟩ := (hgo (answered_of hm rfl (by omega))).blockCalled (n := i + 1) hc hj henc
      (answered_of hm rfl (by omega))
    have hxor := xorBlock_refusedRead (d := s.snap.dst.toNat + 16 * bs.length) hi (by rwa [ht.cfg]) (by rwa [ht.cfg])
      (ht.unraced (unraced_block hqs bs.length)) hmt
    refine ⟨_, hrun _ _ hxor, ⟨rfl, ht.key, ht.keyLen, ht.ctr, ht.ctrValid, rfl, rfl⟩, ht.mem, ?_⟩
    rw [State.keystreamDropped_trace, ht.trace, ht.mem]
  case write =>
    obtain ⟨t, ht, hmt, hrun⟩ := (hgo (answered_of hm rfl (by omega))).blockCalled
      (n := blockBytes s.snap.len.toNat bs.length + i + 1) hc hj henc (answered_of hm rfl (by omega))
    have hxor := xorBlock_refusedWrite (blockBytes_le _ bs.length) hi (by rwa [ht.cfg]) (by rwa [ht.cfg])
      (by rwa [ht.cfg]) (ht.unraced (unraced_block hqs bs.length)) (ht.unraced (unraced_block hqd bs.length)) hmt
    rw [ht.mem, ht.trace, ht.ks] at hxor
    exact ⟨_, hrun _ _ hxor, ⟨rfl, ht.key, ht.keyLen, ht.ctr, ht.ctrValid, rfl, rfl⟩, rfl, rfl⟩

end Sys2Proof.Machine
end

