-- ==== Sys2Proof/Proofs/XformMessage.lean ====
section
/-! PROOFS. XFORM as a function of its message, its key and its counter block (R133 to R137). -/

namespace Sys2Proof.Machine

/-! ### The XOR of byte sequences (R128) -/

theorem xorBytes_cancel {x k : List Byte} (h : x.length ≤ k.length) : xorBytes (xorBytes x k) k = x := by
  refine List.ext_getElem (by simp; omega) fun i h1 h2 => ?_
  rw [xorBytes_getElem, xorBytes_getElem, BitVec.xor_assoc, BitVec.xor_self, BitVec.xor_zero]

theorem xorBytes_right_inj {x k l : List Byte} (hk : k.length = x.length) (hl : l.length = x.length)
    (h : xorBytes x k = xorBytes x l) : k = l := by
  have hcomm : ∀ y z : List Byte, xorBytes y z = xorBytes z y := fun y z => List.zipWith_comm_of_comm BitVec.xor_comm
  rw [← xorBytes_cancel (x := k) (k := x) (by omega), ← xorBytes_cancel (x := l) (k := x) (by omega), hcomm k, h, hcomm x]

theorem xorBytes_take (n : Nat) (x k : List Byte) : (xorBytes x k).take n = xorBytes (x.take n) (k.take n) :=
  List.take_zipWith

/-! ### The blocks in place or on disjoint ranges (R68, R133) -/

/-- Blocks from j on leave the bytes before block j's destination, and those past the message's. -/
theorem applyBlocks_byteAt_ne (src dst m : Nat) (bs : List Block) (j : Nat) (mem : Memory) {a : Nat}
    (h : a < dst + 16 * j ∨ dst + m ≤ a) : (applyBlocks src dst m bs j mem).byteAt a = mem.byteAt a := by
  induction bs generalizing j mem with
  | nil => rfl
  | cons b bs ih =>
    rw [applyBlocks, ih _ _ (by omega)]
    refine Memory.byteAt_setBytes_ne _ _ ?_
    rw [xorBytes_bytes_length _ _ (blockBytes_le m j), blockBytes]
    omega

/-- In place or on disjoint ranges, blocks from j on XOR each byte they cover with its keystream byte. -/
theorem applyBlocks_byteAt {src dst m : Nat} (hplace : inPlaceOrDisjoint src dst m) {mem : Memory} (hwf : mem.wf = true)
    (bs : List Block) (j : Nat) {i : Nat} (hlo : 16 * j ≤ i) (hhi : i < bytesBefore m (j + bs.length)) :
    (applyBlocks src dst m bs j mem).byteAt (dst + i) =
      mem.byteAt (src + i) ^^^ (keystreamBytes bs).getD (i - 16 * j) 0 := by
  induction bs generalizing j mem with
  | nil => simp [bytesBefore] at hhi; omega
  | cons b bs ih =>
    have hm : i < m := Nat.lt_of_lt_of_le hhi (bytesBefore_le m _)
    have hlen := xorBytes_bytes_length mem (src + 16 * j) (blockBytes_le m j) b
    rw [applyBlocks, keystreamBytes_cons]
    rcases Nat.lt_or_ge i (16 * (j + 1)) with hthis | hlater
    · have hin : i - 16 * j < blockBytes m j := by unfold blockBytes; omega
      have hd : dst + i = dst + 16 * j + (i - 16 * j) := by omega
      have hs : src + 16 * j + (i - 16 * j) = src + i := by omega
      rw [applyBlocks_byteAt_ne _ _ _ _ _ _ (by omega), hd, Memory.byteAt_setBytes hwf _ _ (by rwa [hlen]),
        xorBytes_bytes_getElem, hs, List.getD_append _ _ _ _ (by simp; omega), List.getD_eq_getElem _ _ (by simp; omega),
        Vector.getElem_toList]
    · rw [ih (Memory.setBytes_wf hwf _ _) (j + 1) hlater (by rwa [Nat.add_assoc, Nat.add_comm 1]),
        Memory.byteAt_setBytes_ne, List.getD_append_right _ _ _ _ (by simp; omega), Vector.length_toList, Nat.sub_sub]
      · rfl
      · rw [hlen]
        unfold inPlaceOrDisjoint at hplace
        unfold blockBytes
        omega

/-! ### A command that completes -/

/-- An XFORM that goes on without a race has the whole keystream, and has applied its blocks to the memory (R131). -/
theorem runXform_ok_mem {C : CipherPort} {s t : State} (hrace : raceFree .xform s) (h : runXform C s = .ok () t) :
    (xformKeystream C s).2 = none ∧ (xformKeystream C s).1.length = blockCount s.snap.len.toNat ∧
      t.mem = applyBlocks s.snap.src.toNat s.snap.dst.toNat s.snap.len.toNat (xformKeystream C s).1 0 s.mem := by
  obtain ⟨hqk, hqn, hqs, hqd⟩ := raceFree_xform hrace
  obtain ⟨hc, u, hloop, rfl⟩ := runXform_eq_ok hqk hqn h
  have hfit := klen_le_of_xformCheck hc
  obtain ⟨bs, hlen, hans, rfl⟩ := xformLoop_eq_ok (xformLoaded_ctr s) (by exact hqs) (by exact hqd) hloop
  rw [xformLoaded_loadedKey hfit] at hans
  obtain ⟨ks, q, hafter⟩ := xformAfter_eq hfit bs
  have hks : xformKeystream C s = (bs, none) := by rw [xformKeystream, ← hlen, hans.keystream_eq]
  rw [hks]
  refine ⟨rfl, hlen, ?_⟩
  rw [State.keystreamDropped_mem, ← State.xformAfter, hafter]

/-- The bytes that an XFORM reads as its message. -/
def messageBytes (s : State) : List Byte := s.mem.bytes s.snap.src.toNat s.snap.len.toNat

/-- An XFORM that goes on without a race, in place or on disjoint ranges, leaves msg xor keystream at its destination
(R133). -/
theorem runXform_ok_byteAt {C : CipherPort} {s t : State} (hrace : raceFree .xform s) (hwf : s.mem.wf = true)
    (hplace : inPlaceOrDisjoint s.snap.src.toNat s.snap.dst.toNat s.snap.len.toNat) (h : runXform C s = .ok () t) {i : Nat}
    (hi : i < s.snap.len.toNat) :
    t.mem.byteAt (s.snap.dst.toNat + i) =
      s.mem.byteAt (s.snap.src.toNat + i) ^^^ (keystreamBytes (xformKeystream C s).1).getD i 0 := by
  obtain ⟨-, hlen, hmem⟩ := runXform_ok_mem hrace h
  rw [hmem, applyBlocks_byteAt hplace hwf _ 0 (by omega)]
  · rfl
  · rwa [Nat.zero_add, hlen, bytesBefore_blockCount]

/-- Settles O37: the keystream is whole, and its blocks are applied to the destination alone. -/
theorem xformIsThePureFunction : Obligations.XformIsThePureFunction := by
  intro C s t hrace hwf hplace h
  obtain ⟨hnone, hlen, hmem⟩ := runXform_ok_mem hrace h
  refine ⟨hnone, by rw [keystreamBytes_length, hlen], fun i hi => runXform_ok_byteAt hrace hwf hplace h hi, fun b hb => ?_⟩
  rw [hmem, applyBlocks_byteAt_ne _ _ _ _ _ _ (by omega)]

/-- The keystream covers the message (R121). -/
theorem keystreamBytes_covers {C : CipherPort} {s t : State} (hrace : raceFree .xform s) (h : runXform C s = .ok () t) :
    s.snap.len.toNat ≤ (keystreamBytes (xformKeystream C s).1).length := by
  obtain ⟨-, hlen, -⟩ := runXform_ok_mem hrace h
  rw [keystreamBytes_length, hlen, blockCount]
  omega

theorem runXform_ok_output {C : CipherPort} {s t : State} (hrace : raceFree .xform s) (hwf : s.mem.wf = true)
    (hplace : inPlaceOrDisjoint s.snap.src.toNat s.snap.dst.toNat s.snap.len.toNat) (h : runXform C s = .ok () t) :
    t.mem.bytes s.snap.dst.toNat s.snap.len.toNat =
      xorBytes (messageBytes s) (keystreamBytes (xformKeystream C s).1) := by
  have hcovers := keystreamBytes_covers hrace h
  refine List.ext_getElem (by simp [messageBytes]; omega) fun i h1 h2 => ?_
  have hi : i < s.snap.len.toNat := by simpa using h1
  rw [Memory.bytes_getElem, runXform_ok_byteAt hrace hwf hplace h hi, xorBytes_getElem, List.getD_eq_getElem _ _ (by omega)]
  simp only [messageBytes, Memory.bytes_getElem]

/-- The keystream depends on the key bytes, the counter block and the message's length alone (R135). -/
theorem xformKeystream_congr {s u : State} (hk : keyBytes u = keyBytes s)
    (hn : initCounter (nonceBytes u) = initCounter (nonceBytes s)) (hlen : u.snap.len = s.snap.len) (C : CipherPort) :
    xformKeystream C u = xformKeystream C s := by
  rw [xformKeystream, xformKeystream, firstCounter, firstCounter, hk, hn, hlen]

/-- Settles O38: the keystream is the same, and cancels. -/
theorem xformRoundTrip : Obligations.XformRoundTrip := by
  intro C s1 s2 t1 t2 hrace1 hrace2 hwf1 hwf2 hplace1 hplace2 h1 h2 hlen hk hn hmsg
  have hcovers := keystreamBytes_covers hrace1 h1
  have hfirst := runXform_ok_output hrace1 hwf1 hplace1 h1
  have hsecond := runXform_ok_output hrace2 hwf2 hplace2 h2
  rw [xformKeystream_congr hk (by rw [hn]) hlen, messageBytes, hmsg, hfirst, xorBytes_cancel] at hsecond
  · exact hsecond
  · rwa [messageBytes, Memory.bytes_length]

/-- Settles O39: both outputs are the message xor the keystream. -/
theorem xformDependsOnItsInputsAlone : Obligations.XformDependsOnItsInputsAlone := by
  intro C s1 s2 t1 t2 hrace1 hrace2 hwf1 hwf2 hplace1 hplace2 hlen hk hn hmsg h1 h2
  rw [runXform_ok_output hrace1 hwf1 hplace1 h1, runXform_ok_output hrace2 hwf2 hplace2 h2,
    xformKeystream_congr hk hn hlen, messageBytes, hmsg, messageBytes]

/-- The first block of an XFORM that goes on, its message not shorter, is the XOR with the cipher's answer on the counter
block of its nonce (R123, R133). -/
theorem runXform_ok_firstBlock {C : CipherPort} {s t : State} (hrace : raceFree .xform s) (hwf : s.mem.wf = true)
    (hplace : inPlaceOrDisjoint s.snap.src.toNat s.snap.dst.toNat s.snap.len.toNat) (h : runXform C s = .ok () t)
    (h16 : 16 ≤ s.snap.len.toNat) :
    ∃ b : Block, C.encrypt (keyBytes s) (initCounter (nonceBytes s)) = .ok b ∧
      t.mem.bytes s.snap.dst.toNat 16 = xorBytes ((messageBytes s).take 16) b.toList := by
  obtain ⟨-, hlen, -⟩ := runXform_ok_mem hrace h
  have hans : CipherAnswers C (keyBytes s) (firstCounter s) (xformKeystream C s).1 := keystream_answers ..
  have hout := runXform_ok_output hrace hwf hplace h
  obtain ⟨rest, hrest⟩ : ∃ rest, s.snap.len.toNat = 16 + rest := ⟨s.snap.len.toNat - 16, by omega⟩
  cases hks : (xformKeystream C s).1 with
  | nil =>
    rw [hks, List.length_nil, blockCount] at hlen
    omega
  | cons b bs =>
    rw [hks] at hans hout
    refine ⟨b, by rw [← counterBlock_firstCounter]; exact hans.1, ?_⟩
    have hfirst := congrArg (List.take 16) hout
    rwa [hrest, Memory.bytes_append, List.take_left' (by simp), xorBytes_take, keystreamBytes_cons,
      List.take_left' (by simp)] at hfirst

/-- Settles O40: equal first blocks would be equal answers of the cipher, on different counter blocks. -/
theorem distinctCountersGiveDistinctFirstBlocks : Obligations.DistinctCountersGiveDistinctFirstBlocks := by
  intro C s1 s2 t1 t2 hrace1 hrace2 hwf1 hwf2 hplace1 hplace2 hinj h16 hlen hk hn hmsg h1 h2 heq
  obtain ⟨b1, henc1, hout1⟩ := runXform_ok_firstBlock hrace1 hwf1 hplace1 h1 h16
  obtain ⟨b2, henc2, hout2⟩ := runXform_ok_firstBlock hrace2 hwf2 hplace2 h2 (hlen ▸ h16)
  have hmsg16 : ((messageBytes s1).take 16).length = 16 := by simp [messageBytes, h16]
  have hsame : messageBytes s2 = messageBytes s1 := hmsg.symm
  rw [hout1, hout2, hsame] at heq
  have hblock : b1 = b2 := block_ext (xorBytes_right_inj (by simp [hmsg16]) (by simp [hmsg16]) heq)
  rw [← hk, ← hblock, ← henc1] at henc2
  exact hn (hinj _ _ henc2).symm

end Sys2Proof.Machine
end

