-- ==== Sys2Proof/Proofs/XformPrimitives.lean ====
section
/-! PROOFS. XFORM and the host sequence of its primitives do the same at the ports, races included (R136). The two differ in
the snapshot, BLKCNT, SEQ and KS_VALID, which no port operation looks at. -/

namespace Sys2Proof.Machine

/-! ### What the port operations do not look at -/

/-- The state with another snapshot, BLKCNT, SEQ and KS_VALID. -/
def State.relabel (s : State) (o : Operands) (b : Word) (q : Seq) (v : Bool) : State :=
  { s with snap := o, blkcnt := b, seq := q, ksValid := v }

/-- A run whose state has another snapshot, BLKCNT, SEQ and KS_VALID. -/
def Run.relabel {α : Type} (r : Run α) (o : Operands) (b : Word) (q : Seq) (v : Bool) : Run α :=
  match r with
  | .ok a s => .ok a (s.relabel o b q v)
  | .raise e s => .raise e (s.relabel o b q v)
  | .wait s => .wait (s.relabel o b q v)

section
variable (o : Operands) (b : Word) (q : Seq) (v : Bool)

theorem Run.relabel_bind {α β : Type} (r : Run α) {f : α → State → Run β}
    (hf : ∀ a s, f a (s.relabel o b q v) = (f a s).relabel o b q v) :
    (r.relabel o b q v).bind f = (r.bind f).relabel o b q v := by
  cases r with
  | ok a s => exact hf a s
  | raise e s => rfl
  | wait s => rfl

theorem Run.relabel_ite {α : Type} (c : Prop) [Decidable c] (r r' : Run α) :
    (if c then r else r').relabel o b q v = if c then r.relabel o b q v else r'.relabel o b q v :=
  apply_ite (Run.relabel · o b q v) c r r'

@[simp] theorem loadedKey_relabel (s : State) : loadedKey (s.relabel o b q v) = loadedKey s := rfl

@[simp] theorem State.relabel_cfg (s : State) : (s.relabel o b q v).cfg = s.cfg := rfl

@[simp] theorem State.relabel_ctr (s : State) : (s.relabel o b q v).ctr = s.ctr := rfl

@[simp] theorem State.relabel_snap (s : State) : (s.relabel o b q v).snap = o := rfl

theorem unitRead_relabel (a : Nat) (s : State) :
    unitRead a (s.relabel o b q v) = (unitRead a s).relabel o b q v := by
  simp only [unitRead, Run.relabel_ite]
  rfl

theorem unitWrite_relabel (a : Nat) (w : Byte) (s : State) :
    unitWrite a w (s.relabel o b q v) = (unitWrite a w s).relabel o b q v := by
  simp only [unitWrite, Run.relabel_ite]
  rfl

theorem readBytes_relabel (a n : Nat) (s : State) :
    readBytes a n (s.relabel o b q v) = (readBytes a n s).relabel o b q v := by
  induction n generalizing a s with
  | zero => rfl
  | succ n ih =>
    rw [readBytes, unitRead_relabel]
    refine Run.relabel_bind o b q v _ fun x t => ?_
    rw [ih]
    exact Run.relabel_bind o b q v _ fun _ _ => rfl

theorem writeBytes_relabel (a : Nat) (bs : List Byte) (s : State) :
    writeBytes a bs (s.relabel o b q v) = (writeBytes a bs s).relabel o b q v := by
  induction bs generalizing a s with
  | nil => rfl
  | cons w bs ih =>
    rw [writeBytes, unitWrite_relabel]
    exact Run.relabel_bind o b q v _ fun _ t => ih (a + 1) t

theorem xorBlock_relabel (src dst n : Nat) (s : State) :
    xorBlock src dst n (s.relabel o b q v) = (xorBlock src dst n s).relabel o b q v := by
  rw [xorBlock, readBytes_relabel]
  exact Run.relabel_bind o b q v _ fun x t => writeBytes_relabel o b q v dst _ t

theorem genBlock_relabel (C : CipherPort) (s : State) :
    genBlock C (s.relabel o b q v) = (genBlock C s).relabel o b q v := by
  simp only [genBlock, Run.relabel_ite, loadedKey_relabel, State.relabel_ctr]
  cases C.encrypt (loadedKey s) s.ctr <;> rfl

end

/-- A key load that goes on does so whatever BLKCNT, SEQ and KS_VALID were, and clears KS_VALID. -/
theorem loadKey_relabel {s t : State} (h : loadKey s = .ok () t) (b : Word) (q : Seq) (v : Bool) :
    loadKey (s.relabel s.snap b q v) = .ok () (t.relabel s.snap b q false) := by
  obtain ⟨k, u, hread, hend⟩ := Run.bind_eq_ok h
  cases hend
  rw [loadKey, readBytes_relabel, State.relabel_snap, hread]
  rfl

theorem loadNonce_relabel {s t : State} (h : loadNonce s = .ok () t) (b : Word) (q : Seq) (v : Bool) :
    loadNonce (s.relabel s.snap b q v) = .ok () (t.relabel s.snap b q false) := by
  obtain ⟨k, u, hread, hend⟩ := Run.bind_eq_ok h
  cases hend
  rw [loadNonce, readBytes_relabel, State.relabel_snap, hread]
  rfl

/-! ### The primitives' validations -/

/-- What XFORM checks of its nonce, LDNONCE checks (R159). -/
theorem ldnonceCheck_of_xformCheck {s : State} (h : commandCheck .xform s = none) : ldnonceCheck s = none := by
  have hall := firstFailing_eq_none h
  have hlen := hall (!nonceLenOk s.snap.nlen.toNat, .badNonceLen) (by simp)
  have hrange := hall (rangeFails s.cfg s.snap.naddr.toNat s.snap.nlen.toNat, .range) (by simp)
  simp only at hlen hrange
  simp [ldnonceCheck, firstFailing, hlen, hrange]

/-- Addresses have at most 32 bits (R6). -/
theorem addrTop_le (cfg : Params) : addrTop cfg ≤ 2 ^ 32 := Nat.pow_le_pow_right (by omega) (by omega)

theorem rangeFails_eq_false_iff {cfg : Params} {a n : Nat} : rangeFails cfg a n = false ↔ n = 0 ∨ a + n ≤ addrTop cfg := by
  simp only [rangeFails, Bool.and_eq_false_iff, decide_eq_false_iff_not]
  omega

/-- Block j of a message in range is in range, and its address is a register's value (R136, R157). -/
theorem block_inRange {cfg : Params} {a m j : Nat} (h : rangeFails cfg a m = false) (hj : j < blockCount m) :
    (BitVec.ofNat 32 (a + 16 * j)).toNat = a + 16 * j ∧ rangeFails cfg (a + 16 * j) (blockBytes m j) = false := by
  have htop := addrTop_le cfg
  obtain ⟨hpos, hin⟩ := blockBytes_pos hj
  rw [rangeFails_eq_false_iff] at h ⊢
  refine ⟨?_, by omega⟩
  rw [BitVec.toNat_ofNat, Nat.mod_eq_of_lt (by omega)]

theorem blockOperands_len (o : Operands) (j : Nat) : (blockOperands o j).len.toNat = blockBytes o.len.toNat j := by
  have := blockBytes_le o.len.toNat j
  rw [blockOperands, BitVec.toNat_ofNat, Nat.mod_eq_of_lt (by omega)]

/-- XORKS with a block's operands, a keystream block there, is that block's reads and writes (R127, R136). -/
theorem runXorks_block {s : State} {o : Operands} {j : Nat} (hsnap : s.snap = blockOperands o j) (hks : s.ksValid = true)
    (hsrc : rangeFails s.cfg o.src.toNat o.len.toNat = false) (hdst : rangeFails s.cfg o.dst.toNat o.len.toNat = false)
    (hj : j < blockCount o.len.toNat) :
    runXorks s = xorBlock (o.src.toNat + 16 * j) (o.dst.toNat + 16 * j) (blockBytes o.len.toNat j) s := by
  obtain ⟨hpos, -⟩ := blockBytes_pos hj
  have h16 := blockBytes_le o.len.toNat j
  obtain ⟨hsrcReg, hsrcIn⟩ := block_inRange hsrc hj
  obtain ⟨hdstReg, hdstIn⟩ := block_inRange hdst hj
  have hsrcAddr : s.snap.src.toNat = o.src.toNat + 16 * j := by rw [hsnap]; exact hsrcReg
  have hdstAddr : s.snap.dst.toNat = o.dst.toNat + 16 * j := by rw [hsnap]; exact hdstReg
  have hlen : s.snap.len.toNat = blockBytes o.len.toNat j := by rw [hsnap, blockOperands_len]
  have hcheck : xorksCheck s = none := by
    have hq : ¬(blockBytes o.len.toNat j < 1) ∧ ¬(16 < blockBytes o.len.toNat j) := by omega
    simp [xorksCheck, firstFailing, hsrcAddr, hdstAddr, hlen, hks, hsrcIn, hdstIn, hq]
  rw [runXorks, hcheck, validated_none, hsrcAddr, hdstAddr, hlen]

/-! ### The blocks -/

/-- KS is the cipher's answer on the counter one below CTR (R120). -/
def KeystreamFresh (C : CipherPort) (s : State) : Prop :=
  ∃ c, inc128 c = s.ctr ∧ C.encrypt (loadedKey s) c = .ok s.ks

/-- What a block of XFORM that goes on leaves: the parameters, the key and CTR_VALID, and a fresh keystream block. -/
theorem xformBlock_ok_fresh {C : CipherPort} {src dst m j : Nat} {s t : State} (h : xformBlock C src dst m j s = .ok () t) :
    t.cfg = s.cfg ∧ t.keyLen = s.keyLen ∧ t.ctrValid = s.ctrValid ∧ KeystreamFresh C t := by
  obtain ⟨_, u, hgen, hxor⟩ := Run.bind_eq_ok h
  obtain ⟨c, henc, rfl⟩ := genBlock_eq_ok hgen
  obtain ⟨mem, tr, d, hstate⟩ := xorBlock_state (src + 16 * j) (dst + 16 * j) (blockBytes m j)
    { s.atBlock j with
      ks := c, ctr := inc128 s.ctr, trace := s.trace ++ [.cipher (loadedKey s) s.ctr] }
  have ht : t = _ := (congrArg Run.state hxor).symm.trans hstate
  rw [ht]
  exact ⟨rfl, rfl, rfl, s.ctr, rfl, henc⟩

/-- A block of XFORM that goes on is GENKS, then XORKS with the block's operands (R136). -/
theorem primitives_of_xformBlock {C : CipherPort} {o : Operands} {j : Nat} {s t : State}
    (h : xformBlock C o.src.toNat o.dst.toNat o.len.toNat j s = .ok () t) (hctr : s.ctrValid = true) (hkey : s.keyLen ≠ 0)
    (hsrc : rangeFails s.cfg o.src.toNat o.len.toNat = false) (hdst : rangeFails s.cfg o.dst.toNat o.len.toNat = false)
    (hj : j < blockCount o.len.toNat) (p : Operands) (b : Word) (q : Seq) (v : Bool) :
    ∃ u, runGenks C (s.relabel p b q v) = .ok () u ∧
      runXorks { u with snap := blockOperands o j } = .ok () (t.relabel (blockOperands o j) b q true) := by
  obtain ⟨_, u, hgen, hxor⟩ := Run.bind_eq_ok h
  have hgen' : genBlock C (s.relabel p b q v) = .ok () (u.relabel p b q v) := by
    have hrelabel := genBlock_relabel p b q v C (s.atBlock j)
    rwa [hgen] at hrelabel
  have hu : u.cfg = s.cfg := by
    obtain ⟨_, _, rfl⟩ := genBlock_eq_ok hgen
    rfl
  refine ⟨u.relabel p b q true, ?_, ?_⟩
  · rw [runGenks_eq C (s := s.relabel p b q v) hctr hkey, hgen']
    rfl
  · change runXorks (u.relabel (blockOperands o j) b q true) = _
    rw [runXorks_block (o := o) (j := j) rfl rfl (by rwa [State.relabel_cfg, hu]) (by rwa [State.relabel_cfg, hu]) hj,
      xorBlock_relabel, hxor]
    rfl

/-- XFORM's loop that goes on is GENKS and XORKS for each block; after a block the sequence keeps a fresh KS (R136). -/
theorem primitiveBlocks_of_xformLoop {C : CipherPort} {o : Operands} {n j : Nat} {s t : State}
    (h : xformLoop C o.src.toNat o.dst.toNat o.len.toNat n j s = .ok () t) (hctr : s.ctrValid = true) (hkey : s.keyLen ≠ 0)
    (hsrc : rangeFails s.cfg o.src.toNat o.len.toNat = false) (hdst : rangeFails s.cfg o.dst.toNat o.len.toNat = false)
    (hn : j + n ≤ blockCount o.len.toNat) (p : Operands) (b : Word) (q : Seq) (v : Bool) :
    ∃ p' v', primitiveBlocks C o n j (s.relabel p b q v) = .ok () (t.relabel p' b q v') ∧
      ((n = 0 ∧ v' = v ∧ t = s) ∨ (v' = true ∧ KeystreamFresh C t)) := by
  induction n generalizing j s p v with
  | zero =>
    cases h
    exact ⟨p, v, rfl, .inl ⟨rfl, rfl, rfl⟩⟩
  | succ n ih =>
    obtain ⟨u, hblock, hloop⟩ := xformLoop_succ_eq_ok h
    obtain ⟨hcfg, hlen, hvalid, hfresh⟩ := xformBlock_ok_fresh hblock
    obtain ⟨w, hgenks, hxorks⟩ := primitives_of_xformBlock hblock hctr hkey hsrc hdst (by omega) p b q v
    obtain ⟨p', v', hrest, hend⟩ := ih hloop (hvalid.trans hctr) (by rwa [hlen]) (by rwa [hcfg]) (by rwa [hcfg]) (by omega)
      (blockOperands o j) true
    refine ⟨p', v', ?_, .inr ?_⟩
    · rw [primitiveBlocks, hgenks, Run.bind_ok, hxorks, Run.bind_ok, hrest]
    · rcases hend with ⟨-, hv, rfl⟩ | hend
      · exact ⟨hv, hfresh⟩
      · exact hend

/-! ### The sequence -/

/-- A key load that goes on has loaded KEY_LEN, and nothing a validation looks at but that (R124). -/
theorem loadKey_ok_fields {s t : State} (h : loadKey s = .ok () t) :
    t.cfg = s.cfg ∧ t.snap = s.snap ∧ t.keyLen = s.snap.klen.toNat := by
  obtain ⟨k, u, hread, hend⟩ := Run.bind_eq_ok h
  obtain ⟨_, _, hstate⟩ := readBytes_state s.snap.kaddr.toNat s.snap.klen.toNat s
  rw [hread, Run.state_ok] at hstate
  subst hstate
  cases hend
  exact ⟨rfl, rfl, rfl⟩

/-- A nonce load that goes on has set CTR_VALID, and keeps the key (R103). -/
theorem loadNonce_ok_fields {s t : State} (h : loadNonce s = .ok () t) :
    t.cfg = s.cfg ∧ t.snap = s.snap ∧ t.keyLen = s.keyLen ∧ t.ctrValid = true := by
  obtain ⟨_, _, _, _, _, _, hstate⟩ := loadNonce_state s
  rw [h, Run.state_ok] at hstate
  exact ⟨by rw [hstate], by rw [hstate], by rw [hstate], loadNonce_ok_ctrValid h⟩

theorem ldnonceCheck_congr {s t : State} (hcfg : t.cfg = s.cfg) (hsnap : t.snap = s.snap) :
    ldnonceCheck t = ldnonceCheck s := by
  rw [ldnonceCheck, ldnonceCheck, hcfg, hsnap]

/-- The sequence of the primitives goes on where an XFORM's loads and loop do, to the loop's state but for its labels
(R136). -/
theorem primitiveSequence_of_stages {C : CipherPort} {s x y z : State} (hc : commandCheck .xform s = none)
    (hkey : loadKey (s.xformStarted (blockCount s.snap.len.toNat)) = .ok () x) (hnonce : loadNonce x = .ok () y)
    (hloop : xformLoop C s.snap.src.toNat s.snap.dst.toNat s.snap.len.toNat (blockCount s.snap.len.toNat) 0 y = .ok () z) :
    ∃ p v, primitiveSequence C s = .ok () (z.relabel p s.blkcnt s.seq v) ∧
      (1 ≤ blockCount s.snap.len.toNat → v = true ∧ KeystreamFresh C z) := by
  obtain ⟨hcfgx, hsnapx, hlenx⟩ := loadKey_ok_fields hkey
  obtain ⟨hcfgy, -, hleny, hvalid⟩ := loadNonce_ok_fields hnonce
  have hcfg : y.cfg = s.cfg := hcfgy.trans hcfgx
  have hall := firstFailing_eq_none hc
  have hsrc := hall (rangeFails s.cfg s.snap.src.toNat s.snap.len.toNat, .range) (by simp)
  have hdst := hall (rangeFails s.cfg s.snap.dst.toNat s.snap.len.toNat, .range) (by simp)
  have hldkey : runLdkey s = .ok () (x.relabel s.snap s.blkcnt s.seq false) := by
    have hcheck : ldkeyCheck s = none := ldkeyCheck_of_xformCheck hc
    rw [runLdkey, hcheck, validated_none]
    exact loadKey_relabel hkey s.blkcnt s.seq s.ksValid
  have hldnonce : runLdnonce (x.relabel s.snap s.blkcnt s.seq false) = .ok () (y.relabel s.snap s.blkcnt s.seq false) := by
    rw [runLdnonce, ldnonceCheck_congr (s := s) (t := x.relabel s.snap s.blkcnt s.seq false) hcfgx rfl,
      ldnonceCheck_of_xformCheck hc, validated_none]
    have hrelabel := loadNonce_relabel hnonce s.blkcnt s.seq false
    rwa [hsnapx] at hrelabel
  have hkeyed : y.keyLen ≠ 0 := by
    have hklen := klen_of_ldkeyCheck (ldkeyCheck_of_xformCheck hc)
    rw [hleny, hlenx, State.xformStarted_snap]
    omega
  obtain ⟨p, v, hblocks, hend⟩ := primitiveBlocks_of_xformLoop hloop hvalid hkeyed (by rwa [hcfg]) (by rwa [hcfg])
    (by omega) s.snap s.blkcnt s.seq false
  refine ⟨p, v, by rw [primitiveSequence, hldkey, Run.bind_ok, hldnonce, Run.bind_ok, hblocks], fun hcount => ?_⟩
  exact hend.resolve_left fun ⟨hzero, _⟩ => by omega

/-- Settles O41: the sequence ends in the state of XFORM's loop but for its labels, and XFORM then drops KS. -/
theorem xformEqualsItsPrimitives : Obligations.XformEqualsItsPrimitives := by
  intro C s t h
  obtain ⟨hc, x, y, z, hkey, hnonce, hloop, rfl⟩ := runXform_stages h
  have hsnap : y.snap = s.snap := by
    rw [(loadNonce_ok_fields hnonce).2.1, (loadKey_ok_fields hkey).2.1]
    rfl
  rw [hsnap] at hloop
  obtain ⟨p, v, hseq, hfresh⟩ := primitiveSequence_of_stages hc hkey hnonce hloop
  exact ⟨_, hseq, rfl, rfl, rfl, rfl, rfl, rfl, rfl, rfl, rfl, rfl, hfresh⟩

end Sys2Proof.Machine
end

