-- ==== Sys2Proof/Proofs/Validation.lean ====
section
/-! PROOFS. The validation of each command: the record it leaves when it fails, what its checks mean and in which order they
are reported (R151, R155 to R159). -/

namespace Sys2Proof.Machine

/-! ### A validation that fails -/

/-- A command whose validation fails raises the sub-cause it reports, from the state it was given (R156). -/
theorem exec_invalid {i : Instr} {s : State} {c : SubCause} (hc : commandCheck i s = some c) :
    exec i s = .next (s.raised (.invalid c)) := by
  rcases runOf_cases i s with ⟨d, hd, hrun⟩ | ⟨hnone, -⟩
  · cases hc.symm.trans hd
    rw [exec_runOf, hrun, finish_raise]
  · cases hc.symm.trans hnone

/-- Settles O13: the completion record of the sub-cause is the whole of what a failed validation writes. -/
theorem validationErrorsHaveNoSideEffect : Obligations.ValidationErrorsHaveNoSideEffect := by
  intro i s c hc
  exact ⟨_, exec_invalid hc, rfl, rfl, rfl, rfl, rfl, rfl, ⟨rfl, rfl, rfl, rfl, rfl, rfl, rfl, rfl, rfl, rfl⟩,
    ⟨rfl, rfl, rfl, rfl, rfl, rfl, rfl, rfl, rfl⟩⟩

/-! ### The first failing check of a list (R159) -/

@[simp] theorem firstFailing_nil : firstFailing [] = none := rfl

@[simp] theorem firstFailing_cons_eq_none {b : Bool} {c : SubCause} {l : List (Bool × SubCause)} :
    firstFailing ((b, c) :: l) = none ↔ b = false ∧ firstFailing l = none := by
  cases b <;> simp [firstFailing]

/-- A cause is reported by the head of the list if the head fails, and else by the rest. -/
@[simp] theorem firstFailing_cons_eq_some {b : Bool} {c d : SubCause} {l : List (Bool × SubCause)} :
    firstFailing ((b, c) :: l) = some d ↔ (b = true ∧ c = d) ∨ (b = false ∧ firstFailing l = some d) := by
  cases b <;> simp [firstFailing]

/-- Of two neighbours with one cause it does not matter which fails first. -/
theorem firstFailing_cons_cons_same (a b : Bool) (c : SubCause) (l : List (Bool × SubCause)) :
    firstFailing ((a, c) :: (b, c) :: l) = firstFailing ((a || b, c) :: l) := by
  cases a <;> rfl

/-! ### What the checks say of the operands -/

/-- A range of at least one byte that ends above 2^AW (R157). -/
def RangeTooLong (cfg : Params) (a n : Word) : Prop := n ≠ 0 ∧ addrTop cfg < a.toNat + n.toNat

/-- A nonce length of NONCE_LENS (R6). -/
def NonceLenAdmitted (n : Word) : Prop := n = 8 ∨ n = 12 ∨ n = 16

/-- A key length of KEY_SIZES (R6). -/
def KeyLenAdmitted (cfg : Params) (n : Word) : Prop :=
  (n = 16 ∧ KeySize.k16 ∈ cfg.keySizes) ∨ (n = 24 ∧ KeySize.k24 ∈ cfg.keySizes) ∨ (n = 32 ∧ KeySize.k32 ∈ cfg.keySizes)

/-- A message of length 0 on a platform that has none (R129). -/
def EmptyRefused (cfg : Params) (m : Word) : Prop := m = 0 ∧ cfg.allowEmpty = false

theorem rangeFails_iff {cfg : Params} {a n : Word} :
    rangeFails cfg a.toNat n.toNat = true ↔ RangeTooLong cfg a n := by
  simp [rangeFails, RangeTooLong, BitVec.toNat_eq]

theorem nonceLenOk_iff {n : Word} : nonceLenOk n.toNat = true ↔ NonceLenAdmitted n := by
  simp [nonceLenOk, NonceLenAdmitted, BitVec.toNat_eq, or_assoc]

theorem keySizeOk_iff {cfg : Params} {n : Word} : keySizeOk cfg n.toNat = true ↔ KeyLenAdmitted cfg n := by
  simp only [keySizeOk, List.any_eq_true, beq_iff_eq]
  constructor
  · rintro ⟨k, hk, hn⟩
    cases k with
    | k16 => exact .inl ⟨BitVec.eq_of_toNat_eq hn.symm, hk⟩
    | k24 => exact .inr (.inl ⟨BitVec.eq_of_toNat_eq hn.symm, hk⟩)
    | k32 => exact .inr (.inr ⟨BitVec.eq_of_toNat_eq hn.symm, hk⟩)
  · rintro (⟨rfl, hk⟩ | ⟨rfl, hk⟩ | ⟨rfl, hk⟩) <;> exact ⟨_, hk, rfl⟩

theorem emptyCheck_iff {cfg : Params} {m : Word} :
    (m.toNat == 0 && !cfg.allowEmpty) = true ↔ EmptyRefused cfg m := by
  simp [EmptyRefused, BitVec.toNat_eq]

/-! ### The outcomes of each validation, in its order (R159) -/

theorem ldkeyCheck_outcomes (s : State) :
    (commandCheck .ldkey s = some .badKeyLen ↔ ¬KeyLenAdmitted s.cfg s.snap.klen) ∧
      (commandCheck .ldkey s = some .range ↔
        KeyLenAdmitted s.cfg s.snap.klen ∧ RangeTooLong s.cfg s.snap.kaddr s.snap.klen) ∧
      (commandCheck .ldkey s = none ↔
        KeyLenAdmitted s.cfg s.snap.klen ∧ ¬RangeTooLong s.cfg s.snap.kaddr s.snap.klen) := by
  simp [commandCheck, ldkeyCheck, ← keySizeOk_iff, ← rangeFails_iff]

theorem ldnonceCheck_outcomes (s : State) :
    (commandCheck .ldnonce s = some .badNonceLen ↔ ¬NonceLenAdmitted s.snap.nlen) ∧
      (commandCheck .ldnonce s = some .range ↔
        NonceLenAdmitted s.snap.nlen ∧ RangeTooLong s.cfg s.snap.naddr s.snap.nlen) ∧
      (commandCheck .ldnonce s = none ↔
        NonceLenAdmitted s.snap.nlen ∧ ¬RangeTooLong s.cfg s.snap.naddr s.snap.nlen) := by
  simp [commandCheck, ldnonceCheck, ← nonceLenOk_iff, ← rangeFails_iff]

theorem incctrCheck_outcomes (s : State) :
    (commandCheck .incctr s = some .noCounter ↔ s.ctrValid = false) ∧
      (commandCheck .incctr s = none ↔ s.ctrValid = true) := by
  simp [commandCheck, incctrCheck]

theorem genksCheck_outcomes (s : State) :
    (commandCheck .genks s = some .noCounter ↔ s.ctrValid = false) ∧
      (commandCheck .genks s = some .noKey ↔ s.ctrValid = true ∧ s.keyLen = 0) ∧
      (commandCheck .genks s = none ↔ s.ctrValid = true ∧ s.keyLen ≠ 0) := by
  simp [commandCheck, genksCheck]

theorem xorksCheck_outcomes (s : State) :
    (commandCheck .xorks s = some .badXorLen ↔ s.snap.len.toNat < 1 ∨ 16 < s.snap.len.toNat) ∧
      (commandCheck .xorks s = some .noKeystream ↔ (1 ≤ s.snap.len.toNat ∧ s.snap.len.toNat ≤ 16) ∧ s.ksValid = false) ∧
      (commandCheck .xorks s = some .range ↔
        (1 ≤ s.snap.len.toNat ∧ s.snap.len.toNat ≤ 16) ∧ s.ksValid = true ∧
          (RangeTooLong s.cfg s.snap.src s.snap.len ∨ RangeTooLong s.cfg s.snap.dst s.snap.len)) ∧
      (commandCheck .xorks s = none ↔
        (1 ≤ s.snap.len.toNat ∧ s.snap.len.toNat ≤ 16) ∧ s.ksValid = true ∧
          ¬RangeTooLong s.cfg s.snap.src s.snap.len ∧ ¬RangeTooLong s.cfg s.snap.dst s.snap.len) := by
  simp [commandCheck, xorksCheck, firstFailing_cons_cons_same, ← rangeFails_iff, Nat.one_le_iff_ne_zero, and_assoc]

theorem xformCheck_outcomes (s : State) :
    (commandCheck .xform s = some .emptyMessage ↔ EmptyRefused s.cfg s.snap.len) ∧
      (commandCheck .xform s = some .badNonceLen ↔
        ¬EmptyRefused s.cfg s.snap.len ∧ ¬NonceLenAdmitted s.snap.nlen) ∧
      (commandCheck .xform s = some .badKeyLen ↔
        ¬EmptyRefused s.cfg s.snap.len ∧ NonceLenAdmitted s.snap.nlen ∧ ¬KeyLenAdmitted s.cfg s.snap.klen) ∧
      (commandCheck .xform s = some .range ↔
        ¬EmptyRefused s.cfg s.snap.len ∧ NonceLenAdmitted s.snap.nlen ∧ KeyLenAdmitted s.cfg s.snap.klen ∧
          (RangeTooLong s.cfg s.snap.src s.snap.len ∨ RangeTooLong s.cfg s.snap.dst s.snap.len ∨
            RangeTooLong s.cfg s.snap.naddr s.snap.nlen ∨ RangeTooLong s.cfg s.snap.kaddr s.snap.klen)) ∧
      (commandCheck .xform s = none ↔
        ¬EmptyRefused s.cfg s.snap.len ∧ NonceLenAdmitted s.snap.nlen ∧ KeyLenAdmitted s.cfg s.snap.klen ∧
          ¬RangeTooLong s.cfg s.snap.src s.snap.len ∧ ¬RangeTooLong s.cfg s.snap.dst s.snap.len ∧
          ¬RangeTooLong s.cfg s.snap.naddr s.snap.nlen ∧ ¬RangeTooLong s.cfg s.snap.kaddr s.snap.klen) := by
  simp [commandCheck, xformCheck, firstFailing_cons_cons_same, ← emptyCheck_iff, ← nonceLenOk_iff, ← keySizeOk_iff,
    ← rangeFails_iff, or_assoc, and_assoc]

theorem incbufCheck_outcomes (s : State) :
    (commandCheck .incbuf s = some .range ↔ RangeTooLong s.cfg s.snap.naddr s.snap.nlen) ∧
      (commandCheck .incbuf s = none ↔ ¬RangeTooLong s.cfg s.snap.naddr s.snap.nlen) := by
  simp [commandCheck, incbufCheck, ← rangeFails_iff]

/-- Settles O14: the outcomes of the seven validations, the conditions of each written out. -/
theorem validationOrder : Obligations.ValidationOrder := by
  intro s
  obtain ⟨ldkeyLen, ldkeyRange, ldkeyNone⟩ := ldkeyCheck_outcomes s
  obtain ⟨ldnonceLen, ldnonceRange, ldnonceNone⟩ := ldnonceCheck_outcomes s
  obtain ⟨incctrCounter, incctrNone⟩ := incctrCheck_outcomes s
  obtain ⟨genksCounter, genksKey, genksNone⟩ := genksCheck_outcomes s
  obtain ⟨xorksLen, xorksKeystream, xorksRange, xorksNone⟩ := xorksCheck_outcomes s
  obtain ⟨xformEmpty, xformNonce, xformKey, xformRange, xformNone⟩ := xformCheck_outcomes s
  obtain ⟨incbufRange, incbufNone⟩ := incbufCheck_outcomes s
  exact ⟨ldkeyLen, ldkeyRange, ldkeyNone, ldnonceLen, ldnonceRange, ldnonceNone, incctrCounter, incctrNone,
    genksCounter, genksKey, genksNone, xorksLen, xorksKeystream, xorksRange, xorksNone,
    xformEmpty, xformNonce, xformKey, xformRange, xformNone, incbufRange, incbufNone⟩

end Sys2Proof.Machine
end

