-- ==== Sys2Proof/Proofs/Reset.lean ====
section
/-! PROOFS. The reset input and the state after reset (R180), and the first events that a reset keeps of the command it aborts
(R181). -/

namespace Sys2Proof.Machine

/-! ### The reset values (R22, R180) -/

theorem statusWord_resetRegisters (s : State) : statusWord (resetRegisters s) = 0 := by
  simp [statusWord, statusLow, statusResult, bitAt, isBusy, keyValid, errCode, subCode]

theorem regValue_resetRegisters (r : Reg) (s : State) : regValue r (resetRegisters s) = 0 := by
  cases r with
  | status => exact statusWord_resetRegisters s
  | _ => rfl

theorem regValue_resetNow (r : Reg) (o : Host.Outcome State Fault Refusal) (s : State) : regValue r (resetNow o s) = 0 := by
  obtain ⟨_, _, _, h⟩ := resetNow_eq o s
  rw [h, regValue_resetRegisters]

/-- No host register shows SEQ or the draws, in which State.reset differs from the registers that a reset input leaves. -/
theorem regValue_reset (r : Reg) : regValue r State.reset = 0 := by
  have hsame : regValue r State.reset = regValue r (resetRegisters State.reset) := by cases r <;> rfl
  rw [hsame, regValue_resetRegisters]

theorem resetKey_toList : (padTo 32 []).toList = List.replicate 32 0 := rfl

/-- Settles O55: the host registers, and the fields behind them. -/
theorem resetStateValues : Obligations.ResetStateValues :=
  ⟨regValue_reset, resetKey_toList, rfl, rfl, rfl, rfl, rfl, rfl⟩

/-- Settles O56: the invariant of the reset values does not look at SEQ while IDLE. -/
theorem resetStateMeetsTheInvariant : Obligations.ResetStateMeetsTheInvariant :=
  { resetRegisters_inv (s := State.reset) reset_mem_wf rfl rfl with
    busySnapshot := nofun
    busyBlocks := nofun
    busyByte := nofun }

/-! ### The reset input -/

theorem step_of_reset {s : State} {rest : List Input} (h : s.inputs = .reset :: rest) :
    step s = .next (resetNow (unitTurn { s with inputs := [] }) { s with inputs := rest }) := step_of_move h

/-- A reset of a unit that is not about to run a command leaves the memory (R180, log 9). -/
theorem resetNow_mem_of_not_aboutToRun {s : State} (rest : List Input) (h : ¬AboutToRun s) :
    (resetNow (unitTurn { s with inputs := [] }) { s with inputs := rest }).mem = s.mem :=
  resetNow_of_not_aboutToRun (s := { s with inputs := rest }) h

/-- Settles O53: a reset is the reset values, over the memory as it was where no command is aborted. -/
theorem resetInputValues : Obligations.ResetInputValues := by
  intro s rest hi
  refine ⟨_, step_of_reset hi, fun r => regValue_resetNow .., ?_⟩
  have hmem (hidle : s.phase = .idle) :=
    resetNow_mem_of_not_aboutToRun (s := s) rest fun ⟨hbusy, _⟩ => by cases hidle.symm.trans hbusy
  obtain ⟨_, _, _, h⟩ := resetNow_eq (unitTurn { s with inputs := [] }) { s with inputs := rest }
  rw [h] at hmem ⊢
  exact ⟨resetKey_toList, rfl, rfl, rfl, rfl, rfl, rfl, hmem⟩

/-! ### What a reset keeps of the command it aborts (R181) -/

/-- A reset keeps the writes among the first events, k of them, of what the aborted command would have done. -/
theorem resetNow_mem_eq_replay_take (u s : State) :
    ∃ k, k ≤ (u.trace.drop s.trace.length).length ∧
      (resetNow (.next u) s).mem = replayWrites s.mem ((u.trace.drop s.trace.length).take k) :=
  ⟨_, Nat.lt_succ_iff.mp (Nat.mod_lt _ (Nat.succ_pos _)), rfl⟩

/-- A reset of a command that would have had no event leaves the memory. -/
theorem resetNow_mem_of_no_event {u s : State} (h : u.trace = s.trace) : (resetNow (.next u) s).mem = s.mem := by
  obtain ⟨k, -, hmem⟩ := resetNow_mem_eq_replay_take u s
  rw [hmem, h, List.drop_length, List.take_nil]
  rfl

/-- Settles O54: the turn that a reset aborts is the command's run, the end of an illegal word, or none. -/
theorem resetWhileBusyKeepsAPrefix : Obligations.ResetWhileBusyKeepsAPrefix := by
  intro s rest hb hi
  have hwaiting (hw : s.waiting = true) :=
    resetNow_mem_of_not_aboutToRun (s := s) rest fun ⟨_, hrun⟩ => by cases hw.symm.trans hrun
  refine ⟨_, step_of_reset hi, fun i u hw hd hexec => ?command, fun hwf => ?illegal, hwaiting⟩
  case command =>
    have hturn := (unitTurn_eq_exec (s := { s with inputs := [] }) hb hw hd).trans hexec
    rw [hturn]
    exact resetNow_mem_eq_replay_take u { s with inputs := rest }
  case illegal =>
    by_cases hw : s.waiting = true
    · exact hwaiting hw
    · rw [unitTurn_of_not_wf (s := { s with inputs := [] }) hb (Bool.eq_false_iff.mpr hw) hwf]
      exact resetNow_mem_of_no_event (s := { s with inputs := rest }) rfl

end Sys2Proof.Machine
end

