-- ==== Sys2Proof/Proofs/UnansweredRequest.lean ====
section
/-! PROOFS. A command whose request is never answered keeps what it did before it, and the unit stays BUSY (R193, U7). -/

namespace Sys2Proof.Machine

/-! ### The turns of a unit that waits, and the turn in which it begins to -/

theorem unitTurn_of_waiting {s : State} (hw : s.waiting = true) : unitTurn s = .next s := if_pos hw

/-- A stalled turn that leaves the unit waiting is a turn with the request named by the move unanswered. -/
theorem unitStall_of_waiting {k : Nat} {s t : State} (hw : t.waiting = true)
    (h : unitTurn { s with silentAt := some (s.trace.length + k) } = .next t) :
    unitStall k s = .next { t with silentAt := none } := by
  simp [unitStall, h, hw]

/-- A command that waits already goes on waiting. -/
theorem unitStall_of_already_waiting {s : State} (hw : s.waiting = true) (k : Nat) :
    unitStall k s = .next { s with silentAt := none } :=
  unitStall_of_waiting (t := { s with silentAt := some (s.trace.length + k) }) hw (unitTurn_of_waiting hw)

/-- A command that does not make the request named by the move cannot leave it unanswered (log 9). -/
theorem unitStall_of_not_waiting {k : Nat} {s t : State} (hw : t.waiting = false)
    (h : unitTurn { s with silentAt := some (s.trace.length + k) } = .next t) :
    unitStall k s = .refused (.noSuchRequest k) := by
  simp [unitStall, h, hw]

/-- A command whose validation passes and whose body waits leaves the unit BUSY with what the body did (R193). -/
theorem exec_stalled {i : Instr} {s t : State} (hc : commandCheck i s = none) (h : bodyOf i s = .wait t) :
    exec i s = .next t.stalled := by
  rcases runOf_cases i s with ⟨c, hsome, -⟩ | ⟨-, hrun⟩
  · cases hc.symm.trans hsome
  · rw [exec_runOf, hrun, h, finish_wait]

/-- The requests before the unanswered one are answered. -/
theorem answered_of_silentAt {s : State} {n : Nat} (h : s.silentAt = some (s.trace.length + n)) : answered s n := by
  intro l hl
  cases h.symm.trans hl
  exact Nat.le_refl _

/-! ### XORKS -/

/-- A block whose write i is never answered: its source is read, and its first i bytes are written (R127, R193). -/
theorem xorBlock_silentWrite {a d q i : Nat} {s : State} (h16 : q ≤ 16) (hi : i < q) (ha : admitsRange s.cfg a q)
    (hd : admitsRange s.cfg d i) (hqa : unraced s a q) (hqd : unraced s d q)
    (hm : s.silentAt = some (s.trace.length + (q + i))) :
    xorBlock a d q s =
      .wait
        { s with
          mem := s.mem.setBytes d ((xorBytes (s.mem.bytes a q) s.ks.toList).take i)
          trace := s.trace ++ readEvents s.mem a q ++
            writeEvents d ((xorBytes (s.mem.bytes a q) s.ks.toList).take i) } := by
  have hlen := xorBytes_bytes_length s.mem a h16 s.ks
  have hreads : answered s q := answered_of (answered_of_silentAt hm) rfl (by omega)
  rw [xorBlock, readBytes_ok ha hqa hreads, Run.bind_ok]
  exact writeBytes_silent (s := { s with trace := s.trace ++ readEvents s.mem a q }) (by rwa [hlen]) hd
    (unraced_congr rfl rfl rfl rfl (unraced_sub hqd (by omega) (by omega))) (by simp [hm, Nat.add_assoc])

/-! ### XFORM -/

theorem xformBlock_silent {s : State} (hm : s.silentAt = some s.trace.length) (C : CipherPort) (src dst m j : Nat) :
    xformBlock C src dst m j s = .wait (s.atBlock j) := by
  rw [xformBlock, genBlock_silent (s := s.atBlock j) hm, Run.bind_wait]

theorem xformLoop_of_wait {C : CipherPort} {s t : State} {src dst m j : Nat} (left : Nat)
    (h : xformBlock C src dst m j s = .wait t) : xformLoop C src dst m (left + 1) j s = .wait t := by
  rw [xformLoop, h]

/-- No round changes the block count in SEQ (R132). -/
theorem xformRounds_nblk (src dst m : Nat) (bs : List Block) (j : Nat) (s : State) :
    (State.xformRounds src dst m bs j s).seq.nblk = s.seq.nblk := by
  induction bs generalizing j s with
  | nil => rfl
  | cons b bs ih => exact ih (j + 1) (s.xformRound src dst m j b)

/-- The loads and the first rounds leave PHASE and the turn's unanswered request, BLKCNT at 0, and their blocks written
(R131). -/
theorem xformAfter_fields {s : State} (hfit : s.snap.klen.toNat ≤ 32) (bs : List Block) :
    (s.xformAfter bs).phase = s.phase ∧ (s.xformAfter bs).silentAt = s.silentAt ∧ (s.xformAfter bs).blkcnt = 0 ∧
      (s.xformAfter bs).mem = applyBlocks s.snap.src.toNat s.snap.dst.toNat s.snap.len.toNat bs 0 s.mem := by
  obtain ⟨_, _, h⟩ := xformAfter_eq hfit bs
  rw [h]
  exact ⟨rfl, rfl, rfl, rfl⟩

/-- The events of the loads and of the first rounds are one for each request (R55). -/
theorem xformAfter_trace_length {s : State} (hfit : s.snap.klen.toNat ≤ 32) (bs : List Block) :
    (s.xformAfter bs).trace.length = s.trace.length + xformRequests s bs.length := by
  have hblocks := blockEvents_length (keyBytes s) s.snap.src.toNat s.snap.dst.toNat s.snap.len.toNat (firstCounter s) bs 0
    s.mem
  have hnone : bytesBefore s.snap.len.toNat 0 = 0 := by simp [bytesBefore]
  rw [hnone, Nat.zero_add, Nat.mul_zero, Nat.add_zero] at hblocks
  obtain ⟨_, _, hafter⟩ := xformAfter_eq hfit bs
  rw [hafter]
  simp only [State.xformLoaded, State.xformKeyed, State.xformStarted, List.length_append, readEvents_length, hblocks,
    xformRequests, Nat.add_assoc]

/-- XFORM whose first blocks go on and whose next cipher call is never answered waits there, those blocks done (R193). -/
theorem RoundsGoOn.body_wait {C : CipherPort} {s : State} {bs : List Block} (h : RoundsGoOn C s bs)
    (hlt : bs.length < blockCount s.snap.len.toNat)
    (hm : s.silentAt = some (s.trace.length + xformRequests s bs.length)) :
    xformBody C s = .wait ((s.xformAfter bs).atBlock bs.length) := by
  obtain ⟨left, hcount⟩ : ∃ left, blockCount s.snap.len.toNat = bs.length + (left + 1) :=
    ⟨blockCount s.snap.len.toNat - bs.length - 1, by omega⟩
  have hsilent : (s.xformAfter bs).silentAt = some (s.xformAfter bs).trace.length := by
    obtain ⟨-, hkept, -, -⟩ := xformAfter_fields h.keyFits bs
    rw [hkept, hm, xformAfter_trace_length h.keyFits]
  rw [h.body_eq _ hcount, xformLoop_of_wait left (xformBlock_silent hsilent ..), Run.bind_wait]

/-- XFORM whose cipher call of block i is never answered: the key and the nonce are loaded, and the blocks before i are
written (R131, R193). -/
theorem runXform_silent {C : CipherPort} {s : State} {i : Nat} (hc : commandCheck .xform s = none)
    (hrace : raceFree .xform s) (hk : admitsRange s.cfg s.snap.kaddr.toNat s.snap.klen.toNat)
    (hn : admitsRange s.cfg s.snap.naddr.toNat s.snap.nlen.toNat) (hi : i < blockCount s.snap.len.toNat)
    (hsrc : admitsRange s.cfg s.snap.src.toNat (16 * i)) (hdst : admitsRange s.cfg s.snap.dst.toNat (16 * i))
    (hks : (keystream C (keyBytes s) (firstCounter s) i).2 = none)
    (hm : s.silentAt = some (s.trace.length + (s.snap.klen.toNat + s.snap.nlen.toNat + 33 * i))) :
    runXform C s = .wait ((s.xformAfter (keystream C (keyBytes s) (firstCounter s) i).1).atBlock i) := by
  obtain ⟨hqk, hqn, hqs, hqd⟩ := raceFree_xform hrace
  have hlen : (keystream C (keyBytes s) (firstCounter s) i).1.length = i := by
    rcases keystream_cases C (keyBytes s) (firstCounter s) i with ⟨-, hlen⟩ | ⟨e, hsome, -, -⟩
    · exact hlen
    · cases hks.symm.trans hsome
  have hans := keystream_answers C (keyBytes s) (firstCounter s) i
  generalize (keystream C (keyBytes s) (firstCounter s) i).1 = bs at hlen hans ⊢
  subst hlen
  have hbefore := bytesBefore_eq hi
  have hin := bytesBefore_le s.snap.len.toNat bs.length
  have hports : MessagePorts s s.snap.src.toNat s.snap.dst.toNat (bytesBefore s.snap.len.toNat bs.length) :=
    ⟨by rwa [hbefore], by rwa [hbefore], unraced_sub hqs (by omega) (by omega), unraced_sub hqd (by omega) (by omega)⟩
  have hrequests : xformRequests s bs.length = s.snap.klen.toNat + s.snap.nlen.toNat + 33 * bs.length := by
    unfold xformRequests
    omega
  rw [← hrequests] at hm
  have hgo : RoundsGoOn C s bs :=
    ⟨klen_le_of_xformCheck hc, ⟨hk, hn, hqk, hqn⟩, hports, hans, answered_of_silentAt hm⟩
  have hcheck : xformCheck s = none := hc
  rw [runXform, hcheck, validated_none, hgo.body_wait hi hm]

/-! ### The statement -/

/-- Settles O8: a waiting unit's turn changes nothing, the stalled turn is the command with that request unanswered, and each
command waits where its port operation does. -/
theorem unansweredCommandStaysBusy : Obligations.UnansweredCommandStaysBusy := by
  intro C s i
  dsimp only
  refine ⟨fun hw => ⟨fun hi => ?noMove, fun rest hi => ?turn, fun k rest hi => ?stalledAgain⟩,
    fun j k rest t hb hw hd hi hexec => ?stall, fun hc hrace ha hi hm => ?ldkey, fun hc hrace ha hi hm => ?ldnonce,
    fun hc hrace ha hd hi hm => ?xorks, fun hc hn hm => ?incbuf, fun hc hm => ?genks,
    fun hc hrace hk hn hi hsrc hdst hks hm => ?xform⟩
  case noMove => rw [step_of_no_move hi, unitTurn_of_waiting hw]
  case turn => exact (step_of_move hi).trans (unitTurn_of_waiting (s := { s with inputs := rest }) hw)
  case stalledAgain =>
    exact (step_of_move hi).trans (unitStall_of_already_waiting (s := { s with inputs := rest }) hw k)
  case stall =>
    have hturn := (unitTurn_eq_exec (s := { s with inputs := rest, silentAt := some (s.trace.length + k) }) hb hw hd).trans
      hexec
    exact ⟨fun ht => (step_of_move hi).trans (unitStall_of_waiting (s := { s with inputs := rest }) ht hturn),
      fun ht => (step_of_move hi).trans (unitStall_of_not_waiting (s := { s with inputs := rest }) ht hturn)⟩
  case ldkey => exact exec_stalled hc (loadKey_silent hi ha (unraced_sub (raceFree_ldkey hrace) (by omega) (by omega)) hm)
  case ldnonce =>
    exact exec_stalled hc (loadNonce_silent hi ha (unraced_sub (raceFree_ldnonce hrace) (by omega) (by omega)) hm)
  case xorks =>
    obtain ⟨hqa, hqd⟩ := raceFree_xorks hrace
    exact exec_stalled (i := .xorks) hc (xorBlock_silentWrite (len_le_of_xorksCheck hc) hi ha hd hqa hqd hm)
  case incbuf =>
    obtain ⟨n, hlast⟩ : ∃ n, s.snap.nlen.toNat = n + 1 := ⟨s.snap.nlen.toNat - 1, by omega⟩
    have hloop := incbufLoop_silent (a := s.snap.naddr.toNat) (n := n) hm
    rw [hlast, Nat.add_sub_cancel]
    rw [← hlast] at hloop
    exact exec_stalled (i := .incbuf) hc hloop
  case genks => exact exec_stalled (i := .genks) hc (by rw [bodyOf, genBlock_silent hm, Run.bind_wait])
  case xform =>
    obtain ⟨hphase, -, hblkcnt, hmem⟩ :=
      xformAfter_fields (klen_le_of_xformCheck hc) (keystream C (keyBytes s) (firstCounter s) i).1
    exact ⟨_, runXform_silent hc hrace hk hn hi hsrc hdst hks hm, hphase, xformRounds_nblk .., rfl, hblkcnt, hmem⟩

end Sys2Proof.Machine
end
